-- ==== Sys2Proof/Word.lean ====
section
/-! DEFINITION. The word of the register window and the byte of a header (00_scope.md R9, R12): bit 0 is the least
significant bit and every value is unsigned. -/

namespace Sys2Proof

/-- REG_W = 32: a host register, a command word (R9, R67). -/
abbrev Word := BitVec 32

/-- One byte of the textual header (46_host_sequences.md R131). -/
abbrev Byte := BitVec 8

end Sys2Proof
end

