-- ==== Sys2Proof/Syntax.lean ====
section
/-! DEFINITION. The commands: one constructor per row of spec/opcode_table.json (30_encoding.md R72), with the
operands of R67 as numbers. -/

namespace Sys2Proof

/-- A command. An operand is a number as the assembler reads it (46_host_sequences.md R124); `WellFormed` says when
it fits its field. -/
inductive Instr where
  /-- NOP, opcode 0x00, format Z (R118). -/
  | nop
  /-- CLEAR_FREQ, opcode 0x01, format Z (R82). -/
  | clearFreq
  /-- COUNT, opcode 0x02, format S (R83). -/
  | count (sym : Nat)
  /-- WRITE_FREQ, opcode 0x03, format S; its count is the latched DATA (R84). -/
  | writeFreq (sym : Nat)
  /-- READ_FREQ, opcode 0x04, format S (R85). -/
  | readFreq (sym : Nat)
  /-- BUILD_TREE, opcode 0x10, format Z (R91). -/
  | buildTree
  /-- READ_NODE, opcode 0x11, format N (R95). -/
  | readNode (idx : Nat)
  /-- GEN_CODES, opcode 0x20, format Z (R99). -/
  | genCodes
  /-- READ_CODE, opcode 0x21, format SW (R101). -/
  | readCode (sym word : Nat)
  /-- ENCODE, opcode 0x30, format S (R106). -/
  | encode (sym : Nat)
  /-- DECODE, opcode 0x31, format Z (R110). -/
  | decode
  /-- STREAM_RESET, opcode 0x32, format Z (R113). -/
  | streamReset
  /-- CLEAR_FAULT, opcode 0x7F, format Z (R119). -/
  | clearFault
  deriving DecidableEq, Repr

end Sys2Proof
end

