-- ==== Sys2Proof/WellFormed.lean ====
section
/-! DEFINITION. When a command's operands fit their fields: the assembler refuses sym >= 512, idx >= 1024 and
word >= 8 (46_host_sequences.md R124, 30_encoding.md R75). A symbol in 257..511 fits its field: it decodes, and the
command then faults BAD_SYMBOL (30_encoding.md R71). -/

namespace Sys2Proof

/-- SYM is a 9-bit field (R67). -/
def symFits (sym : Nat) : Bool := sym < 512

/-- IDX is a 10-bit field (R67). -/
def idxFits (idx : Nat) : Bool := idx < 1024

/-- WORD is a 3-bit field (R67). -/
def wordFits (word : Nat) : Bool := word < 8

/-- Every operand fits its field. -/
def Instr.wellFormed : Instr → Bool
  | .nop => true
  | .clearFreq => true
  | .count sym => symFits sym
  | .writeFreq sym => symFits sym
  | .readFreq sym => symFits sym
  | .buildTree => true
  | .readNode idx => idxFits idx
  | .genCodes => true
  | .readCode sym word => symFits sym && wordFits word
  | .encode sym => symFits sym
  | .decode => true
  | .streamReset => true
  | .clearFault => true

end Sys2Proof
end

