-- ==== Sys2Proof/Decode.lean ====
section
/-! DEFINITION. The decoder, a total function of any 32-bit word that rejects by name (30_encoding.md R75), the opcode
map as rows of mask and match (R72), and after them the encoder (R67, R68). -/

namespace Sys2Proof

/-- The field `w[hi:lo]`, read as an unsigned number (00_scope.md R12). -/
def bits (w : Word) (hi lo : Nat) : Nat := w.toNat / 2 ^ lo % 2 ^ (hi + 1 - lo)

/-- Why a word is no command: both raise ILLEGAL_CMD (30_encoding.md R73). -/
inductive Illegal where
  /-- `w[7:0]` is not an opcode of R72. -/
  | unassignedOpcode
  /-- The opcode is assigned, and a bit its format reserves is 1 (R70). -/
  | reservedBits
  deriving DecidableEq, Repr

/-- The bits above `lo - 1` are reserved in the command's format: they must be 0 (R68, R70). -/
def reservedFrom (w : Word) (lo : Nat) (i : Instr) : Except Illegal Instr :=
  if bits w 31 lo = 0 then .ok i else .error .reservedBits

/-- `SYM = w[16:8]` (R69). -/
def fieldSym (w : Word) : Nat := bits w 16 8

/-- `IDX = w[17:8]` (R69). -/
def fieldIdx (w : Word) : Nat := bits w 17 8

/-- `WORD = w[19:17]` (R69). -/
def fieldWord (w : Word) : Nat := bits w 19 17

/-- The decision procedure of R75. -/
def decode (w : Word) : Except Illegal Instr :=
  match bits w 7 0 with
  | 0x00 => reservedFrom w 8 .nop
  | 0x01 => reservedFrom w 8 .clearFreq
  | 0x02 => reservedFrom w 17 (.count (fieldSym w))
  | 0x03 => reservedFrom w 17 (.writeFreq (fieldSym w))
  | 0x04 => reservedFrom w 17 (.readFreq (fieldSym w))
  | 0x10 => reservedFrom w 8 .buildTree
  | 0x11 => reservedFrom w 18 (.readNode (fieldIdx w))
  | 0x20 => reservedFrom w 8 .genCodes
  | 0x21 => reservedFrom w 20 (.readCode (fieldSym w) (fieldWord w))
  | 0x30 => reservedFrom w 17 (.encode (fieldSym w))
  | 0x31 => reservedFrom w 8 .decode
  | 0x32 => reservedFrom w 8 .streamReset
  | 0x7F => reservedFrom w 8 .clearFault
  | _ => .error .unassignedOpcode

/-- A row of the opcode map: a word selects it when `w &&& mask = matched` (R72). -/
structure OpcodeRow where
  opcode : Nat
  mask : Word
  matched : Word
  deriving DecidableEq, Repr

/-- The opcode map, row for row (R72). -/
def opcodeMap : List OpcodeRow :=
  [ ⟨0x00, 0xFFFFFFFF, 0x00000000⟩, ⟨0x01, 0xFFFFFFFF, 0x00000001⟩, ⟨0x02, 0xFFFE00FF, 0x00000002⟩,
    ⟨0x03, 0xFFFE00FF, 0x00000003⟩, ⟨0x04, 0xFFFE00FF, 0x00000004⟩, ⟨0x10, 0xFFFFFFFF, 0x00000010⟩,
    ⟨0x11, 0xFFFC00FF, 0x00000011⟩, ⟨0x20, 0xFFFFFFFF, 0x00000020⟩, ⟨0x21, 0xFFF000FF, 0x00000021⟩,
    ⟨0x30, 0xFFFE00FF, 0x00000030⟩, ⟨0x31, 0xFFFFFFFF, 0x00000031⟩, ⟨0x32, 0xFFFFFFFF, 0x00000032⟩,
    ⟨0x7F, 0xFFFFFFFF, 0x0000007F⟩ ]

/-- The row is selected by the word (R72). -/
def OpcodeRow.selects (r : OpcodeRow) (w : Word) : Bool := w &&& r.mask == r.matched

/-- OPCODE, the low byte of a command's word (R72). -/
def Instr.opcode : Instr → Nat
  | .nop => 0x00
  | .clearFreq => 0x01
  | .count _ => 0x02
  | .writeFreq _ => 0x03
  | .readFreq _ => 0x04
  | .buildTree => 0x10
  | .readNode _ => 0x11
  | .genCodes => 0x20
  | .readCode _ _ => 0x21
  | .encode _ => 0x30
  | .decode => 0x31
  | .streamReset => 0x32
  | .clearFault => 0x7F

/-- The operand bits of a command's word, in place: SYM from bit 8, IDX from bit 8, WORD from bit 17 (R67, R68). -/
def Instr.operandBits : Instr → Nat
  | .nop => 0
  | .clearFreq => 0
  | .count sym => 2 ^ 8 * sym
  | .writeFreq sym => 2 ^ 8 * sym
  | .readFreq sym => 2 ^ 8 * sym
  | .buildTree => 0
  | .readNode idx => 2 ^ 8 * idx
  | .genCodes => 0
  | .readCode sym word => 2 ^ 8 * sym + 2 ^ 17 * word
  | .encode sym => 2 ^ 8 * sym
  | .decode => 0
  | .streamReset => 0
  | .clearFault => 0

/-- The word of a command (R67, R68); the assembler takes a well-formed one only (`assemble`). -/
def encode (i : Instr) : Word := BitVec.ofNat 32 (i.opcode + i.operandBits)

/-- The assembler: it refuses an operand that does not fit its field (46_host_sequences.md R124). -/
def assemble (i : Instr) : Option Word := if i.wellFormed then some (encode i) else none

/-- The instruction the decoder reads from the `nbits` bits `w`, numbered as spec/opcode_table.json numbers them.
A command is one 32-bit word (R67, R74); bits above `nbits` are 0. -/
def decodeTableWord (nbits w : Nat) : Option Instr :=
  match decode (BitVec.ofNat 32 (w % 2 ^ nbits)) with
  | .ok i => some i
  | .error _ => none

end Sys2Proof
end

