-- ==== Sys2Proof/Config.lean ====
section
/-! DEFINITION. What is fixed for the machine: the sizes of 00_scope.md R9, the parameters of R10, the records of the
internal tables, and the free values (constants with no body, of which nothing can be proved). -/

namespace Sys2Proof.Config

/-- NSYM: entries of FREQ and CODE, symbols 0..256 (R9). -/
def nsym : Nat := 257

/-- PSEUDO_EOF, the sentinel symbol (R9). -/
def pseudoEof : Nat := 256

/-- NOT_A_CHAR, the marker an internal node carries in SYM (R9, R37). -/
def notAChar : BitVec 9 := 257#9

/-- NODE_MAX: entries of the node arena (R9). -/
def nodeMax : Nat := 513

/-- The ZERO and ONE fields of a leaf: no child (R37). -/
def noChild : BitVec 10 := 0x3FF#10

/-- `2^COUNT_W - 1` with COUNT_W = 32 (R9, R11). -/
def countMax : Nat := 2 ^ 32 - 1

/-- WINDOW: bytes of the register window (R9). -/
def window : Nat := 0x40

/-- ID, the ASCII codes of HUFF (R23). -/
def idWord : Word := 0x48554646#32

end Sys2Proof.Config

namespace Sys2Proof.Machine

/-- One count, COUNT_W = 32 bits, unsigned (R9). -/
abbrev Count := BitVec 32

/-- A record of the node arena NODE (10_state.md R37). -/
structure Node where
  /-- LEAF -/
  leaf : Bool
  /-- SYM: the symbol of a leaf, NOT_A_CHAR in an internal node. -/
  sym : BitVec 9
  /-- COUNT -/
  count : Count
  /-- ZERO: the index of the `zero` child. -/
  zero : BitVec 10
  /-- ONE: the index of the `one` child. -/
  one : BitVec 10
  deriving DecidableEq, Repr, Inhabited

/-- A record of the code table CODE (10_state.md R40). -/
structure Code where
  /-- VALID -/
  valid : Bool
  /-- LEN, 0..256. -/
  len : BitVec 9
  /-- PATH: bit k is the k-th edge from the root. -/
  path : BitVec 256
  deriving DecidableEq, Repr, Inhabited

/-- The parameters of the machine (00_scope.md R10) and how many hosts are wired to it (60_exceptions.md R154).
They are arguments of the model, not state: no step changes them (log entry 2). -/
structure Params where
  /-- BASE: where the platform places the register window. -/
  base : Nat
  /-- BITIN_DEPTH -/
  bitinDepth : Nat
  /-- BITOUT_DEPTH -/
  bitoutDepth : Nat
  /-- How many hosts drive the block; the spec gives a meaning to one (R154). -/
  hosts : Nat
  deriving DecidableEq, Repr

/-- The constraints of R10, and one host (R154). -/
abbrev Params.valid (p : Params) : Prop :=
  p.base % 0x40 = 0 ∧ 1 ≤ p.bitinDepth ∧ p.bitinDepth ≤ 4095 ∧ 1 ≤ p.bitoutDepth ∧ p.bitoutDepth ≤ 4095 ∧ p.hosts = 1

/-- DESIGN CHOICE (log entry 2): the parameters the reset state carries, the depths that 95_test_vectors.md assumes. -/
def Params.chosen : Params := { base := 0, bitinDepth := 64, bitoutDepth := 64, hosts := 1 }

end Sys2Proof.Machine

namespace Sys2Proof.Config

/-- FREE VALUE (log entry 3): an entry of NODE that R37 leaves unspecified, by its index. -/
opaque unspecifiedNode : Nat → Machine.Node

/-- FREE VALUE (log entry 3): an entry of CODE while CODES_VALID = 0 (R40), by its symbol. -/
opaque unspecifiedCode : Nat → Machine.Code

/-- FREE VALUE (log entry 7): what the platform returns to a read outside the window (R35, R51), by a counter. -/
opaque platformRead : Nat → Word

end Sys2Proof.Config
end

