-- ==== Sys2Proof/Machine/State.lean ====
section
/-! DEFINITION. State as plain data: the block (10_state.md R20 to R49), the host agent (00_scope.md R15,
46_host_sequences.md R123 to R133) and the turns that say which agent moves next; the reasons a step can stop. -/

namespace Sys2Proof.Machine

/-- The ten faults of the block (60_exceptions.md R138). They are recorded and never stop the machine; their codes are
`FaultKind.code`. -/
inductive FaultKind where
  | illegalCmd
  | badSymbol
  | badIndex
  | countOverflow
  | emptyTable
  | noTree
  | noCodes
  | keyNotFound
  | busyOverrun
  | bitinOverflow
  deriving DecidableEq, Repr

/-- ENG, the engine state (10_state.md R42). -/
inductive Eng where
  /-- No command is executing. -/
  | idle
  /-- PEND(w, d): word w issued, DATA latched as d, decode step not yet run. -/
  | pend (w d : Word)
  /-- ENC(s, k): k bits of the code of s pushed. -/
  | enc (s k : Nat)
  /-- DEC(c, n): cursor at node index c, n bits consumed. -/
  | dec (c : BitVec 10) (n : Nat)
  deriving DecidableEq, Repr

/-- The two agents (00_scope.md R15). -/
inductive Agent where
  | host
  | engine
  deriving DecidableEq, Repr

/-- The registers of the window by name; each index is offset / 4 (10_state.md R22). -/
inductive Reg where
  | id | ctrl | cmd | status | data | result0 | result1 | bitin | bitout | fifoStat | irqEn | treeInfo | faultInfo
  | reserved34 | reserved38 | reserved3C
  deriving DecidableEq, Repr

/-- One access the host makes on the bus, by address and width in bits (20_memory.md R51, R52). -/
inductive Access where
  | read (addr width : Nat)
  | write (addr width : Nat) (v : Word)
  deriving DecidableEq, Repr

/-- The host variables that the sequences of 46_host_sequences.md name. -/
inductive HostVar where
  | st | x | r | c | i
  deriving DecidableEq, Repr

/-- One line of a host program (46_host_sequences.md R123 to R130). A line makes at most one register access in a
turn; a loop stays at the head of the program until it ends (log entry 12). -/
inductive HostOp where
  /-- A bus access by address and width; what it reads goes to x. -/
  | access (a : Access)
  /-- `WR reg, v` (R123). -/
  | wr (reg : Reg) (v : Word)
  /-- `RD reg -> var` (R123). -/
  | rd (reg : Reg) (var : HostVar)
  /-- `WR DATA, v` of SETFREQ, with v a number of the header (R125, R130). -/
  | setData (v : Nat)
  /-- `CMD i`: `WR CMD, encode(i)` (R125). -/
  | cmd (i : Instr)
  /-- `POLL`: read STATUS until BUSY = 0 (R123). -/
  | poll
  /-- Wait for IRQ = 1, in place of `POLL` (R125). -/
  | waitIrq
  /-- `CHECK` (R125). -/
  | check
  /-- The outer loop of EMIT: `RD STATUS -> st`, then a drain (R126). -/
  | emitStatus
  /-- The inner loop of EMIT: read BITOUT until it is empty, then test st[0] (R126). -/
  | emitDrain
  /-- The loop of DEC: read STATUS, and feed a bit on HOLD (R127). -/
  | decFeed
  /-- `PUTBIT IN.pop_front()`, or `ENDBITS` when IN is empty (R127). -/
  | decSupply
  /-- The test of KIND after a DEC in DECOMPRESS (R130). -/
  | decTest
  /-- `RD RESULT0 -> c`, and append the pair of symbol s when c is not 0 (R132). -/
  | readPair (s : Nat)
  /-- `H <- "{" ++ join(pairs, ", ") ++ "}"` (R132). -/
  | renderHeader
  /-- `serialize()` (R132). -/
  | serialize
  /-- `OUT <- []` before EMIT (R129). -/
  | clearOut
  /-- COMPRESS(S) (R129). -/
  | compress (input : List Byte)
  /-- DECOMPRESS(H, IN) (R130). -/
  | decompress (header : List Byte) (bitsIn : List Bool)
  /-- The sequence has reached its end: complete, unless FAULT = 1 (70_reset_and_hazards.md R176). -/
  | finish
  deriving DecidableEq, Repr

/-- How a host sequence ended (46_host_sequences.md R125, R129, R130, 70_reset_and_hazards.md R176). -/
inductive HostOutcome where
  | running
  | complete
  | truncated
  /-- A CHECK saw FAULT = 1, or the sequence reached its end with FAULT = 1; with this FAULT_CODE. -/
  | failed (code : BitVec 4)
  deriving DecidableEq, Repr

/-- The host agent: its program, its variables and its outputs (46_host_sequences.md). -/
structure HostAgent where
  prog : List HostOp
  st : Word
  x : Word
  r : Word
  c : Word
  i : Word
  /-- Every value a register read returned, the newest first. -/
  reads : List Word
  /-- OUT of EMIT: the bits collected, in order. -/
  outBits : List Bool
  /-- IN of DEC: the bits not yet pushed. -/
  inBits : List Bool
  /-- OUT of DECOMPRESS: the bytes decoded, in order. -/
  outBytes : List Byte
  /-- The pairs that serialize() has read. -/
  pairs : List (Nat × Nat)
  /-- H. -/
  header : List Byte
  outcome : HostOutcome
  deriving DecidableEq, Repr

/-- The whole machine. Every field but the last five is the block's (10_state.md R49). -/
structure State where
  /-- DATA (R27). -/
  data : Word
  /-- RESULT0 (R28). -/
  result0 : Word
  /-- RESULT1 (R28). -/
  result1 : Word
  /-- IRQ_EN: bit 0 DONE_IE, bit 1 FAULT_IE (R32). -/
  irqEn : BitVec 2
  /-- DONE (R26, R43). -/
  done : Bool
  /-- FAULT (R26, R43). -/
  fault : Bool
  /-- FAULT_CODE (R26, R43). -/
  faultCode : BitVec 4
  /-- FAULT_INFO (R34, R43). -/
  faultInfo : Word
  /-- FREQ (R36): the present symbols with their counts, symbols strictly rising; a symbol not listed has count 0. -/
  freq : List (Nat × Count)
  /-- NODE (R37): the entries BUILD_TREE wrote, from index 0. -/
  node : List Node
  /-- ROOT (R38). -/
  root : BitVec 10
  /-- NODES (R38). -/
  nodes : BitVec 10
  /-- TREE_VALID (R39). -/
  treeValid : Bool
  /-- CODES_VALID (R39). -/
  codesValid : Bool
  /-- CODE (R40): the entries with VALID = 1, symbols strictly rising. -/
  code : List (Nat × Code)
  /-- BITIN_Q (R41), head first. -/
  bitinQ : List Bool
  /-- EOS (R41). -/
  eos : Bool
  /-- BITOUT_Q (R41), head first. -/
  bitoutQ : List Bool
  /-- ENG (R42). -/
  eng : Eng
  /-- The parameters (R10); no step changes them (log entry 2). -/
  params : Params
  /-- The model's record of every fault ever raised, with its info word, the newest first, never cleared
  (60_exceptions.md R140; log entry 14). -/
  raised : List (FaultKind × Word)
  /-- The host agent (R15). -/
  host : HostAgent
  /-- Which agent moves next; empty: the engine whenever it has a step, else the host (log entry 1). -/
  turns : List Agent
  /-- The counter behind the free value of a read outside the window (log entry 7). -/
  freeCtr : Nat
  deriving DecidableEq, Repr

/-- Why the model stops: only in states that no run from reset reaches (log entries 8 and 9). -/
inductive Fault where
  /-- Raised by the DECODE cursor step when the cursor names no entry of NODE (index 513 or more). Safe: R111 derives
  that a cursor is always below NODES. -/
  | nodeIndex (c : Nat)
  /-- Raised by the ENCODE bit step when ENC(s, k) names no entry of CODE (s above 256). Safe: R106 checks s first. -/
  | codeIndex (s : Nat)
  /-- Raised by GEN_CODES when the walk of R99 leaves the arena, meets a leaf with no symbol, or goes deeper than the
  arena has entries. Safe: R48 makes NODE a strict binary tree whenever TREE_VALID = 1. -/
  | notATree
  deriving DecidableEq, Repr

/-- Why the model gives no meaning. -/
inductive Refusal where
  /-- Raised by exec's arm of an instruction that has no meaning yet. Safe. -/
  | notModelled (mnemonic : String)
  /-- Raised by a host access to the window that is not 32 bits wide (20_memory.md R52: a model must refuse it). Safe. -/
  | accessWidth (width : Nat)
  /-- Raised by a host access to the window with off[1:0] not 0 (20_memory.md R52: a model must refuse it). Safe. -/
  | accessMisaligned (off : Nat)
  /-- Raised by a host turn when more than one host is wired to the block (60_exceptions.md R154: a model must refuse
  such a configuration). Safe. -/
  | severalHosts (n : Nat)
  /-- Raised by DECOMPRESS on a header outside the grammar of R131 (46_host_sequences.md R134: a model must refuse
  it). Safe. -/
  | malformedHeader
  /-- Raised by a host command whose operand does not fit its field, or a SETFREQ value above 32 bits: the assembler
  refuses it (46_host_sequences.md R123, R124). Safe. -/
  | operandDoesNotFit
  deriving DecidableEq, Repr

/-- The host before any program is loaded (log entry 12). -/
def HostAgent.start : HostAgent :=
  { prog := [], st := 0, x := 0, r := 0, c := 0, i := 0, reads := [], outBits := [], inBits := [], outBytes := [],
    pairs := [], header := [], outcome := .running }

/-- The machine right after power-on reset (10_state.md R49, 70_reset_and_hazards.md R158), for given parameters. -/
def State.resetWith (p : Params) : State :=
  { data := 0, result0 := 0, result1 := 0, irqEn := 0, done := false, fault := false, faultCode := 0, faultInfo := 0,
    freq := [], node := [], root := 0, nodes := 0, treeValid := false, codesValid := false, code := [],
    bitinQ := [], eos := false, bitoutQ := [], eng := .idle,
    params := p, raised := [], host := .start, turns := [], freeCtr := 0 }

/-- The machine right after power-on reset, with the parameters of log entry 2. -/
def State.reset : State := State.resetWith .chosen

end Sys2Proof.Machine
end

