-- ==== Sys2Proof/Machine/Operands.lean ====
section
/-! DEFINITION. The operand forms: the entries of the internal tables FREQ, NODE and CODE (10_state.md R36 to R40), the
sparse tables that hold FREQ and CODE, the latched DATA, and the words that pack a record (R28, R33, R96). -/

namespace Sys2Proof.Machine

/-- The entry of a sparse table at `k`; `d` is what an unlisted key reads as. -/
def Table.get {α : Type} (d : α) : List (Nat × α) → Nat → α
  | [], _ => d
  | (j, v) :: rest, k => if j = k then v else Table.get d rest k

/-- The table with `v` at `k`, keys kept rising. -/
def Table.put {α : Type} : List (Nat × α) → Nat → α → List (Nat × α)
  | [], k, v => [(k, v)]
  | (j, u) :: rest, k, v =>
    if k < j then (k, v) :: (j, u) :: rest
    else if j = k then (k, v) :: rest
    else (j, u) :: Table.put rest k v

/-- The table with `k` unlisted. -/
def Table.drop {α : Type} : List (Nat × α) → Nat → List (Nat × α)
  | [], _ => []
  | (j, u) :: rest, k => if j = k then Table.drop rest k else (j, u) :: Table.drop rest k

/-- The canonical form of a sparse table with default `d`: keys strictly rising and below `bound`, no listed entry
equal to what an unlisted key reads as. -/
def Table.wf {α : Type} [DecidableEq α] (d : α) (bound : Nat) : List (Nat × α) → Bool
  | [] => true
  | (j, v) :: rest => decide (j < bound) && decide (v ≠ d) && rest.all (fun e => j < e.1) && Table.wf d bound rest

/-- `FREQ[s]` (R36): 0 when s is absent. -/
def freqAt (f : List (Nat × Count)) (s : Nat) : Count := Table.get 0 f s

/-- `FREQ[s] <- v` (R36): writing 0 makes s absent. -/
def freqPut (f : List (Nat × Count)) (s : Nat) (v : Count) : List (Nat × Count) :=
  if v = 0 then Table.drop f s else Table.put f s v

/-- The record of a symbol with no leaf: VALID = 0, LEN = 0, PATH = 0 (43_code_table.md R99). -/
def Code.cleared : Code := { valid := false, len := 0, path := 0 }

/-- `CODE[s]` for s in 0..256, none when there is no such entry; any value while CODES_VALID = 0 (R40, log entry 3). -/
def codeAt (s : State) (sym : Nat) : Option Code :=
  if sym < Config.nsym then
    some (if s.codesValid then Table.get Code.cleared s.code sym else Config.unspecifiedCode sym)
  else none

/-- `NODE[i]` for i in 0..512, none when there is no such entry; any value while TREE_VALID = 0 and at an index of
NODES or more (R37, log entry 3). -/
def nodeAt (s : State) (i : Nat) : Option Node :=
  if i < Config.nodeMax then
    some (if s.treeValid && decide (i < s.nodes.toNat) then s.node.getD i (Config.unspecifiedNode i)
      else Config.unspecifiedNode i)
  else none

/-- The DATA value latched with the command that is being decoded (R44); with no command pending, DATA itself
(log entry 4). -/
def latched (s : State) : Word :=
  match s.eng with
  | .pend _ d => d
  | _ => s.data

/-- The node word, `{LEAF, 2'b0, ONE, ZERO, SYM}` (42_tree_builder.md R96). -/
def nodeWord (x : Node) : Word := BitVec.ofBool x.leaf ++ 0#2 ++ x.one ++ x.zero ++ x.sym

/-- The TREE_INFO layout, `{6'b0, NODES, 6'b0, ROOT}` (R28, R33). -/
def treeWord (nodes root : BitVec 10) : Word := 0#6 ++ nodes ++ 0#6 ++ root

/-- RESULT0 of READ_CODE, `{VALID, 22'b0, LEN}` (43_code_table.md R101). -/
def codeWord (c : Code) : Word := BitVec.ofBool c.valid ++ 0#22 ++ c.len

/-- `PATH[32k+31 : 32k]` (43_code_table.md R101). -/
def pathWord (path : BitVec 256) (k : Nat) : Word := path.extractLsb' (32 * k) 32

/-- KIND of a DECODE result (44_stream_codec.md R112). -/
inductive Kind where
  | byte | eof | trunc
  deriving DecidableEq, Repr

/-- The value of KIND (R112); 3 is never produced. -/
def Kind.bits : Kind → BitVec 2
  | .byte => 0
  | .eof => 1
  | .trunc => 2

/-- RESULT0 of DECODE, `{14'b0, KIND, 7'b0, SYM}` (R112). -/
def decodeWord (k : Kind) (sym : BitVec 9) : Word := 0#14 ++ k.bits ++ 0#7 ++ sym

end Sys2Proof.Machine
end

