-- ==== Sys2Proof/Machine/Flags.lean ====
section
/-! DEFINITION. The flags and the computed registers: BUSY, HOLD, IRQ, STATUS, FIFO_STAT, TREE_INFO (10_state.md R26,
R31, R33, R42, R47), and when the engine has an enabled step. -/

namespace Sys2Proof.Machine

/-- BUSY = 1 iff ENG is not IDLE (R42). -/
def busy (s : State) : Bool := decide (s.eng ≠ .idle)

/-- HOLD (R47). -/
def hold (s : State) : Bool :=
  match s.eng with
  | .enc _ _ => decide (s.bitoutQ.length = s.params.bitoutDepth)
  | .dec c _ =>
    match nodeAt s c.toNat with
    | some x => !x.leaf && s.bitinQ.isEmpty && !s.eos
    | none => false
  | _ => false

/-- IRQ, the level of the interrupt output (R47, 60_exceptions.md R147). -/
def irq (s : State) : Bool := (s.done && s.irqEn.getLsbD 0) || (s.fault && s.irqEn.getLsbD 1)

/-- FAULT_CODE as STATUS shows it: 0 while FAULT = 0 (R26). -/
def faultCodeShown (s : State) : BitVec 4 := if s.fault then s.faultCode else 0

/-- FAULT_INFO as its register shows it: 0 while FAULT = 0 (R34). -/
def faultInfoShown (s : State) : Word := if s.fault then s.faultInfo else 0

/-- STATUS, bit 31 on the left (R26). -/
def statusWord (s : State) : Word :=
  0#20 ++ faultCodeShown s ++ 0#1 ++ BitVec.ofBool (irq s) ++ BitVec.ofBool (hold s) ++ BitVec.ofBool s.codesValid ++
    BitVec.ofBool s.treeValid ++ BitVec.ofBool s.fault ++ BitVec.ofBool s.done ++ BitVec.ofBool (busy s)

/-- FIFO_STAT (R31). -/
def fifoStat (s : State) : Word :=
  BitVec.ofBool s.eos ++ 0#3 ++ BitVec.ofNat 12 s.bitoutQ.length ++ 0#4 ++ BitVec.ofNat 12 s.bitinQ.length

/-- TREE_INFO, 0 while TREE_VALID = 0 (R33). -/
def treeInfo (s : State) : Word := if s.treeValid then treeWord s.nodes s.root else 0

/-- The engine has an enabled step (R45, R107, R111). -/
def engineEnabled (s : State) : Bool :=
  match s.eng with
  | .idle => false
  | .pend _ _ => true
  | .enc _ _ => decide (s.bitoutQ.length < s.params.bitoutDepth)
  | .dec c _ =>
    match nodeAt s c.toNat with
    | some x => x.leaf || !s.bitinQ.isEmpty || s.eos
    | none => true

end Sys2Proof.Machine
end

