-- ==== Sys2Proof/Machine/Ops.lean ====
section
/-! DEFINITION. The named operations every command and every register access is written over: taking a fault and
completing (10_state.md R46, 60_exceptions.md R140, R146), the return from a fault (45_control.md R119), issue (R44),
the reset action (70_reset_and_hazards.md R159), the bit ports (44_stream_codec.md R114, R115) and the register
window (R22 to R35). -/

namespace Sys2Proof.Machine

/-- FAULT_CODE of each fault (60_exceptions.md R138). -/
def FaultKind.code : FaultKind → BitVec 4
  | .illegalCmd => 1
  | .badSymbol => 2
  | .badIndex => 3
  | .countOverflow => 4
  | .emptyTable => 5
  | .noTree => 6
  | .noCodes => 7
  | .keyNotFound => 8
  | .busyOverrun => 9
  | .bitinOverflow => 10

/-- `raise F(info)`: recorded only if no fault is (60_exceptions.md R140); the model's own record keeps every raise. -/
def raise (k : FaultKind) (info : Word) (s : State) : State :=
  { s with
    fault := true
    faultCode := if s.fault then s.faultCode else k.code
    faultInfo := if s.fault then s.faultInfo else info
    raised := (k, info) :: s.raised }

/-- `complete` (10_state.md R46). -/
def complete (s : State) : State := { s with eng := .idle, done := true }

/-- `complete` with the results the command's rule names (R28, R46). -/
def completeWith (r0 r1 : Word) (s : State) : State := { complete s with result0 := r0, result1 := r1 }

/-- Taking a command fault, the block's exception entry: `raise F(w)`, then `complete` (R46, 60_exceptions.md R141,
R146). -/
def takeFault (k : FaultKind) (w : Word) (s : State) : State := complete (raise k w s)

/-- The return from a fault: the record is cleared, nothing is restored (45_control.md R119, 60_exceptions.md R149). -/
def clearRecord (s : State) : State := { s with fault := false, faultCode := 0, faultInfo := 0 }

/-- FREQ changed: neither the tree nor the codes match it any longer (R39). -/
def invalidate (s : State) : State := { s with treeValid := false, codesValid := false }

/-- `BITIN_Q <- []; BITOUT_Q <- []; EOS <- 0` (44_stream_codec.md R113). -/
def emptyStreams (s : State) : State := { s with bitinQ := [], bitoutQ := [], eos := false }

/-- Issue: what a host write of `w` to CMD does (R44). -/
def issue (w : Word) (s : State) : State :=
  if s.eng ≠ .idle then raise .busyOverrun w s
  else if s.fault = true ∧ bits w 7 0 ≠ 0x00 ∧ bits w 7 0 ≠ 0x7F then { s with done := true }
  else { s with done := false, eng := .pend w s.data }

/-- The reset action (70_reset_and_hazards.md R159): every field of the block to its reset value. The parameters, the
host, the turns and the model's records are not the block's (log entry 15). -/
def blockReset (s : State) : State :=
  { State.resetWith s.params with raised := s.raised, host := s.host, turns := s.turns, freeCtr := s.freeCtr }

/-- A host write to BITIN (44_stream_codec.md R114). -/
def bitinWrite (v : Word) (s : State) : State :=
  if v.getLsbD 1 then { s with eos := true }
  else if s.bitinQ.length < s.params.bitinDepth then { s with bitinQ := s.bitinQ ++ [v.getLsbD 0] }
  else raise .bitinOverflow v s

/-- A host read of BITOUT: VALID and the bit, or 0 (44_stream_codec.md R115). -/
def bitoutRead (s : State) : Word × State :=
  match s.bitoutQ with
  | [] => (0, s)
  | b :: rest => (1#1 ++ 0#30 ++ BitVec.ofBool b, { s with bitoutQ := rest })

/-- The offset of a register in the window (R22). -/
def Reg.offset : Reg → Nat
  | .id => 0x00
  | .ctrl => 0x04
  | .cmd => 0x08
  | .status => 0x0C
  | .data => 0x10
  | .result0 => 0x14
  | .result1 => 0x18
  | .bitin => 0x1C
  | .bitout => 0x20
  | .fifoStat => 0x24
  | .irqEn => 0x28
  | .treeInfo => 0x2C
  | .faultInfo => 0x30
  | .reserved34 => 0x34
  | .reserved38 => 0x38
  | .reserved3C => 0x3C

/-- The register that `off[5:2]` selects (20_memory.md R51). -/
def regOf (off : Nat) : Reg :=
  match off / 4 % 16 with
  | 0 => .id
  | 1 => .ctrl
  | 2 => .cmd
  | 3 => .status
  | 4 => .data
  | 5 => .result0
  | 6 => .result1
  | 7 => .bitin
  | 8 => .bitout
  | 9 => .fifoStat
  | 10 => .irqEn
  | 11 => .treeInfo
  | 12 => .faultInfo
  | 13 => .reserved34
  | 14 => .reserved38
  | _ => .reserved3C

/-- `RegRead`: the value returned, and the state after; only BITOUT has a side effect (R22 to R35, 20_memory.md R55). -/
def regRead (r : Reg) (s : State) : Word × State :=
  match r with
  | .id => (Config.idWord, s)
  | .ctrl => (0, s)
  | .cmd => (0, s)
  | .status => (statusWord s, s)
  | .data => (s.data, s)
  | .result0 => (s.result0, s)
  | .result1 => (s.result1, s)
  | .bitin => (0, s)
  | .bitout => bitoutRead s
  | .fifoStat => (fifoStat s, s)
  | .irqEn => (s.irqEn.setWidth 32, s)
  | .treeInfo => (treeInfo s, s)
  | .faultInfo => (faultInfoShown s, s)
  | .reserved34 => (0, s)
  | .reserved38 => (0, s)
  | .reserved3C => (0, s)

/-- `RegWrite`: the state after; a write to a read-only or reserved register is ignored (R22 to R35, 20_memory.md
R56). -/
def regWrite (r : Reg) (v : Word) (s : State) : State :=
  match r with
  | .id => s
  | .ctrl => if v.getLsbD 0 then blockReset s else s
  | .cmd => issue v s
  | .status => if v.getLsbD 1 then { s with done := false } else s
  | .data => { s with data := v }
  | .result0 => s
  | .result1 => s
  | .bitin => bitinWrite v s
  | .bitout => s
  | .fifoStat => s
  | .irqEn => { s with irqEn := v.setWidth 2 }
  | .treeInfo => s
  | .faultInfo => s
  | .reserved34 => s
  | .reserved38 => s
  | .reserved3C => s

/-- The fault of a command, as an outcome: the machine goes on with it recorded. Its info word is the command word,
which is the encoding of the command (60_exceptions.md R139, log entry 5). -/
def commandFault (k : FaultKind) (i : Instr) (s : State) : Host.Outcome State Fault Refusal :=
  .next (takeFault k (encode i) s)

end Sys2Proof.Machine
end

