-- ==== Sys2Proof/Machine/Frequency.lean ====
section
/-! DEFINITION. The frequency counter commands (41_frequency.md R82 to R87). -/

namespace Sys2Proof.Machine

/-- `keys(FREQ)`: the present symbols, ascending (R86). FREQ lists exactly those, in that order. -/
def keys (f : List (Nat × Count)) : List Nat := f.map (·.1)

/-- CLEAR_FREQ (R82). -/
def execClearFreq (s : State) : Host.Outcome State Fault Refusal :=
  .next (complete (invalidate { s with freq := [] }))

/-- COUNT s (R83). -/
def execCount (sym : Nat) (s : State) : Host.Outcome State Fault Refusal :=
  if sym > Config.pseudoEof then commandFault .badSymbol (.count sym) s
  else if (freqAt s.freq sym).toNat = Config.countMax then commandFault .countOverflow (.count sym) s
  else
    let n : Count := freqAt s.freq sym + 1
    .next (completeWith n 0 (invalidate { s with freq := freqPut s.freq sym n }))

/-- WRITE_FREQ s, with the DATA value latched at issue (R84). The overflow arm is never taken, as COUNT_W = 32. -/
def execWriteFreq (sym : Nat) (s : State) : Host.Outcome State Fault Refusal :=
  if sym > Config.pseudoEof then commandFault .badSymbol (.writeFreq sym) s
  else if (latched s).toNat > Config.countMax then commandFault .countOverflow (.writeFreq sym) s
  else .next (complete (invalidate { s with freq := freqPut s.freq sym (latched s) }))

/-- READ_FREQ s (R85). -/
def execReadFreq (sym : Nat) (s : State) : Host.Outcome State Fault Refusal :=
  if sym > Config.pseudoEof then commandFault .badSymbol (.readFreq sym) s
  else .next (completeWith (freqAt s.freq sym) 0 s)

end Sys2Proof.Machine
end

