-- ==== Sys2Proof/Machine/TreeBuilder.lean ====
section
/-! DEFINITION. The tree builder commands (42_tree_builder.md R89 to R97). -/

namespace Sys2Proof.Machine

/-- An element of the priority queue: its key (COUNT, node index) (R90). -/
abbrev Key := Nat × Nat

/-- Lexicographic order of keys (R90). -/
def keyLess (a b : Key) : Bool := a.1 < b.1 || (a.1 == b.1 && a.2 < b.2)

/-- The least key among `m` and the listed ones. -/
def leastKey : Key → List Key → Key
  | m, [] => m
  | m, x :: xs => leastKey (if keyLess x m then x else m) xs

/-- `PQ.extractMin()`: the element of least key, and PQ without it (R90); none when PQ is empty. -/
def extractMin : List Key → Option (Key × List Key)
  | [] => none
  | x :: xs => some (leastKey x xs, (x :: xs).erase (leastKey x xs))

/-- The leaf of a present symbol (R91). -/
def leafNode (e : Nat × Count) : Node :=
  { leaf := true, sym := BitVec.ofNat 9 e.1, count := e.2, zero := Config.noChild, one := Config.noChild }

/-- The internal node over A, dequeued first, and B: `zero` child A, `one` child B, count the exact sum, which fits
since the total does (R91, R92, R97). -/
def mergeNode (a b : Key) : Node :=
  { leaf := false, sym := Config.notAChar, count := BitVec.ofNat 32 (a.1 + b.1), zero := BitVec.ofNat 10 a.2,
    one := BitVec.ofNat 10 b.2 }

/-- The merges of R91, at most `fuel` of them, the next node going to index `n`: the internal nodes in merge order.
One merge takes one element off PQ in all, so `|PQ|` is fuel enough. -/
def merges : (fuel n : Nat) → List Key → List Node
  | 0, _, _ => []
  | fuel + 1, n, pq =>
    match extractMin pq with
    | none => []
    | some (a, pq1) =>
      match extractMin pq1 with
      | none => []
      | some (b, pq2) => mergeNode a b :: merges fuel (n + 1) ((a.1 + b.1, n) :: pq2)

/-- PQ once every leaf is inserted: leaf n has index n (R91). -/
def leafKeys : (n : Nat) → List (Nat × Count) → List Key
  | _, [] => []
  | n, e :: rest => (e.2.toNat, n) :: leafKeys (n + 1) rest

/-- NODE[0..NODES-1] as BUILD_TREE writes it: the leaves in ascending symbol order, then the internal nodes in merge
order (R91, R93). -/
def arena (f : List (Nat × Count)) : List Node :=
  f.map leafNode ++ merges f.length f.length (leafKeys 0 f)

/-- `sum over s in K of FREQ[s]` (R91). -/
def totalCount (f : List (Nat × Count)) : Nat := (f.map fun e => e.2.toNat).sum

/-- BUILD_TREE (R91). -/
def execBuildTree (s : State) : Host.Outcome State Fault Refusal :=
  if (keys s.freq).length = 0 then commandFault .emptyTable .buildTree s
  else if totalCount s.freq > Config.countMax then commandFault .countOverflow .buildTree s
  else
    let ns := arena s.freq
    let root := BitVec.ofNat 10 (ns.length - 1)
    let nodes := BitVec.ofNat 10 ns.length
    let total : Count := match ns.getLast? with | some x => x.count | none => 0
    .next (completeWith total (treeWord nodes root)
      { s with node := ns, root := root, nodes := nodes, treeValid := true, codesValid := false })

/-- READ_NODE i (R95). -/
def execReadNode (idx : Nat) (s : State) : Host.Outcome State Fault Refusal :=
  if s.treeValid = false then commandFault .noTree (.readNode idx) s
  else if idx ≥ s.nodes.toNat then commandFault .badIndex (.readNode idx) s
  else
    match nodeAt s idx with
    | some x => .next (completeWith x.count (nodeWord x) s)
    | none => .fault (.nodeIndex idx)

end Sys2Proof.Machine
end

