-- ==== Sys2Proof/Machine/CodeTable.lean ====
section
/-! DEFINITION. The code-table generator commands (43_code_table.md R98 to R103). -/

namespace Sys2Proof.Machine

/-- `walk(m, len, path)` of R99 over the entries `look` of the arena, adding to the table `t`. None when the walk
leaves the arena, meets a leaf whose SYM is no symbol, or uses up `fuel`: it is then no walk of a tree (log entry 9). -/
def walk (look : Nat → Option Node) : (fuel m len : Nat) → BitVec 256 → List (Nat × Code) → Option (List (Nat × Code))
  | 0, _, _, _, _ => none
  | fuel + 1, m, len, path, t =>
    match look m with
    | none => none
    | some x =>
      if x.leaf then
        if x.sym.toNat < Config.nsym then
          some (Table.put t x.sym.toNat { valid := true, len := BitVec.ofNat 9 len, path := path })
        else none
      else
        match walk look fuel x.zero.toNat (len + 1) path t with
        | none => none
        | some t' => walk look fuel x.one.toNat (len + 1) (path ||| (1#256 <<< len)) t'

/-- CODE as GEN_CODES writes it: every entry cleared, then the walk from ROOT (R99). A tree of NODE_MAX entries is
less than NODE_MAX deep. -/
def codeTable (s : State) : Option (List (Nat × Code)) := walk (nodeAt s) Config.nodeMax s.root.toNat 0 0 []

/-- `number of t with CODE[t].VALID = 1` (R99). -/
def codeCount (t : List (Nat × Code)) : Nat := (t.filter fun e => e.2.valid).length

/-- `max over t with CODE[t].VALID = 1 of CODE[t].LEN` (R99). -/
def longestCode (t : List (Nat × Code)) : Nat := (t.map fun e => if e.2.valid then e.2.len.toNat else 0).foldr max 0

/-- GEN_CODES (R99). -/
def execGenCodes (s : State) : Host.Outcome State Fault Refusal :=
  if s.treeValid = false then commandFault .noTree .genCodes s
  else
    match codeTable s with
    | none => .fault .notATree
    | some t =>
      .next (completeWith (BitVec.ofNat 32 (codeCount t)) (BitVec.ofNat 32 (longestCode t))
        { s with code := t, codesValid := true })

/-- READ_CODE s, k (R101). -/
def execReadCode (sym word : Nat) (s : State) : Host.Outcome State Fault Refusal :=
  if sym > Config.pseudoEof then commandFault .badSymbol (.readCode sym word) s
  else if s.codesValid = false then commandFault .noCodes (.readCode sym word) s
  else
    match codeAt s sym with
    | some c => .next (completeWith (codeWord c) (pathWord c.path word) s)
    | none => .fault (.codeIndex sym)

end Sys2Proof.Machine
end

