-- ==== Sys2Proof/Machine/StreamCodec.lean ====
section
/-! DEFINITION. The stream codec commands and their bit steps (44_stream_codec.md R104 to R113). -/

namespace Sys2Proof.Machine

/-- ENCODE s, its decode step (R106). -/
def execEncode (sym : Nat) (s : State) : Host.Outcome State Fault Refusal :=
  if sym > Config.pseudoEof then commandFault .badSymbol (.encode sym) s
  else if s.codesValid = false then commandFault .noCodes (.encode sym) s
  else
    match codeAt s sym with
    | none => .fault (.codeIndex sym)
    | some c =>
      if c.valid = false then commandFault .keyNotFound (.encode sym) s
      else if c.len = 0 then .next (completeWith 0 0 s)
      else .next { s with eng := .enc sym 0 }

/-- The ENCODE bit step in ENC(s, k) (R107): with BITOUT_Q full the engine holds, and nothing changes. -/
def encodeBit (sym k : Nat) (s : State) : Host.Outcome State Fault Refusal :=
  match codeAt s sym with
  | none => .fault (.codeIndex sym)
  | some c =>
    if s.bitoutQ.length < s.params.bitoutDepth then
      let s1 := { s with bitoutQ := s.bitoutQ ++ [c.path.getLsbD k] }
      if k + 1 = c.len.toNat then .next (completeWith (c.len.setWidth 32) 0 s1)
      else .next { s1 with eng := .enc sym (k + 1) }
    else .next s

/-- DECODE, its decode step: the cursor starts at the root (R110). -/
def execDecode (s : State) : Host.Outcome State Fault Refusal :=
  if s.treeValid = false then commandFault .noTree .decode s
  else .next { s with eng := .dec s.root 0 }

/-- KIND of the symbol of a leaf: EOF for the sentinel, else BYTE (R111, R112). -/
def kindOf (sym : BitVec 9) : Kind := if sym.toNat = Config.pseudoEof then .eof else .byte

/-- The DECODE cursor step in DEC(c, n) (R111): a leaf completes, a bit moves the cursor, exhaustion completes with
TRUNC, and otherwise the engine holds and nothing changes. -/
def decodeBit (c : BitVec 10) (n : Nat) (s : State) : Host.Outcome State Fault Refusal :=
  match nodeAt s c.toNat with
  | none => .fault (.nodeIndex c.toNat)
  | some x =>
    if x.leaf then .next (completeWith (decodeWord (kindOf x.sym) x.sym) (BitVec.ofNat 32 n) s)
    else
      match s.bitinQ with
      | b :: rest => .next { s with bitinQ := rest, eng := .dec (if b then x.one else x.zero) (n + 1) }
      | [] =>
        if s.eos then .next (completeWith (decodeWord .trunc 0) (BitVec.ofNat 32 n) s)
        else .next s

/-- STREAM_RESET (R113). -/
def execStreamReset (s : State) : Host.Outcome State Fault Refusal :=
  .next (complete (emptyStreams s))

end Sys2Proof.Machine
end

