-- ==== Sys2Proof/Machine/Control.lean ====
section
/-! DEFINITION. The control commands (45_control.md R118, R119). CTRL.SRST is a register write (R120): `regWrite`. -/

namespace Sys2Proof.Machine

/-- NOP (R118). -/
def execNop (s : State) : Host.Outcome State Fault Refusal := .next (complete s)

/-- CLEAR_FAULT, the return from a fault (R119). -/
def execClearFault (s : State) : Host.Outcome State Fault Refusal := .next (complete (clearRecord s))

end Sys2Proof.Machine
end

