-- ==== Sys2Proof/Machine/Dispatch.lean ====
section
/-! DEFINITION. One arm per command (30_encoding.md R72): its meaning, once the decode step of 10_state.md R45 has
accepted it. -/

namespace Sys2Proof.Machine

def exec (i : Instr) (s : State) : Host.Outcome State Fault Refusal :=
  match i with
  | .nop => Sys2Proof.Machine.execNop s
  | .clearFreq => Sys2Proof.Machine.execClearFreq s
  | .count sym => Sys2Proof.Machine.execCount sym s
  | .writeFreq sym => Sys2Proof.Machine.execWriteFreq sym s
  | .readFreq sym => Sys2Proof.Machine.execReadFreq sym s
  | .buildTree => Sys2Proof.Machine.execBuildTree s
  | .readNode idx => Sys2Proof.Machine.execReadNode idx s
  | .genCodes => Sys2Proof.Machine.execGenCodes s
  | .readCode sym word => Sys2Proof.Machine.execReadCode sym word s
  | .encode sym => Sys2Proof.Machine.execEncode sym s
  | .decode => Sys2Proof.Machine.execDecode s
  | .streamReset => Sys2Proof.Machine.execStreamReset s
  | .clearFault => Sys2Proof.Machine.execClearFault s

end Sys2Proof.Machine
end

