-- ==== Sys2Proof/Machine/Engine.lean ====
section
/-! DEFINITION. The engine step: what the engine does in each form of ENG (10_state.md R42, R45). -/

namespace Sys2Proof.Machine

/-- The decode step of PEND(w, d): an illegal word raises ILLEGAL_CMD and completes, a legal one executes (R45). -/
def decodeStep (w : Word) (s : State) : Host.Outcome State Fault Refusal :=
  match decode w with
  | .ok i => exec i s
  | .error _ => .next (takeFault .illegalCmd w s)

/-- One engine step; where the engine has no enabled step nothing changes (log entry 6). -/
def engineStep (s : State) : Host.Outcome State Fault Refusal :=
  match s.eng with
  | .idle => .next s
  | .pend w _ => decodeStep w s
  | .enc sym k => encodeBit sym k s
  | .dec c n => decodeBit c n s

end Sys2Proof.Machine
end

