-- ==== Sys2Proof/Machine/Header.lean ====
section
/-! DEFINITION. The textual header (46_host_sequences.md R131 to R134): the bytes `serialize` writes for a list of
pairs, and the parser, which refuses every byte sequence outside the grammar of R131. -/

namespace Sys2Proof.Machine

/-- ASCII of the grammar's punctuation (R131). -/
def chOpen : Byte := 0x7B#8
def chClose : Byte := 0x7D#8
def chComma : Byte := 0x2C#8
def chSpace : Byte := 0x20#8
def chColon : Byte := 0x3A#8

/-- The decimal digit of `d < 10`. -/
def digit (d : Nat) : Byte := BitVec.ofNat 8 (0x30 + d)

/-- The decimal digits of `n`, most significant first, none leading zero (R131); `fuel` above `n` is enough. -/
def decimalDigits : (fuel n : Nat) → List Byte
  | 0, _ => []
  | fuel + 1, n => if n < 10 then [digit n] else decimalDigits fuel (n / 10) ++ [digit (n % 10)]

/-- `decimal(n)` (R132). -/
def decimal (n : Nat) : List Byte := decimalDigits (n + 1) n

/-- `pair ::= number ":" number` (R131). -/
def renderPair (p : Nat × Nat) : List Byte := decimal p.1 ++ chColon :: decimal p.2

/-- The pairs joined by a comma and a space, no trailing separator (R131). -/
def renderPairs : List (Nat × Nat) → List Byte
  | [] => []
  | [p] => renderPair p
  | p :: q :: rest => renderPair p ++ chComma :: chSpace :: renderPairs (q :: rest)

/-- The header of a list of pairs (R132). -/
def renderHeader (ps : List (Nat × Nat)) : List Byte := chOpen :: (renderPairs ps ++ [chClose])

/-- The value of a decimal digit. -/
def digitValue (b : Byte) : Option Nat :=
  if 0x30 ≤ b.toNat ∧ b.toNat ≤ 0x39 then some (b.toNat - 0x30) else none

/-- The value of digits after the value `acc` of those before them. -/
def digitsValue : (acc : Nat) → List Byte → Option Nat
  | acc, [] => some acc
  | acc, b :: rest =>
    match digitValue b with
    | some d => digitsValue (10 * acc + d) rest
    | none => none

/-- `number ::= "0" | nonzero-digit digit*` (R131). -/
def numberValue : List Byte → Option Nat
  | [] => none
  | [b] => digitValue b
  | b :: b' :: rest => if b = digit 0 then none else digitsValue 0 (b :: b' :: rest)

/-- `split(body, ", ")` (R133). -/
def splitPairs : List Byte → List (List Byte)
  | [] => [[]]
  | [b] => [[b]]
  | b :: c :: rest =>
    if b = chComma ∧ c = chSpace then [] :: splitPairs rest
    else
      match splitPairs (c :: rest) with
      | [] => [[b]]
      | p :: ps => (b :: p) :: ps

/-- `split_once(p, ":")` (R133). -/
def splitColon : List Byte → Option (List Byte × List Byte)
  | [] => none
  | b :: rest =>
    if b = chColon then some ([], rest)
    else
      match splitColon rest with
      | some (k, v) => some (b :: k, v)
      | none => none

/-- One pair, none when it is outside the grammar. -/
def parsePair (p : List Byte) : Option (Nat × Nat) :=
  match splitColon p with
  | none => none
  | some (k, v) =>
    match numberValue k, numberValue v with
    | some x, some y => some (x, y)
    | _, _ => none

/-- Every pair, none when one is outside the grammar. -/
def parsePairs : List (List Byte) → Option (List (Nat × Nat))
  | [] => some []
  | p :: rest =>
    match parsePair p, parsePairs rest with
    | some x, some xs => some (x :: xs)
    | _, _ => none

/-- `parse(H)` (R133), none for every H outside the grammar of R131 (R134). -/
def parseHeader : List Byte → Option (List (Nat × Nat))
  | [] => none
  | b :: rest =>
    if b = chOpen ∧ rest.getLast? = some chClose then
      if rest.dropLast = [] then some [] else parsePairs (splitPairs rest.dropLast)
    else none

end Sys2Proof.Machine
end

