-- ==== Sys2Proof/Machine/HostAgent.lean ====
section
/-! DEFINITION. The host agent: one turn of a host program (46_host_sequences.md R123 to R133), whose only actions on
the block are RegRead and RegWrite (00_scope.md R13, 20_memory.md R51, R52). -/

namespace Sys2Proof.Machine

/-- The host variable `v` set to `w`. -/
def HostVar.set (v : HostVar) (w : Word) (h : HostAgent) : HostAgent :=
  match v with
  | .st => { h with st := w }
  | .x => { h with x := w }
  | .r => { h with r := w }
  | .c => { h with c := w }
  | .i => { h with i := w }

/-- The rest of the host's program. -/
def setProg (p : List HostOp) (s : State) : State := { s with host := { s.host with prog := p } }

/-- The value `w` has been read: it goes to `v` and to the record of reads. -/
def received (w : Word) (v : HostVar) (s : State) : State :=
  { s with host := v.set w { s.host with reads := w :: s.host.reads } }

/-- `RD r -> v`: the state after. -/
def hostRead (r : Reg) (v : HostVar) (s : State) : State := received (regRead r s).1 v (regRead r s).2

/-- The address lies in the window BASE..BASE+0x3F (20_memory.md R51). DESIGN CHOICE (log entry 7): an access is judged
by the address of its first byte alone. The spec does not say whether an access that starts below BASE and reaches into
the window is one to the block; here it is an access outside. -/
def inWindow (p : Params) (addr : Nat) : Bool := decide (p.base ≤ addr) && decide (addr < p.base + Config.window)

/-- A bus access. Outside the window it is no access to the block: a write does nothing here, and what a read returns
is the platform's, a free value (R35, R51, log entry 7). Inside, any width but 32 bits and any offset that is no
multiple of 4 is refused (R52). -/
def busAccess (a : Access) (s : State) : Host.Outcome State Fault Refusal :=
  match a with
  | .read addr width =>
    if inWindow s.params addr then
      if width ≠ 32 then .refused (.accessWidth width)
      else if (addr - s.params.base) % 4 ≠ 0 then .refused (.accessMisaligned (addr - s.params.base))
      else .next (hostRead (regOf (addr - s.params.base)) .x s)
    else .next (received (Config.platformRead s.freeCtr) .x { s with freeCtr := s.freeCtr + 1 })
  | .write addr width v =>
    if inWindow s.params addr then
      if width ≠ 32 then .refused (.accessWidth width)
      else if (addr - s.params.base) % 4 ≠ 0 then .refused (.accessMisaligned (addr - s.params.base))
      else .next (regWrite (regOf (addr - s.params.base)) v s)
    else .next s

/-- `EXEC i` (R125). -/
def seqExec (i : Instr) : List HostOp := [.cmd i, .poll]

/-- `EXEC i ; CHECK`. -/
def seqExecCheck (i : Instr) : List HostOp := [.cmd i, .poll, .check]

/-- `SETFREQ sym, v ; CHECK` (R125, R130). -/
def seqSetFreq (p : Nat × Nat) : List HostOp := .setData p.2 :: seqExecCheck (.writeFreq p.1)

/-- `PUTBIT b` (R125). -/
def seqPutBit (b : Bool) : List HostOp := [.wr .bitin ((BitVec.ofBool b).setWidth 32)]

/-- `ENDBITS` (R125). -/
def seqEndBits : List HostOp := [.wr .bitin 2]

/-- `GETBIT -> x` (R125). -/
def seqGetBit : List HostOp := [.rd .bitout .x]

/-- `EXEC i` of a host that waits for the interrupt, with DONE_IE = 1, and then clears DONE (R125). -/
def seqExecIrq (i : Instr) : List HostOp := [.cmd i, .waitIrq, .wr .status 2]

/-- `EMIT sym -> OUT` (R126). -/
def seqEmit (sym : Nat) : List HostOp := [.cmd (.encode sym), .emitStatus, .check]

/-- `DEC -> r, IN` (R127). -/
def seqDec : List HostOp := [.cmd .decode, .decFeed, .rd .result0 .r, .check]

/-- `serialize()` (R132). -/
def seqSerialize : List HostOp :=
  (List.range Config.nsym).flatMap (fun sym => [.cmd (.readFreq sym), .poll, .check, .readPair sym]) ++ [.renderHeader]

/-- COMPRESS(S) (R129). -/
def seqCompress (input : List Byte) : List HostOp :=
  seqExecCheck .clearFreq ++ seqExecCheck .streamReset ++ input.flatMap (fun b => seqExecCheck (.count b.toNat)) ++
    seqExecCheck (.count Config.pseudoEof) ++ seqExecCheck .buildTree ++ seqExecCheck .genCodes ++ [.serialize, .clearOut] ++
    input.flatMap (fun b => seqEmit b.toNat) ++ seqEmit Config.pseudoEof ++ [.finish]

/-- DECOMPRESS(H, IN), its header parsed (R130). -/
def seqDecompress (ps : List (Nat × Nat)) : List HostOp :=
  seqExecCheck .clearFreq ++ seqExecCheck .streamReset ++ ps.flatMap seqSetFreq ++ seqExecCheck .buildTree ++ seqDec ++ [.decTest]

/-- How a sequence that has reached its end, with `o` as its own result, has ended: a faulted state is no successful end,
it ends failed, with FAULT_CODE (70_reset_and_hazards.md R176; log entry 20). -/
def endOutcome (o : HostOutcome) (s : State) : HostOutcome := if s.fault then .failed s.faultCode else o

/-- The host after the KIND test that follows a DEC, by KIND in r (R130). -/
def afterDec (rest : List HostOp) (s : State) : HostAgent :=
  match bits s.host.r 17 16 with
  | 0 => { s.host with outBytes := s.host.outBytes ++ [s.host.r.setWidth 8], prog := seqDec ++ .decTest :: rest }
  | 1 => { s.host with outcome := endOutcome .complete s, prog := rest }
  | _ => { s.host with outcome := endOutcome .truncated s, prog := rest }

/-- One line `op` of the host's program, with `rest` after it. DESIGN CHOICE (log entry 21): a CHECK that sees FAULT = 1
ends the whole program, lines after its sequence included, where the spec says only that the sequence fails (R125); a
sequence whose last line (`finish`, `decTest`) judges it failed goes on with `rest`. -/
def hostLine (op : HostOp) (rest : List HostOp) (s : State) : Host.Outcome State Fault Refusal :=
  match op with
  | .access a => busAccess a (setProg rest s)
  | .wr r v => .next (regWrite r v (setProg rest s))
  | .rd r v => .next (hostRead r v (setProg rest s))
  | .setData v => if v < 2 ^ 32 then .next (regWrite .data (BitVec.ofNat 32 v) (setProg rest s)) else .refused .operandDoesNotFit
  | .cmd i =>
    match assemble i with
    | some w => .next (regWrite .cmd w (setProg rest s))
    | none => .refused .operandDoesNotFit
  | .poll =>
    let s1 := hostRead .status .st s
    if s1.host.st.getLsbD 0 then .next s1 else .next (setProg rest s1)
  | .waitIrq => if irq s then .next (setProg rest s) else .next s
  | .check =>
    let s1 := hostRead .status .st s
    if s1.host.st.getLsbD 2 then
      .next { s1 with host := { s1.host with prog := [], outcome := .failed (s1.host.st.extractLsb' 8 4) } }
    else .next (setProg rest s1)
  | .emitStatus => .next (hostRead .status .st (setProg (.emitDrain :: rest) s))
  | .emitDrain =>
    let s1 := hostRead .bitout .x s
    if s1.host.x.getLsbD 31 then .next { s1 with host := { s1.host with outBits := s1.host.outBits ++ [s1.host.x.getLsbD 0] } }
    else if s1.host.st.getLsbD 0 then .next (setProg (.emitStatus :: rest) s1)
    else .next (setProg rest s1)
  | .decFeed =>
    let s1 := hostRead .status .st s
    if s1.host.st.getLsbD 0 = false then .next (setProg rest s1)
    else if s1.host.st.getLsbD 5 then .next (setProg (.decSupply :: .decFeed :: rest) s1)
    else .next s1
  | .decSupply =>
    match s.host.inBits with
    | b :: bs => .next (regWrite .bitin ((BitVec.ofBool b).setWidth 32) { s with host := { s.host with prog := rest, inBits := bs } })
    | [] => .next (regWrite .bitin 2 (setProg rest s))
  | .decTest => .next { s with host := afterDec rest s }
  | .readPair sym =>
    let s1 := hostRead .result0 .c (setProg rest s)
    if s1.host.c = 0 then .next s1
    else .next { s1 with host := { s1.host with pairs := s1.host.pairs ++ [(sym, s1.host.c.toNat)] } }
  | .renderHeader => .next { s with host := { s.host with prog := rest, header := renderHeader s.host.pairs } }
  | .serialize => .next { s with host := { s.host with prog := seqSerialize ++ rest, pairs := [] } }
  | .clearOut => .next { s with host := { s.host with prog := rest, outBits := [] } }
  | .compress input => .next (setProg (seqCompress input ++ rest) s)
  | .decompress h ins =>
    match parseHeader h with
    | some ps => .next { s with host := { s.host with prog := seqDecompress ps ++ rest, inBits := ins, outBytes := [] } }
    | none => .refused .malformedHeader
  | .finish => .next { s with host := { s.host with prog := rest, outcome := endOutcome .complete s } }

/-- One turn of the host: the next line of its program; with no line left it does nothing. A second host is refused
(60_exceptions.md R154). -/
def hostTurn (s : State) : Host.Outcome State Fault Refusal :=
  if s.params.hosts > 1 then .refused (.severalHosts s.params.hosts)
  else
    match s.host.prog with
    | [] => .next s
    | op :: rest => hostLine op rest s

end Sys2Proof.Machine
end

