-- ==== Sys2Proof/Machine/Step.lean ====
section
/-! DEFINITION. One step of the machine: one turn of one agent (00_scope.md R15, R16, 20_memory.md R57, R62). -/

namespace Sys2Proof.Machine

/-- The agent whose turn it is: the next one listed in `turns`; with none listed, the engine whenever it has an
enabled step, else the host, which is weakly fair (70_reset_and_hazards.md R175; log entry 1). -/
def nextAgent (s : State) : Agent :=
  match s.turns with
  | a :: _ => a
  | [] => if engineEnabled s then .engine else .host

/-- The turn is taken: it is no longer listed. -/
def dropTurn (s : State) : State := { s with turns := s.turns.tail }

/-- One step: a turn of the engine (R45) or of the host (R13). -/
def step (s : State) : Host.Outcome State Fault Refusal :=
  match nextAgent s with
  | .engine => engineStep (dropTurn s)
  | .host => hostTurn (dropTurn s)

/-- The command word `w` handed to the engine where it takes its next command from: issued with DATA latched, ENG =
PEND(w, DATA) (R44), and the next turn the engine's, so that the very next step decodes and runs it. It stands for
the host's write to CMD (log entry 10); bits above `nbits` are 0. -/
def State.withFetchWord (s : State) (nbits w : Nat) : State :=
  { s with eng := .pend (BitVec.ofNat 32 (w % 2 ^ nbits)) s.data, turns := .engine :: s.turns }

end Sys2Proof.Machine
end

