-- ==== Sys2Proof/Safety.lean ====
section
/-! DEFINITION. What claims are made of: the block's part of a state, runs, what a fault-free, clean and quiescent state
is (60_exceptions.md R140, 70_reset_and_hazards.md R162, R176), what a run that has ended shows (R176), and the invariant
of 10_state.md R48. -/

namespace Sys2Proof.Machine

/-- The state with everything that is not the block's set aside: two states with one `blockPart` differ only in the
host, the turns and the model's own records. -/
def State.blockPart (s : State) : State := { s with raised := [], host := .start, turns := [], freeCtr := 0 }

/-- `k` steps of `f` in a row; a stop ends the run. -/
def runFor (f : State → Host.Outcome State Fault Refusal) : Nat → State → Host.Outcome State Fault Refusal
  | 0, s => .next s
  | k + 1, s =>
    match f s with
    | .next t => runFor f k t
    | .fault e => .fault e
    | .refused r => .refused r

/-- `k` engine steps in a row (10_state.md R45). -/
def engineRun (k : Nat) (s : State) : Host.Outcome State Fault Refusal := runFor engineStep k s

/-- No fault was ever raised in the run that led here (60_exceptions.md R140): the record is never cleared, so a run
that faulted and then cleared is not fault-free. -/
def State.FaultFree (s : State) : Prop := s.raised = []

/-- A clean entry of a run (70_reset_and_hazards.md R162). -/
def State.CleanEntry (s : State) : Prop :=
  s.eng = .idle ∧ s.fault = false ∧ s.bitinQ = [] ∧ s.bitoutQ = [] ∧ s.eos = false

/-- The end of a run (70_reset_and_hazards.md R176): the host is at its last step and the engine is idle. -/
abbrev State.Quiescent (s : State) : Prop := s.host.prog = [] ∧ s.eng = .idle

/-- The block's state as a claim about a run may read it (70_reset_and_hazards.md R176): without NODE and CODE while their
valid bits are 0. -/
def State.observedBlock (s : State) : State :=
  { s.blockPart with node := if s.treeValid then s.node else [], code := if s.codesValid then s.code else [] }

/-- What a run shows when it has ended (70_reset_and_hazards.md R176). -/
inductive Observation where
  /-- The run failed, with this FAULT_CODE; nothing else of it is observed. -/
  | failed (code : BitVec 4)
  /-- The run ended without a fault: the status its sequence returned, H, OUT of COMPRESS, OUT of DECOMPRESS, and the
  block. -/
  | ended (status : HostOutcome) (header : List Byte) (outBits : List Bool) (outBytes : List Byte) (block : State)
  deriving DecidableEq, Repr

/-- The observation of a run that has come to this state (70_reset_and_hazards.md R176; log entry 20): none before the run
has ended; a run that ends with FAULT = 1, or whose last CHECK failed, shows only its FAULT_CODE. -/
def State.observation (s : State) : Option Observation :=
  if s.Quiescent then
    match endOutcome s.host.outcome s with
    | .failed code => some (.failed code)
    | o => some (.ended o s.host.header s.host.outBits s.host.outBytes s.observedBlock)
  else none

/-- The observation of the run of `k` steps from `s`; none where it stops or has not ended. -/
def runObservation (k : Nat) (s : State) : Option Observation :=
  match runFor step k s with
  | .next t => t.observation
  | _ => none

/-- A symbol with FREQ[s] not 0 (00_scope.md R18). -/
def State.Present (s : State) (sym : Nat) : Prop := freqAt s.freq sym ≠ 0

/-- `code(t)`: PATH[0], ..., PATH[LEN-1] (44_stream_codec.md R108). -/
def codeBits (c : Code) : List Bool := (List.range c.len.toNat).map c.path.getLsbD

/-- The node that a bit sequence leads to from node `m`, one edge per bit; none when an edge would leave a leaf
(44_stream_codec.md R111). -/
def follow (s : State) : (m : Nat) → List Bool → Option Nat
  | m, [] => some m
  | m, b :: bs =>
    match nodeAt s m with
    | some x => if x.leaf then none else follow s (if b then x.one.toNat else x.zero.toNat) bs
    | none => none

/-- NODE, ROOT and NODES hold the tree built from FREQ's current contents (R26, R39): FREQ is not empty, its total
fits, and the arena is the one BUILD_TREE writes. -/
structure State.TreeBuilt (s : State) : Prop where
  nonempty : s.freq ≠ []
  fits : totalCount s.freq ≤ Config.countMax
  node : s.node = arena s.freq
  nodes : s.nodes.toNat = (arena s.freq).length
  root : s.root.toNat + 1 = s.nodes.toNat

/-- The invariant (10_state.md R48, with R26 and R39 for what the valid bits mean). -/
structure State.Inv (s : State) : Prop where
  /-- The parameters are legal (R10). -/
  params : s.params.valid
  /-- FREQ keeps its canonical form: symbols 0..256 strictly rising, no zero count listed. -/
  freq : Table.wf (0 : Count) Config.nsym s.freq = true
  /-- CODES_VALID = 1 implies TREE_VALID = 1. -/
  codesNeedTree : s.codesValid = true → s.treeValid = true
  /-- TREE_VALID = 1: the arena holds the tree of FREQ. -/
  tree : s.treeValid = true → s.TreeBuilt
  /-- CODES_VALID = 1: CODE holds the code table of the current tree. -/
  codes : s.codesValid = true → codeTable s = some s.code
  bitin : s.bitinQ.length ≤ s.params.bitinDepth
  bitout : s.bitoutQ.length ≤ s.params.bitoutDepth
  /-- FAULT = 0 implies FAULT_CODE = 0 and FAULT_INFO = 0. -/
  noFault : s.fault = false → s.faultCode = 0 ∧ s.faultInfo = 0
  /-- ENG = DEC(c, n): the tree is valid and the cursor is one of its nodes. -/
  dec : ∀ c n, s.eng = .dec c n → s.treeValid = true ∧ c.toNat < s.nodes.toNat
  /-- ENG = ENC(s, k): s has a code, of more than k bits. -/
  enc : ∀ sym k, s.eng = .enc sym k →
    s.codesValid = true ∧ ∃ c, codeAt s sym = some c ∧ c.valid = true ∧ k < c.len.toNat

end Sys2Proof.Machine
end

