-- ==== Sys2Proof/Certificates/Slice0/Obligations.lean ====
section
/-! DEFINITION. The statements for the provers, taken from the numbered rules of spec/. Each docstring names the rule it
states. The states a command ends in are spelled out field by field here (`Claims.finished`, `Claims.faulted`), so that
every statement of a result is a statement of its frame as well: what is not named is unchanged. -/

open Sys2Proof Sys2Proof.Machine

namespace Sys2Proof.Claims

/-- `complete` (10_state.md R46): ENG becomes IDLE and DONE becomes 1; nothing else changes. -/
def finished (s : State) : State := { s with eng := .idle, done := true }

/-- `complete` with results: RESULT0 and RESULT1 are written in the same step. -/
def finishedWith (r0 r1 : Word) (s : State) : State := { s with eng := .idle, done := true, result0 := r0, result1 := r1 }

/-- A fault recorded (60_exceptions.md R140): FAULT is 1, code and info are those of the first fault, and the model's
record grows by this one. -/
def recorded (code : BitVec 4) (k : FaultKind) (info : Word) (s : State) : State :=
  { s with
    fault := true
    faultCode := if s.fault then s.faultCode else code
    faultInfo := if s.fault then s.faultInfo else info
    raised := (k, info) :: s.raised }

/-- A command that faults (10_state.md R46, 60_exceptions.md R141, R145): the fault record, ENG and DONE, and nothing
else. -/
def faulted (code : BitVec 4) (k : FaultKind) (info : Word) (s : State) : State := finished (recorded code k info s)

/-- The word of a format S command: `opcode | (sym << 8)` (30_encoding.md R67). -/
def wordS (opcode : Word) (sym : Nat) : Word := opcode ||| (BitVec.ofNat 32 sym <<< 8)

/-- The shape of a tree with `l` leaves (42_tree_builder.md R93), over the entries `ns` of the arena: `2l - 1` nodes,
the leaves first, one per listed symbol, then internal nodes whose children stand below them, every node but the last
the child of exactly one internal node and once. -/
structure TreeShape (f : List (Nat × Count)) (ns : List Node) : Prop where
  size : ns.length + 1 = 2 * f.length
  leaves : ∀ (i s : Nat) (c : Count), f[i]? = some (s, c) →
    ns[i]? = some (⟨true, BitVec.ofNat 9 s, c, 0x3FF#10, 0x3FF#10⟩ : Node)
  inner : ∀ (m : Nat) (x : Node), f.length ≤ m → ns[m]? = some x →
    x.leaf = false ∧ x.sym = 257#9 ∧ x.zero.toNat < m ∧ x.one.toNat < m ∧ x.zero ≠ x.one
  parent : ∀ j, j + 1 < ns.length → ∃ m : Nat, (∃ x : Node, f.length ≤ m ∧ ns[m]? = some x ∧ (x.zero.toNat = j ∨ x.one.toNat = j)) ∧
    ∀ (m' : Nat) (x' : Node), f.length ≤ m' → ns[m']? = some x' → (x'.zero.toNat = j ∨ x'.one.toNat = j) → m' = m

/-- Engine steps until the command has completed, at most `fuel` of them. -/
def untilIdle : (fuel : Nat) → State → Option State
  | 0, s => if s.eng = .idle then some s else none
  | fuel + 1, s =>
    if s.eng = .idle then some s
    else
      match engineStep s with
      | .next t => untilIdle fuel t
      | _ => none

/-- A command run from its decode step to its completion, with no host access in between. -/
def command (i : Instr) (s : State) : Option State :=
  match exec i s with
  | .next t => untilIdle 600 t
  | _ => none

/-- ENCODE of each symbol in turn (46_host_sequences.md R129). -/
def encodeAll : List Nat → State → Option State
  | [], s => some s
  | x :: xs, s =>
    match command (.encode x) s with
    | some t => encodeAll xs t
    | none => none

/-- DECODE, `n` times: the pairs (RESULT0, RESULT1) each returns (46_host_sequences.md R130). -/
def decodeAll : Nat → State → Option (List (Word × Word) × State)
  | 0, s => some ([], s)
  | n + 1, s =>
    match command .decode s with
    | some t =>
      match decodeAll n t with
      | some (rs, u) => some ((t.result0, t.result1) :: rs, u)
      | none => none
    | none => none

/-- The code bits of a symbol, none where it has no code (44_stream_codec.md R108). -/
def bitsOf (s : State) (sym : Nat) : List Bool := codeBits (Table.get Code.cleared s.code sym)

/-- The symbol has a code in the current table. -/
def HasCode (s : State) (sym : Nat) : Prop := ∃ c, codeAt s sym = some c ∧ c.valid = true

/-- The block is in its reset state (10_state.md R49), whatever the host holds. -/
def BlockIsReset (t : State) : Prop := t.blockPart = State.resetWith t.params

/-- The command that the engine is about to run in its decode step is `i`. -/
def Decoding (s : State) (i : Instr) : Prop := ∃ w d, s.eng = .pend w d ∧ decode w = .ok i

/-- COUNT_W is 32: the largest count. -/
def maxCount : Nat := 0xFFFFFFFF

/-- Every word with this OPCODE and a bit set at `lo` or above is illegal (30_encoding.md R70). -/
def ReservedAbove (opcode : BitVec 8) (lo : Nat) : Prop :=
  ∀ w : Word, w.extractLsb' 0 8 = opcode → 2 ^ lo ≤ w.toNat → decode w = .error .reservedBits

/-- COUNT of each symbol in turn (46_host_sequences.md R129). -/
def countAll : List Nat → State → Option State
  | [], s => some s
  | x :: xs, s =>
    match exec (.count x) s with
    | .next t => countAll xs t
    | _ => none

/-- The value of a host variable. -/
def valueOf : HostVar → HostAgent → Word
  | .st, h => h.st
  | .x, h => h.x
  | .r, h => h.r
  | .c, h => h.c
  | .i, h => h.i

/-- The line `op` reads register `r` into the host variable `v`, its program then being `p`, and nothing else changes but
what the read itself does to the block. -/
def ReadsInto (op : HostOp) (rest : List HostOp) (s : State) (r : Reg) (v : HostVar) (p : List HostOp) : Prop :=
  ∃ t, hostLine op rest s = .next t ∧ t.host.prog = p ∧ valueOf v t.host = (regRead r s).1 ∧
    (∀ u, u ≠ v → valueOf u t.host = valueOf u s.host) ∧ t.host.reads = (regRead r s).1 :: s.host.reads ∧
    t.host.outBits = s.host.outBits ∧ t.host.inBits = s.host.inBits ∧ t.host.outBytes = s.host.outBytes ∧
    t.host.pairs = s.host.pairs ∧ t.host.header = s.host.header ∧ t.host.outcome = s.host.outcome ∧
    t.blockPart = (regRead r s).2.blockPart ∧ t.raised = s.raised ∧ t.turns = s.turns

/-- A line that is host computation: the host becomes `h` and nothing else changes. -/
def Computes (op : HostOp) (rest : List HostOp) (s : State) (h : HostAgent) : Prop :=
  hostLine op rest s = .next { s with host := h }

/-- `EXEC i ; CHECK` (46_host_sequences.md R125). -/
def execCheck (i : Instr) : List HostOp := [.cmd i, .poll, .check]

/-- `EMIT sym -> OUT` (R126): the command, the loop, CHECK. -/
def emitLines (sym : Nat) : List HostOp := [.cmd (.encode sym), .emitStatus, .check]

/-- `DEC -> r, IN` (R127) and the test of KIND after it (R130). -/
def decLines : List HostOp := [.cmd .decode, .decFeed, .rd .result0 .r, .check, .decTest]

/-- COMPRESS(S) (R129); EOF is symbol 256. -/
def compressLines (input : List Byte) : List HostOp :=
  execCheck .clearFreq ++ execCheck .streamReset ++ input.flatMap (fun b => execCheck (.count b.toNat)) ++
    execCheck (.count 256) ++ execCheck .buildTree ++ execCheck .genCodes ++ [.serialize, .clearOut] ++
    input.flatMap (fun b => emitLines b.toNat) ++ emitLines 256 ++ [.finish]

/-- `serialize()` (R132). -/
def serializeLines : List HostOp :=
  (List.range 257).flatMap (fun sym => execCheck (.readFreq sym) ++ [.readPair sym]) ++ [.renderHeader]

/-- DECOMPRESS of a header of these pairs, before its loop (R130). -/
def decompressLines (ps : List (Nat × Nat)) : List HostOp :=
  execCheck .clearFreq ++ execCheck .streamReset ++ ps.flatMap (fun p => .setData p.2 :: execCheck (.writeFreq p.1)) ++
    execCheck .buildTree

/-- R123 to R125: the primitives and the pseudo-instructions but EMIT and DEC. Two clauses are the model's, not the
spec's: a SETFREQ value of 2^32 or more is refused (log entry 13), and a CHECK that fails ends the whole program, whatever
lines stand after its sequence (log entry 21). -/
structure PrimitiveLines (rest : List HostOp) (s : State) : Prop where
  wr : ∀ r v, hostLine (.wr r v) rest s = .next (regWrite r v (setProg rest s))
  rd : ∀ r v, ReadsInto (.rd r v) rest s r v rest
  cmd : ∀ i, i.wellFormed = true → hostLine (.cmd i) rest s = .next (regWrite .cmd (encode i) (setProg rest s))
  cmdRefused : ∀ i, i.wellFormed = false → hostLine (.cmd i) rest s = .refused .operandDoesNotFit
  data : ∀ v, v < 2 ^ 32 → hostLine (.setData v) rest s = .next (regWrite .data (BitVec.ofNat 32 v) (setProg rest s))
  dataRefused : ∀ v, 2 ^ 32 ≤ v → hostLine (.setData v) rest s = .refused .operandDoesNotFit
  pollBusy : s.eng ≠ .idle → ReadsInto .poll rest s .status .st s.host.prog
  pollDone : s.eng = .idle → ReadsInto .poll rest s .status .st rest
  irqLow : irq s = false → Computes .waitIrq rest s s.host
  irqHigh : irq s = true → Computes .waitIrq rest s { s.host with prog := rest }
  checkFails : s.fault = true → ∃ t, hostLine .check rest s = .next t ∧ t.host.prog = [] ∧
    t.host.outcome = .failed s.faultCode ∧ t.blockPart = s.blockPart
  checkPasses : s.fault = false → ReadsInto .check rest s .status .st rest

/-- R126: one turn of EMIT's loop at each of its places. A bit read is appended to OUT and the drain goes on; an empty
BITOUT ends the drain, and the loop with it if the last STATUS read saw BUSY = 0. -/
structure EmitLines (rest : List HostOp) (s : State) : Prop where
  status : ReadsInto .emitStatus rest s .status .st (.emitDrain :: rest)
  bit : ∀ b q, s.bitoutQ = b :: q → ∃ t, hostLine .emitDrain rest s = .next t ∧ t.host.prog = s.host.prog ∧
    t.host.outBits = s.host.outBits ++ [b] ∧ t.host.st = s.host.st ∧ t.blockPart = ({ s with bitoutQ := q } : State).blockPart
  again : s.bitoutQ = [] → s.host.st.getLsbD 0 = true → ReadsInto .emitDrain rest s .bitout .x (.emitStatus :: rest)
  done : s.bitoutQ = [] → s.host.st.getLsbD 0 = false → ReadsInto .emitDrain rest s .bitout .x rest

/-- R127: one turn of DEC's loop at each of its places: it ends once BUSY = 0, on HOLD it supplies the next bit of IN, or
EOS when IN is empty, and otherwise it reads STATUS again. -/
structure DecLines (rest : List HostOp) (s : State) : Prop where
  done : s.eng = .idle → ReadsInto .decFeed rest s .status .st rest
  wants : s.eng ≠ .idle → hold s = true → ReadsInto .decFeed rest s .status .st (.decSupply :: .decFeed :: rest)
  runs : s.eng ≠ .idle → hold s = false → ReadsInto .decFeed rest s .status .st s.host.prog
  bit : ∀ b bs, s.host.inBits = b :: bs → hostLine .decSupply rest s =
    .next (regWrite .bitin (if b then 1 else 0) { s with host := { s.host with prog := rest, inBits := bs } })
  endBits : s.host.inBits = [] → hostLine .decSupply rest s = .next (regWrite .bitin 2 (setProg rest s))

/-- R129 and R132: COMPRESS and serialize(), line by line. -/
structure CompressLines (rest : List HostOp) (s : State) : Prop where
  compress : ∀ input : List Byte, Computes (.compress input) rest s { s.host with prog := compressLines input ++ rest }
  serialize : Computes .serialize rest s { s.host with pairs := [], prog := serializeLines ++ rest }
  absent : ∀ sym, s.result0 = 0 → ReadsInto (.readPair sym) rest s .result0 .c rest
  pair : ∀ sym, s.result0 ≠ 0 → ∃ t, hostLine (.readPair sym) rest s = .next t ∧ t.host.prog = rest ∧
    t.host.pairs = s.host.pairs ++ [(sym, s.result0.toNat)] ∧ t.host.header = s.host.header ∧
    t.host.outBits = s.host.outBits ∧ t.blockPart = s.blockPart
  header : Computes .renderHeader rest s { s.host with prog := rest, header := renderHeader s.host.pairs }
  clearOut : Computes .clearOut rest s { s.host with prog := rest, outBits := [] }

/-- R130: DECOMPRESS, line by line, and what follows each DEC, by KIND in r; that the end is failed where FAULT = 1, which
the CHECK of DEC rules out in this sequence, is log entry 20. -/
structure DecompressLines (rest : List HostOp) (s : State) : Prop where
  decompress : ∀ h bitsIn ps, parseHeader h = some ps → 
    Computes (.decompress h bitsIn) rest s
      { s.host with inBits := bitsIn, outBytes := [], prog := decompressLines ps ++ decLines ++ rest }
  byte : s.host.r.extractLsb' 16 2 = 0 → Computes .decTest rest s
    { s.host with prog := decLines ++ rest, outBytes := s.host.outBytes ++ [s.host.r.extractLsb' 0 8] }
  eof : s.host.r.extractLsb' 16 2 = 1 → s.fault = false →
    Computes .decTest rest s { s.host with prog := rest, outcome := .complete }
  trunc : 2 ≤ (s.host.r.extractLsb' 16 2).toNat → s.fault = false →
    Computes .decTest rest s { s.host with prog := rest, outcome := .truncated }
  faulted : s.host.r.extractLsb' 16 2 ≠ 0 → s.fault = true →
    Computes .decTest rest s { s.host with prog := rest, outcome := .failed s.faultCode }

/-- R176: the end of a run. A sequence that reaches its end with FAULT = 1 has failed; a run has an observation once the
host is at its last step and ENG is IDLE, it is FAULT_CODE alone where FAULT = 1 or the last CHECK failed, else the status,
H, OUT and the block, NODE and CODE only where their valid bits are 1; and every later step keeps it. -/
structure RunEnds (rest : List HostOp) (s : State) : Prop where
  finishFaulted : s.fault = true → Computes .finish rest s { s.host with prog := rest, outcome := .failed s.faultCode }
  finish : s.fault = false → Computes .finish rest s { s.host with prog := rest, outcome := .complete }
  notYet : s.observation = none ↔ s.host.prog ≠ [] ∨ s.eng ≠ .idle
  faulted : s.host.prog = [] → s.eng = .idle → s.fault = true → s.observation = some (.failed s.faultCode)
  checked : ∀ c, s.host.prog = [] → s.eng = .idle → s.fault = false → s.host.outcome = .failed c →
    s.observation = some (.failed c)
  ended : s.host.prog = [] → s.eng = .idle → s.fault = false → (∀ c, s.host.outcome ≠ .failed c) →
    ∃ u, s.observation = some (.ended s.host.outcome s.host.header s.host.outBits s.host.outBytes u) ∧
      u = { s.blockPart with node := u.node, code := u.code } ∧
      u.node = (if s.treeValid then s.node else []) ∧ u.code = (if s.codesValid then s.code else [])
  kept : ∀ o t, s.observation = some o → step s = .next t → t.observation = some o
  goesOn : ∀ o, s.observation = some o → s.params.hosts ≤ 1 → ∃ t, step s = .next t

end Sys2Proof.Claims

open Sys2Proof.Claims

/-! ## Reset and the invariant -/

/-- 10_state.md section 5 and 70_reset_and_hazards.md section 1 (R49, R158): the reset value of every piece of state, for
every choice of the parameters, and the same values after SRST. Two clauses are the model's choice, not the spec's: which
parameters State.reset carries (log entry 2), and that an unspecified entry of NODE or CODE reads as a free value by its
index (log entry 3). -/
def Obligations.ResetLeavesTheSpecValues : Prop :=
  State.reset = State.resetWith Params.chosen ∧
  (∀ p : Params,
    (∀ sym, freqAt (State.resetWith p).freq sym = 0) ∧
    (∀ i, i < 513 → nodeAt (State.resetWith p) i = some (Config.unspecifiedNode i)) ∧
    (State.resetWith p).root = 0 ∧ (State.resetWith p).nodes = 0 ∧
    (State.resetWith p).treeValid = false ∧ (State.resetWith p).codesValid = false ∧
    (∀ sym, sym < 257 → codeAt (State.resetWith p) sym = some (Config.unspecifiedCode sym)) ∧
    (State.resetWith p).bitinQ = [] ∧ (State.resetWith p).bitoutQ = [] ∧ (State.resetWith p).eos = false ∧
    (State.resetWith p).eng = .idle ∧ busy (State.resetWith p) = false ∧ hold (State.resetWith p) = false ∧
    (State.resetWith p).done = false ∧ (State.resetWith p).fault = false ∧
    (State.resetWith p).faultCode = 0 ∧ (State.resetWith p).faultInfo = 0 ∧
    (State.resetWith p).data = 0 ∧ (State.resetWith p).result0 = 0 ∧ (State.resetWith p).result1 = 0 ∧
    (State.resetWith p).irqEn = 0 ∧ irq (State.resetWith p) = false) ∧
  (∀ s v, v.getLsbD 0 = true → BlockIsReset (regWrite .ctrl v s))

/-- The invariant of R48 holds at reset, for every legal choice of the parameters. -/
def Obligations.ResetMeetsTheInvariant : Prop := ∀ p : Params, p.valid → (State.resetWith p).Inv

/-- R48: every step, of the engine or of the host, from every state that meets the invariant gives one that meets it. -/
def Obligations.StepKeepsTheInvariant : Prop := ∀ s t : State, s.Inv → step s = .next t → t.Inv

/-- Under the invariant the engine always has an outcome within the machine: no fault of the model's own, no refusal.
So no run from reset reaches one. -/
def Obligations.EngineNeverStops : Prop := ∀ s : State, s.Inv → ∃ t, engineStep s = .next t

/-- R47: HOLD and IRQ as functions of the state, and HOLD = 1 exactly when a command is executing and the engine has no
enabled step; then an engine step changes nothing (log entry 6), and an enabled one changes ENG. -/
def Obligations.HoldIsNoEnabledStep : Prop :=
  ∀ s : State, s.Inv →
    (hold s = true ↔
      (∃ sym k, s.eng = .enc sym k ∧ s.bitoutQ.length = s.params.bitoutDepth) ∨
      (∃ c n x, s.eng = .dec c n ∧ nodeAt s c.toNat = some x ∧ x.leaf = false ∧ s.bitinQ = [] ∧ s.eos = false)) ∧
    (irq s = true ↔ (s.done = true ∧ s.irqEn.getLsbD 0 = true) ∨ (s.fault = true ∧ s.irqEn.getLsbD 1 = true)) ∧
    (hold s = true ↔ s.eng ≠ .idle ∧ engineEnabled s = false) ∧
    (engineEnabled s = false → engineStep s = .next s) ∧
    (engineEnabled s = true → ∃ t, engineStep s = .next t ∧ t.eng ≠ s.eng)

/-! ## Encoding -/

/-- R75: decoding the word of a command gives the command back, for every operand that fits its field. -/
def Obligations.DecodeOfEncodeIsTheCommand : Prop := ∀ i : Instr, i.wellFormed = true → decode (encode i) = .ok i

/-- R75: a word that decodes legally is the encoding of the command it decodes to, whose operands fit. -/
def Obligations.EncodeOfDecodeIsTheWord : Prop :=
  ∀ (w : Word) (i : Instr), decode w = .ok i → encode i = w ∧ i.wellFormed = true

/-- R72: a word is a command exactly when it selects a row of the opcode map, of that command's opcode, and no word
selects two rows. -/
def Obligations.LegalWordSelectsOneRow : Prop :=
  (∀ (w : Word) (i : Instr), decode w = .ok i → ∃ r ∈ opcodeMap, w &&& r.mask = r.matched ∧ r.opcode = i.opcode) ∧
  (∀ (w : Word) (r : OpcodeRow), r ∈ opcodeMap → w &&& r.mask = r.matched → ∃ i, decode w = .ok i ∧ i.opcode = r.opcode) ∧
  (∀ (w : Word) (r q : OpcodeRow), r ∈ opcodeMap → q ∈ opcodeMap → w &&& r.mask = r.matched → w &&& q.mask = q.matched → r = q)

/-- R76: the encoded examples of the spec decode to the commands they stand for, two of them are illegal, and COUNT 257
faults BAD_SYMBOL when executed. -/
def Obligations.SpecExamplesDecode : Prop :=
  decode 0x00000000 = .ok .nop ∧ decode 0x00000001 = .ok .clearFreq ∧ decode 0x00006102 = .ok (.count 0x61) ∧
  decode 0x00010002 = .ok (.count 256) ∧ decode 0x00006203 = .ok (.writeFreq 0x62) ∧
  decode 0x00010004 = .ok (.readFreq 256) ∧ decode 0x00000010 = .ok .buildTree ∧
  decode 0x00000611 = .ok (.readNode 6) ∧ decode 0x00020011 = .ok (.readNode 512) ∧
  decode 0x00000020 = .ok .genCodes ∧ decode 0x00010021 = .ok (.readCode 256 0) ∧
  decode 0x000E4121 = .ok (.readCode 0x41 7) ∧ decode 0x00006330 = .ok (.encode 0x63) ∧
  decode 0x00010030 = .ok (.encode 256) ∧ decode 0x00000031 = .ok .decode ∧ decode 0x00000032 = .ok .streamReset ∧
  decode 0x0000007F = .ok .clearFault ∧ decode 0x00010102 = .ok (.count 257) ∧
  decode 0x00020002 = .error .reservedBits ∧ decode 0x00000005 = .error .unassignedOpcode ∧
  (∀ s, exec (.count 257) s = .next (faulted 2 .badSymbol 0x00010102 s))

/-! ## The step -/

/-- R45: with a command pending the engine has one step. A word that selects a row of the opcode map runs that row's
command, and any but ENCODE and DECODE finishes in it; a word that selects none raises ILLEGAL_CMD and completes. -/
def Obligations.EngineDecodesThePendingWord : Prop :=
  ∀ s w d, s.eng = .pend w d →
    engineEnabled s = true ∧
    (∀ r ∈ opcodeMap, w &&& r.mask = r.matched → ∃ i, decode w = .ok i ∧ i.opcode = r.opcode ∧ engineStep s = exec i s ∧
      ((∀ sym, i ≠ .encode sym) → i ≠ .decode → ∀ t, engineStep s = .next t → t.eng = .idle)) ∧
    ((∀ r ∈ opcodeMap, w &&& r.mask ≠ r.matched) → engineStep s = .next (faulted 1 .illegalCmd w s))

/-- A step is one agent's turn. With a command pending the engine's turn runs the decoded command, or raises ILLEGAL_CMD
and completes; in ENC it is the ENCODE bit step, in DEC the DECODE cursor step, in IDLE nothing; the host's turn is the
next line of its program. Whose turn it is (the next agent listed; with none listed the engine exactly when it has an
enabled step, which 70_reset_and_hazards.md R175 allows and does not ask for), and that the turn taken is no longer listed,
is the model's choice (log entry 1). -/
def Obligations.StepRunsTheDecodedCommand : Prop :=
  ∀ s,
    (∀ w d i, nextAgent s = .engine → s.eng = .pend w d → decode w = .ok i → step s = exec i (dropTurn s)) ∧
    (∀ w d e, nextAgent s = .engine → s.eng = .pend w d → decode w = .error e →
      step s = .next (faulted 1 .illegalCmd w (dropTurn s))) ∧
    (∀ sym k, nextAgent s = .engine → s.eng = .enc sym k → step s = encodeBit sym k (dropTurn s)) ∧
    (∀ c n, nextAgent s = .engine → s.eng = .dec c n → step s = decodeBit c n (dropTurn s)) ∧
    (nextAgent s = .engine → s.eng = .idle → step s = .next (dropTurn s)) ∧
    (nextAgent s = .host → step s = hostTurn (dropTurn s)) ∧
    (∀ a ts, s.turns = a :: ts → nextAgent s = a ∧ (dropTurn s).turns = ts) ∧
    (s.turns = [] → (nextAgent s = .engine ↔ engineEnabled s = true)) ∧
    (s.turns = [] → dropTurn s = s)

/-- R44: what a CMD write does, in each of its three cases. -/
def Obligations.CmdWriteIssues : Prop :=
  ∀ s w,
    (s.eng ≠ .idle → regWrite .cmd w s = recorded 9 .busyOverrun w s) ∧
    (s.eng = .idle → s.fault = true → w.extractLsb' 0 8 ≠ 0x00#8 → w.extractLsb' 0 8 ≠ 0x7F#8 →
      regWrite .cmd w s = { s with done := true }) ∧
    (s.eng = .idle → (s.fault = false ∨ w.extractLsb' 0 8 = 0x00#8 ∨ w.extractLsb' 0 8 = 0x7F#8) →
      regWrite .cmd w s = { s with done := false, eng := .pend w s.data })

/-! ## Frequency counter -/

/-- R82: CLEAR_FREQ. -/
def Obligations.ClearFreqEmptiesTheTable : Prop :=
  encode .clearFreq = 0x00000001 ∧ ReservedAbove 0x01 8 ∧
  ∀ s, ∃ t, exec .clearFreq s = .next t ∧ (∀ sym, freqAt t.freq sym = 0) ∧
    t = finished { s with freq := t.freq, treeValid := false, codesValid := false }

/-- R83: COUNT, its two faults and its effect. -/
def Obligations.CountAddsOne : Prop :=
  (∀ sym, sym < 512 → encode (.count sym) = wordS 0x02 sym) ∧ ReservedAbove 0x02 17 ∧
  ∀ s sym,
    (256 < sym → exec (.count sym) s = .next (faulted 2 .badSymbol (encode (.count sym)) s)) ∧
    (sym ≤ 256 → (freqAt s.freq sym).toNat = maxCount →
      exec (.count sym) s = .next (faulted 4 .countOverflow (encode (.count sym)) s)) ∧
    (sym ≤ 256 → (freqAt s.freq sym).toNat ≠ maxCount →
      ∃ t, exec (.count sym) s = .next t ∧ (freqAt t.freq sym).toNat = (freqAt s.freq sym).toNat + 1 ∧
        (∀ u, u ≠ sym → freqAt t.freq u = freqAt s.freq u) ∧
        t = finishedWith (freqAt t.freq sym) 0 { s with freq := t.freq, treeValid := false, codesValid := false })

/-- R84: WRITE_FREQ stores the DATA value latched with the command; with COUNT_W = 32 it never overflows. -/
def Obligations.WriteFreqStoresLatchedData : Prop :=
  (∀ sym, sym < 512 → encode (.writeFreq sym) = wordS 0x03 sym) ∧ ReservedAbove 0x03 17 ∧
  ∀ s sym w d, s.eng = .pend w d →
    (256 < sym → exec (.writeFreq sym) s = .next (faulted 2 .badSymbol (encode (.writeFreq sym)) s)) ∧
    (sym ≤ 256 → ∃ t, exec (.writeFreq sym) s = .next t ∧ freqAt t.freq sym = d ∧
      (∀ u, u ≠ sym → freqAt t.freq u = freqAt s.freq u) ∧
      t = finished { s with freq := t.freq, treeValid := false, codesValid := false })

/-- R85: READ_FREQ; an absent symbol reads 0 and raises no fault. -/
def Obligations.ReadFreqReturnsTheCount : Prop :=
  (∀ sym, sym < 512 → encode (.readFreq sym) = wordS 0x04 sym) ∧ ReservedAbove 0x04 17 ∧
  ∀ s sym,
    (256 < sym → exec (.readFreq sym) s = .next (faulted 2 .badSymbol (encode (.readFreq sym)) s)) ∧
    (sym ≤ 256 → exec (.readFreq sym) s = .next (finishedWith (freqAt s.freq sym) 0 s))

/-- R86: keys() is the ascending scan of the present symbols, BUILD_TREE's leaves stand in that order, and the sentinel
comes last when it is present. -/
def Obligations.KeysAreThePresentSymbolsAscending : Prop :=
  ∀ f : List (Nat × Count), Table.wf (0 : Count) 257 f = true →
    (∀ (i sym : Nat), (keys f)[i]? = some sym → ∃ x : Node, (arena f)[i]? = some x ∧ x.leaf = true ∧ x.sym.toNat = sym) ∧
    keys f = (List.range 257).filter (fun s => decide (freqAt f s ≠ 0)) ∧
    (freqAt f 256 ≠ 0 → (keys f).getLast? = some 256)

/-- R87, the source's frequency accuracy: after COUNT of each symbol of a list, every count has grown by the number of
times its symbol is in the list, provided no count would overflow. -/
def Obligations.CountingPassCountsOccurrences : Prop :=
  ∀ (xs : List Nat) (s : State), (∀ x ∈ xs, x ≤ 256) → (∀ b, (freqAt s.freq b).toNat + xs.count b ≤ maxCount) →
    ∃ t, countAll xs s = some t ∧ (∀ b, (freqAt t.freq b).toNat = (freqAt s.freq b).toNat + xs.count b) ∧
      t.fault = s.fault ∧ t.raised = s.raised

/-- R87, in every step: a count of FREQ changes only by COUNT of that symbol, which adds exactly 1 and never wraps, by
WRITE_FREQ of that symbol, by CLEAR_FREQ, or by reset. -/
def Obligations.CountsChangeOnlyByTheirCommands : Prop :=
  ∀ s t sym, step s = .next t → freqAt t.freq sym ≠ freqAt s.freq sym →
    (Decoding s (.count sym) ∧ (freqAt t.freq sym).toNat = (freqAt s.freq sym).toNat + 1) ∨
    Decoding s (.writeFreq sym) ∨ (Decoding s .clearFreq ∧ freqAt t.freq sym = 0) ∨ BlockIsReset t

/-! ## Tree builder -/

/-- R91: BUILD_TREE's faults, and its result when it builds: RESULT0 is the total, RESULT1 shows NODES and ROOT, and
nothing but the tree, the valid bits, the results and completion changes. -/
def Obligations.BuildTreeFollowsItsRule : Prop :=
  encode .buildTree = 0x00000010 ∧
  ∀ s, Table.wf (0 : Count) 257 s.freq = true →
    ((∀ sym, freqAt s.freq sym = 0) → exec .buildTree s = .next (faulted 5 .emptyTable 0x00000010 s)) ∧
    ((∃ sym, freqAt s.freq sym ≠ 0) → maxCount < totalCount s.freq →
      exec .buildTree s = .next (faulted 4 .countOverflow 0x00000010 s)) ∧
    ((∃ sym, freqAt s.freq sym ≠ 0) → totalCount s.freq ≤ maxCount →
      ∃ t, exec .buildTree s = .next t ∧ TreeShape s.freq t.node ∧
        t = finishedWith (BitVec.ofNat 32 (totalCount s.freq)) (0#6 ++ t.nodes ++ 0#6 ++ t.root)
          { s with node := t.node, nodes := t.nodes, root := t.root, treeValid := true, codesValid := false } ∧
        t.nodes.toNat = 2 * s.freq.length - 1 ∧ t.root.toNat = 2 * s.freq.length - 2)

/-- R93: the shape of every valid tree, leaves in ascending symbol order, internal nodes above their children, one
parent each, and the root's count the sum of all present counts. -/
def Obligations.ValidTreeHasTheShapeOfR93 : Prop :=
  ∀ s : State, s.Inv → s.treeValid = true →
    TreeShape s.freq s.node ∧ s.nodes.toNat = 2 * s.freq.length - 1 ∧ s.root.toNat = 2 * s.freq.length - 2 ∧
    s.freq.map (·.1) = (List.range 257).filter (fun u => decide (freqAt s.freq u ≠ 0)) ∧
    (∃ x, nodeAt s s.root.toNat = some x ∧ x.count.toNat = totalCount s.freq)

/-- R90 to R92: each merge took the two least keys (COUNT, index) of the queue, the `zero` child first. In every internal
node the `zero` child's count is at most the `one` child's, and on equal counts the `zero` child has the smaller index; and
every other node that was in the queue at that merge (it stands below the internal node, and no earlier internal node has
it as a child) has a key above the `one` child's. -/
def Obligations.ZeroChildIsDequeuedFirst : Prop :=
  ∀ s : State, s.Inv → s.treeValid = true → ∀ m x a b, m < s.nodes.toNat → nodeAt s m = some x → x.leaf = false →
    nodeAt s x.zero.toNat = some a → nodeAt s x.one.toNat = some b →
    (a.count.toNat ≤ b.count.toNat ∧ (a.count = b.count → x.zero.toNat < x.one.toNat)) ∧
    ∀ j y, j < m → nodeAt s j = some y → j ≠ x.zero.toNat → j ≠ x.one.toNat →
      (∀ m' x', m' < m → nodeAt s m' = some x' → x'.leaf = false → x'.zero.toNat ≠ j ∧ x'.one.toNat ≠ j) →
      b.count.toNat < y.count.toNat ∨ (b.count = y.count ∧ x.one.toNat < j)

/-- R97: an internal count is the exact sum of its children's, and no count exceeds the root's, the total; BUILD_TREE
faults COUNT_OVERFLOW, with nothing else changed, exactly when the total does not fit. -/
def Obligations.MergeCountsAreExactSums : Prop :=
  (∀ s : State, s.Inv → s.treeValid = true →
    (∃ r, nodeAt s s.root.toNat = some r ∧ r.count.toNat = totalCount s.freq) ∧
    ∀ m x, m < s.nodes.toNat → nodeAt s m = some x →
      x.count.toNat ≤ totalCount s.freq ∧
      (x.leaf = false → ∃ a b, nodeAt s x.zero.toNat = some a ∧ nodeAt s x.one.toNat = some b ∧
        x.count.toNat = a.count.toNat + b.count.toNat)) ∧
  (∀ s : State, s.freq ≠ [] → (0xFFFFFFFF < totalCount s.freq ↔
    exec .buildTree s = .next (faulted 4 .countOverflow 0x00000010 s)))

/-- The merge takes the two least keys first: every element of the queue is at least the one extracted (R90). -/
def Obligations.ExtractMinTakesTheLeastKey : Prop :=
  (∀ pq k rest, extractMin pq = some (k, rest) →
    (k :: rest).Perm pq ∧ ∀ x ∈ pq, k.1 < x.1 ∨ (k.1 = x.1 ∧ k.2 ≤ x.2)) ∧
  (∀ pq, extractMin pq = none ↔ pq = [])

/-- R94: the tree, and with it the code table, is a function of FREQ alone: two blocks with equal FREQ build equal
arenas and generate equal codes, whatever else differs. -/
def Obligations.TreeAndCodesDependOnFreqAlone : Prop :=
  ∀ s u : State, s.freq = u.freq → s.freq ≠ [] → totalCount s.freq ≤ maxCount →
    ∃ s1 u1, exec .buildTree s = .next s1 ∧ exec .buildTree u = .next u1 ∧
      s1.node = u1.node ∧ s1.root = u1.root ∧ s1.nodes = u1.nodes ∧
      (∀ s2 u2, exec .genCodes s1 = .next s2 → exec .genCodes u1 = .next u2 → s2.code = u2.code)

/-- R95: READ_NODE and its faults, NO_TREE before BAD_INDEX. -/
def Obligations.ReadNodeReturnsTheEntry : Prop :=
  (∀ idx, idx < 1024 → encode (.readNode idx) = wordS 0x11 idx) ∧ ReservedAbove 0x11 18 ∧
  ∀ s idx, s.Inv →
    (s.treeValid = false → exec (.readNode idx) s = .next (faulted 6 .noTree (encode (.readNode idx)) s)) ∧
    (s.treeValid = true → s.nodes.toNat ≤ idx →
      exec (.readNode idx) s = .next (faulted 3 .badIndex (encode (.readNode idx)) s)) ∧
    (s.treeValid = true → s.nodes.toNat ≤ 513) ∧
    (s.treeValid = true → idx < s.nodes.toNat →
      ∃ x, s.node[idx]? = some x ∧ exec (.readNode idx) s = .next (finishedWith x.count (nodeWord x) s))

/-- R96, R112: the fields of the node word and of a DECODE result. -/
def Obligations.ResultWordLayouts : Prop :=
  (∀ x : Node,
    (nodeWord x).extractLsb' 0 9 = x.sym ∧ (nodeWord x).extractLsb' 9 10 = x.zero ∧ (nodeWord x).extractLsb' 19 10 = x.one ∧
    (nodeWord x).extractLsb' 29 2 = 0 ∧ (nodeWord x).getLsbD 31 = x.leaf ∧
    (x.leaf = true → x.zero = 0x3FF#10 → x.one = 0x3FF#10 → nodeWord x = 0x9FFFFE00#32 ||| x.sym.setWidth 32)) ∧
  (∀ (k : Kind) (sym : BitVec 9),
    (decodeWord k sym).extractLsb' 0 9 = sym ∧ (decodeWord k sym).extractLsb' 9 7 = 0 ∧
    (decodeWord k sym).extractLsb' 18 14 = 0 ∧ (decodeWord k sym).extractLsb' 16 2 ≠ 3 ∧
    ((decodeWord k sym).extractLsb' 16 2 = 0 ↔ k = .byte) ∧ ((decodeWord k sym).extractLsb' 16 2 = 1 ↔ k = .eof) ∧
    ((decodeWord k sym).extractLsb' 16 2 = 2 ↔ k = .trunc))

/-! ## Code table -/

/-- R99: GEN_CODES: NO_TREE, or the codes of the tree: every present symbol gets the path that leads from the root to
its leaf, every absent one the cleared entry; RESULT0 counts the codes and RESULT1 is the longest length. -/
def Obligations.GenCodesFollowsItsRule : Prop :=
  encode .genCodes = 0x00000020 ∧
  ∀ s : State, s.Inv →
    (s.treeValid = false → exec .genCodes s = .next (faulted 6 .noTree 0x00000020 s)) ∧
    (s.treeValid = true → ∃ t, exec .genCodes s = .next t ∧
      t = finishedWith t.result0 t.result1 { s with code := t.code, codesValid := true } ∧
      t.result0.toNat = s.freq.length ∧
      (∀ sym, sym ≤ 256 → ∃ c, codeAt t sym = some c ∧ c.len.toNat ≤ t.result1.toNat ∧
        (freqAt s.freq sym = 0 → c = { valid := false, len := 0, path := 0 }) ∧
        (freqAt s.freq sym ≠ 0 → c.valid = true ∧ (∀ k, c.len.toNat ≤ k → c.path.getLsbD k = false) ∧
          ∃ m x, follow t t.root.toNat (codeBits c) = some m ∧ nodeAt t m = some x ∧ x.leaf = true ∧ x.sym.toNat = sym)) ∧
      (∃ sym c, codeAt t sym = some c ∧ c.valid = true ∧ c.len.toNat = t.result1.toNat))

/-- R40, R100: whenever CODES_VALID = 1, exactly the present symbols have a code; and the source's prefix-freedom: of two
distinct symbols with codes, neither code begins the other. -/
def Obligations.CodesArePrefixFree : Prop :=
  ∀ s : State, s.Inv → s.codesValid = true →
    (∀ sym c, codeAt s sym = some c → (c.valid = true ↔ freqAt s.freq sym ≠ 0)) ∧
    (∀ x y c d, x ≠ y → codeAt s x = some c → codeAt s y = some d → c.valid = true → d.valid = true →
      ¬ codeBits c <+: codeBits d)

/-- R100, the Kraft sum: with two or more present symbols it is exactly 1. -/
def Obligations.KraftSumIsOne : Prop :=
  ∀ s : State, s.Inv → s.codesValid = true → 2 ≤ s.freq.length →
    (((List.range 257).map (fun u => Table.get Code.cleared s.code u)).map
      (fun c => if c.valid then 2 ^ (256 - c.len.toNat) else 0)).sum = 2 ^ 256

/-- R102: the bounds of a code's length. -/
def Obligations.CodeLengthBounds : Prop :=
  ∀ s : State, s.Inv → s.codesValid = true → ∀ sym c, codeAt s sym = some c → c.valid = true →
    c.len.toNat + 1 ≤ s.freq.length ∧ s.freq.length ≤ 257 ∧ (c.len.toNat = 0 ↔ s.freq.length = 1)

/-- R101: READ_CODE and its faults, BAD_SYMBOL before NO_CODES; a symbol without a code reads 0. -/
def Obligations.ReadCodeReturnsTheEntry : Prop :=
  (∀ sym k, sym < 512 → k < 8 → encode (.readCode sym k) = wordS 0x21 sym ||| (BitVec.ofNat 32 k <<< 17)) ∧
  ReservedAbove 0x21 20 ∧
  ∀ s sym k, s.Inv → k < 8 →
    (256 < sym → exec (.readCode sym k) s = .next (faulted 2 .badSymbol (encode (.readCode sym k)) s)) ∧
    (sym ≤ 256 → s.codesValid = false → exec (.readCode sym k) s = .next (faulted 7 .noCodes (encode (.readCode sym k)) s)) ∧
    (sym ≤ 256 → s.codesValid = true → ∃ c r0 r1, codeAt s sym = some c ∧
      exec (.readCode sym k) s = .next (finishedWith r0 r1 s) ∧
      r0.getLsbD 31 = c.valid ∧ r0.extractLsb' 9 22 = 0 ∧ r0.extractLsb' 0 9 = c.len ∧
      (∀ j, j < 32 → r1.getLsbD j = c.path.getLsbD (32 * k + j)) ∧
      (freqAt s.freq sym = 0 → r0 = 0 ∧ r1 = 0) ∧ (c.len.toNat ≤ 32 * k → r1 = 0))

/-! ## Stream codec -/

/-- R106: the decode step of ENCODE: its faults in order, the empty code, and otherwise ENC(s, 0). -/
def Obligations.EncodeFollowsItsRule : Prop :=
  (∀ sym, sym < 512 → encode (.encode sym) = wordS 0x30 sym) ∧ ReservedAbove 0x30 17 ∧
  ∀ s sym,
    (256 < sym → exec (.encode sym) s = .next (faulted 2 .badSymbol (encode (.encode sym)) s)) ∧
    (sym ≤ 256 → s.codesValid = false → exec (.encode sym) s = .next (faulted 7 .noCodes (encode (.encode sym)) s)) ∧
    (sym ≤ 256 → s.codesValid = true → ∃ c, codeAt s sym = some c ∧
      (c.valid = false → exec (.encode sym) s = .next (faulted 8 .keyNotFound (encode (.encode sym)) s)) ∧
      (c.valid = true → c.len = 0 → exec (.encode sym) s = .next (finishedWith 0 0 s)) ∧
      (c.valid = true → c.len ≠ 0 → exec (.encode sym) s = .next { s with eng := .enc sym 0 }))

/-- R107: the ENCODE bit step pushes PATH[k]; after the last bit it completes with RESULT0 = LEN; with BITOUT_Q full it
holds. The spec says that the engine then has no step; that an engine turn in a hold answers the same state is the model's
choice (log entry 6). -/
def Obligations.EncodeBitPushesOneBit : Prop :=
  ∀ s sym k c, s.eng = .enc sym k → codeAt s sym = some c →
    (s.bitoutQ.length < s.params.bitoutDepth → k + 1 = c.len.toNat →
      engineStep s = .next (finishedWith (c.len.setWidth 32) 0 { s with bitoutQ := s.bitoutQ ++ [c.path.getLsbD k] })) ∧
    (s.bitoutQ.length < s.params.bitoutDepth → k + 1 ≠ c.len.toNat →
      engineStep s = .next { s with bitoutQ := s.bitoutQ ++ [c.path.getLsbD k], eng := .enc sym (k + 1) }) ∧
    (s.bitoutQ.length = s.params.bitoutDepth → engineStep s = .next s ∧ hold s = true)

/-- R108: completed ENCODE commands append their codes to BITOUT_Q in order; each completes, given room. -/
def Obligations.EncodesConcatenateTheirCodes : Prop :=
  ∀ (s : State) (xs : List Nat), s.Inv → s.codesValid = true → (∀ x ∈ xs, HasCode s x) →
    s.bitoutQ.length + (xs.flatMap (bitsOf s)).length ≤ s.params.bitoutDepth → s.eng = .idle →
    ∃ t, encodeAll xs s = some t ∧ t.bitoutQ = s.bitoutQ ++ xs.flatMap (bitsOf s) ∧ t.eng = .idle ∧
      t.fault = s.fault ∧ t.freq = s.freq ∧ t.node = s.node ∧ t.code = s.code ∧ t.bitinQ = s.bitinQ

/-- R110: the decode step of DECODE: NO_TREE, or the cursor at the root. -/
def Obligations.DecodeStartsAtTheRoot : Prop :=
  encode .decode = 0x00000031 ∧ ReservedAbove 0x31 8 ∧
  ∀ s,
    (s.treeValid = false → exec .decode s = .next (faulted 6 .noTree 0x00000031 s)) ∧
    (s.treeValid = true → exec .decode s = .next { s with eng := .dec s.root 0 })

/-- R111: the DECODE cursor step in each of its cases. The spec says that a held engine has no step; that an engine turn
in a hold answers the same state is the model's choice (log entry 6), and so is n as a natural number that RESULT1 shows
cut to 32 bits (log entry 19, which never cuts anything in a state that meets the invariant). -/
def Obligations.DecodeCursorStep : Prop :=
  ∀ s c n x, s.eng = .dec c n → nodeAt s c.toNat = some x →
    (x.leaf = true → x.sym = 256#9 →
      engineStep s = .next (finishedWith (0#14 ++ 1#2 ++ 0#7 ++ x.sym) (BitVec.ofNat 32 n) s)) ∧
    (x.leaf = true → x.sym ≠ 256#9 →
      engineStep s = .next (finishedWith (0#14 ++ 0#2 ++ 0#7 ++ x.sym) (BitVec.ofNat 32 n) s)) ∧
    (∀ b rest, x.leaf = false → s.bitinQ = b :: rest →
      engineStep s = .next { s with bitinQ := rest, eng := .dec (if b then x.one else x.zero) (n + 1) }) ∧
    (x.leaf = false → s.bitinQ = [] → s.eos = true →
      engineStep s = .next (finishedWith 0x00020000#32 (BitVec.ofNat 32 n) s)) ∧
    (x.leaf = false → s.bitinQ = [] → s.eos = false → engineStep s = .next s ∧ hold s = true)

/-- R116: the round trip. With FREQ holding the symbols of S and the sentinel and its codes generated, ENCODE of S and
then of the sentinel, into an empty BITOUT_Q with room, gives bits B. A block with an equal FREQ and its tree built,
with B in BITIN_Q and EOS set, returns the symbols of S in order as BYTE results and then EOF, consuming |B| bits. -/
def Obligations.DecodeUndoesEncode : Prop :=
  ∀ (s u : State) (xs : List Nat), s.Inv → u.Inv → s.codesValid = true → u.treeValid = true → s.freq = u.freq →
    (∀ x ∈ xs, x < 256 ∧ freqAt s.freq x ≠ 0) → freqAt s.freq 256 ≠ 0 → s.eng = .idle → s.bitoutQ = [] →
    ((xs ++ [256]).flatMap (bitsOf s)).length ≤ s.params.bitoutDepth →
    ∃ t rs v, encodeAll (xs ++ [256]) s = some t ∧
      (u.bitinQ = t.bitoutQ → u.eos = true →
        decodeAll (xs.length + 1) u = some (rs, v) ∧
        rs.map (·.1) = xs.map (fun x => BitVec.ofNat 32 x) ++ [0x00010100#32] ∧
        (rs.map (fun r => r.2.toNat)).sum = t.bitoutQ.length ∧ v.bitinQ = [])

/-- R113: STREAM_RESET. -/
def Obligations.StreamResetEmptiesTheStreams : Prop :=
  encode .streamReset = 0x00000032 ∧ ReservedAbove 0x32 8 ∧
  ∀ s, exec .streamReset s = .next (finished { s with bitinQ := [], bitoutQ := [], eos := false })

/-- R114: a BITIN write, at any time. -/
def Obligations.BitinWritePushesOrSetsEos : Prop :=
  ∀ s v,
    (v.getLsbD 1 = true → regWrite .bitin v s = { s with eos := true }) ∧
    (v.getLsbD 1 = false → s.bitinQ.length < s.params.bitinDepth →
      regWrite .bitin v s = { s with bitinQ := s.bitinQ ++ [v.getLsbD 0] }) ∧
    (v.getLsbD 1 = false → s.params.bitinDepth ≤ s.bitinQ.length → regWrite .bitin v s = recorded 10 .bitinOverflow v s)

/-- R115: a BITOUT read, at any time. -/
def Obligations.BitoutReadPops : Prop :=
  ∀ s,
    (s.bitoutQ = [] → regRead .bitout s = (0x00000000#32, s)) ∧
    (∀ rest, s.bitoutQ = false :: rest → regRead .bitout s = (0x80000000#32, { s with bitoutQ := rest })) ∧
    (∀ rest, s.bitoutQ = true :: rest → regRead .bitout s = (0x80000001#32, { s with bitoutQ := rest }))

/-- R174, R175: a command completes. From every state that meets the invariant, every command but ENCODE and DECODE
answers a next state in its decode step, completed; ENCODE, given room, completes after one step per code bit; DECODE, once
EOS is set, after at most one step per bit in BITIN_Q and one more. -/
def Obligations.CommandsComplete : Prop :=
  (∀ (s : State) i, s.Inv → (∀ sym, i ≠ .encode sym) → i ≠ .decode →
    ∃ t, exec i s = .next t ∧ t.eng = .idle ∧ t.done = true) ∧
  (∀ i s t, exec i s = .next t → (∀ sym, i ≠ .encode sym) → i ≠ .decode → t.eng = .idle ∧ t.done = true) ∧
  (∀ s sym c, s.Inv → s.eng = .enc sym 0 → codeAt s sym = some c →
    s.bitoutQ.length + c.len.toNat ≤ s.params.bitoutDepth →
    ∃ t, engineRun c.len.toNat s = .next t ∧ t.eng = .idle ∧ t.done = true ∧ t.bitoutQ = s.bitoutQ ++ codeBits c ∧
      ∀ k, k < c.len.toNat → ∃ u, engineRun k s = .next u ∧ u.eng = .enc sym k) ∧
  (∀ s c n, s.Inv → s.eng = .dec c n → s.eos = true →
    ∃ k t, k ≤ s.bitinQ.length + 1 ∧ engineRun k s = .next t ∧ t.eng = .idle ∧ t.done = true)

/-! ## Control, faults and registers -/

/-- R118: NOP completes and does nothing else; any other word of opcode 0x00 is illegal, and while FAULT = 1 that second
fault is not recorded; NOP is accepted while FAULT = 1. -/
def Obligations.NopOnlyCompletes : Prop :=
  encode .nop = 0x00000000 ∧
  (∀ s, exec .nop s = .next (finished s)) ∧
  ReservedAbove 0x00 8 ∧
  (∀ s w d, s.eng = .pend w d → s.fault = true → w.extractLsb' 0 8 = 0#8 → w ≠ 0 →
    ∃ t, engineStep s = .next t ∧ t.fault = true ∧ t.faultCode = s.faultCode ∧ t.faultInfo = s.faultInfo) ∧
  (∀ s, s.eng = .idle → regWrite .cmd 0x00000000 s = { s with done := false, eng := .pend 0x00000000 s.data })

/-- R119: CLEAR_FAULT clears the record and completes; any other word of opcode 0x7F is illegal, and the fault stays. -/
def Obligations.ClearFaultClearsTheRecord : Prop :=
  encode .clearFault = 0x0000007F ∧
  (∀ s, exec .clearFault s = .next (finished { s with fault := false, faultCode := 0, faultInfo := 0 })) ∧
  (∀ s : State, s.Inv → s.fault = false → exec .clearFault s = .next (finished s)) ∧
  ReservedAbove 0x7F 8 ∧
  (∀ s w d, s.eng = .pend w d → s.fault = true → w.extractLsb' 0 8 = 0x7F#8 → w ≠ 0x0000007F →
    ∃ t, engineStep s = .next t ∧ t.fault = true ∧ t.faultCode = s.faultCode ∧ t.faultInfo = s.faultInfo)

/-- R140: raising a fault keeps the first one recorded, and in every step FAULT goes back to 0 only by CLEAR_FAULT or
reset; the model's record of faults is never shortened. -/
def Obligations.FirstFaultIsKept : Prop :=
  (∀ k w s, raise k w s = recorded k.code k w s) ∧
  (∀ s t, step s = .next t → s.fault = true → t.fault = false → Decoding s .clearFault ∨ BlockIsReset t) ∧
  (∀ s t, step s = .next t → t.raised = s.raised ∨ ∃ e, t.raised = e :: s.raised)

/-- R138: the codes. R145: faults are precise: a command that raises one changes only the fault record, ENG and DONE; a
register write that raises one changes only the fault record. -/
def Obligations.FaultsArePrecise : Prop :=
  (FaultKind.code .illegalCmd = 1 ∧ FaultKind.code .badSymbol = 2 ∧ FaultKind.code .badIndex = 3 ∧
    FaultKind.code .countOverflow = 4 ∧ FaultKind.code .emptyTable = 5 ∧ FaultKind.code .noTree = 6 ∧
    FaultKind.code .noCodes = 7 ∧ FaultKind.code .keyNotFound = 8 ∧ FaultKind.code .busyOverrun = 9 ∧
    FaultKind.code .bitinOverflow = 10) ∧
  (∀ s t, engineStep s = .next t → t.raised ≠ s.raised →
    ∃ k w d, s.eng = .pend w d ∧ t = faulted (FaultKind.code k) k w s) ∧
  (∀ r v s, (regWrite r v s).raised ≠ s.raised → ∃ k, regWrite r v s = recorded k.code k v s)

/-- R28, R164: in every step RESULT0 and RESULT1 change only where a command completes, or by reset; a command that
defines no result leaves both. -/
def Obligations.ResultsChangeOnlyAtCompletion : Prop :=
  (∀ s t, step s = .next t → (t.result0 ≠ s.result0 ∨ t.result1 ≠ s.result1) →
    (s.eng ≠ .idle ∧ t.eng = .idle ∧ t.done = true ∧ t.raised = s.raised) ∨ BlockIsReset t) ∧
  (∀ i s t, (i = .nop ∨ i = .clearFreq ∨ (∃ sym, i = .writeFreq sym) ∨ i = .streamReset ∨ i = .clearFault) →
    exec i s = .next t → t.result0 = s.result0 ∧ t.result1 = s.result1)

/-- R39: in every step TREE_VALID is set only by BUILD_TREE and CODES_VALID only by GEN_CODES; they are cleared only by
CLEAR_FREQ, COUNT, WRITE_FREQ or reset, and CODES_VALID by BUILD_TREE too. -/
def Obligations.ValidBitsChangeOnlyAsR39Says : Prop :=
  ∀ s t, step s = .next t →
    (s.treeValid = false → t.treeValid = true → Decoding s .buildTree) ∧
    (s.codesValid = false → t.codesValid = true → Decoding s .genCodes ∧ t.treeValid = true) ∧
    (s.treeValid = true → t.treeValid = false →
      Decoding s .clearFreq ∨ (∃ x, Decoding s (.count x)) ∨ (∃ x, Decoding s (.writeFreq x)) ∨ BlockIsReset t) ∧
    (s.codesValid = true → t.codesValid = false →
      Decoding s .clearFreq ∨ (∃ x, Decoding s (.count x)) ∨ (∃ x, Decoding s (.writeFreq x)) ∨ Decoding s .buildTree ∨
        BlockIsReset t)

/-- R41: in every step EOS is set only by a host write and cleared only by STREAM_RESET or reset; BITIN_Q grows only at
its tail and shrinks only at its head, and so does BITOUT_Q. -/
def Obligations.StreamsKeepTheirOrder : Prop :=
  ∀ s t, step s = .next t →
    (s.eos = false → t.eos = true → nextAgent s = .host) ∧
    (s.eos = true → t.eos = false → Decoding s .streamReset ∨ BlockIsReset t) ∧
    (t.bitinQ = s.bitinQ ∨ t.bitinQ = s.bitinQ.tail ∨ (∃ b, t.bitinQ = s.bitinQ ++ [b]) ∨ Decoding s .streamReset ∨
      BlockIsReset t) ∧
    (t.bitoutQ = s.bitoutQ ∨ t.bitoutQ = s.bitoutQ.tail ∨ (∃ b, t.bitoutQ = s.bitoutQ ++ [b]) ∨ Decoding s .streamReset ∨
      BlockIsReset t)

/-- R62, R141, R160: while a command executes, a host turn leaves ENG and every table and result as they are, unless it
resets the block. -/
def Obligations.HostLeavesTheCommandAlone : Prop :=
  ∀ s t, hostTurn s = .next t → s.eng ≠ .idle →
    BlockIsReset t ∨
    (t.eng = s.eng ∧ t.freq = s.freq ∧ t.node = s.node ∧ t.root = s.root ∧ t.nodes = s.nodes ∧ t.code = s.code ∧
      t.treeValid = s.treeValid ∧ t.codesValid = s.codesValid ∧ t.result0 = s.result0 ∧ t.result1 = s.result1)

/-- 70_reset_and_hazards.md section 1 (R159, R160), 45_control.md (R120): a CTRL write with SRST = 1 resets the block at
once, in any state; with SRST = 0 it does nothing. That the host, the turns, the parameters and the model's fault record
are left as they are is the model's reading, not the rule's words (log entry 15). -/
def Obligations.SrstResetsTheBlock : Prop :=
  ∀ s v,
    (v.getLsbD 0 = false → regWrite .ctrl v s = s) ∧
    (v.getLsbD 0 = true →
      BlockIsReset (regWrite .ctrl v s) ∧ (regWrite .ctrl v s).eng = .idle ∧ (regWrite .ctrl v s).host = s.host ∧
      (regWrite .ctrl v s).raised = s.raised ∧ (regWrite .ctrl v s).params = s.params ∧
      (regWrite .ctrl v s).turns = s.turns ∧ (s.params.valid → (regWrite .ctrl v s).Inv))

/-- R22 to R35, R47, R55: what a read of each register returns, STATUS field by field, and that only a BITOUT read has a
side effect. -/
def Obligations.RegisterReads : Prop :=
  ∀ s,
    (∀ r, r ≠ .bitout → (regRead r s).2 = s) ∧
    (regRead .id s).1 = 0x48554646#32 ∧ (regRead .ctrl s).1 = 0 ∧ (regRead .cmd s).1 = 0 ∧ (regRead .bitin s).1 = 0 ∧
    (regRead .data s).1 = s.data ∧ (regRead .result0 s).1 = s.result0 ∧ (regRead .result1 s).1 = s.result1 ∧
    ((regRead .irqEn s).1.extractLsb' 0 2 = s.irqEn ∧ (regRead .irqEn s).1.extractLsb' 2 30 = 0) ∧
    (regRead .treeInfo s).1 = (if s.treeValid then 0#6 ++ s.nodes ++ 0#6 ++ s.root else 0#32) ∧
    (s.fault = false → (regRead .faultInfo s).1 = 0) ∧ (s.fault = true → (regRead .faultInfo s).1 = s.faultInfo) ∧
    (regRead .reserved34 s).1 = 0 ∧ (regRead .reserved38 s).1 = 0 ∧ (regRead .reserved3C s).1 = 0 ∧
    ((regRead .status s).1.getLsbD 0 = true ↔ s.eng ≠ .idle) ∧
    (regRead .status s).1.getLsbD 1 = s.done ∧ (regRead .status s).1.getLsbD 2 = s.fault ∧
    (regRead .status s).1.getLsbD 3 = s.treeValid ∧ (regRead .status s).1.getLsbD 4 = s.codesValid ∧
    (regRead .status s).1.getLsbD 5 = hold s ∧
    (regRead .status s).1.getLsbD 6 = ((s.done && s.irqEn.getLsbD 0) || (s.fault && s.irqEn.getLsbD 1)) ∧
    (regRead .status s).1.getLsbD 7 = false ∧
    (regRead .status s).1.extractLsb' 8 4 = (if s.fault then s.faultCode else 0) ∧
    (regRead .status s).1.extractLsb' 12 20 = 0

/-- R31: the fields of FIFO_STAT; under the invariant the levels fit their fields. -/
def Obligations.FifoStatFields : Prop :=
  ∀ s : State, s.Inv →
    (regRead .fifoStat s).2 = s ∧
    ((regRead .fifoStat s).1.extractLsb' 0 12).toNat = s.bitinQ.length ∧ (regRead .fifoStat s).1.extractLsb' 12 4 = 0 ∧
    ((regRead .fifoStat s).1.extractLsb' 16 12).toNat = s.bitoutQ.length ∧ (regRead .fifoStat s).1.extractLsb' 28 3 = 0 ∧
    (regRead .fifoStat s).1.getLsbD 31 = s.eos

/-- R22, R26, R27, R32, R56: what a write to each register but CMD, CTRL and BITIN does; a write to a read-only or
reserved register is ignored. -/
def Obligations.RegisterWrites : Prop :=
  ∀ s v,
    regWrite .data v s = { s with data := v } ∧
    regWrite .irqEn v s = { s with irqEn := v.extractLsb' 0 2 } ∧
    (v.getLsbD 1 = true → regWrite .status v s = { s with done := false }) ∧
    (v.getLsbD 1 = false → regWrite .status v s = s) ∧
    (∀ r, r ∈ [Reg.id, .result0, .result1, .bitout, .fifoStat, .treeInfo, .faultInfo, .reserved34, .reserved38, .reserved3C] →
      regWrite r v s = s)

/-- R35, R51, R52: a bus access outside the window, below it or above, does not reach the block (what a read returns there
is a free value, and that the model goes on is its choice, log entry 7); inside it, only an aligned 32-bit access has a
meaning, and it reaches the register at its offset. An access is judged by the address of its first byte: that one which
starts below BASE and reaches into the window is outside is the model's choice (log entry 7). -/
def Obligations.WindowAccess : Prop :=
  ∀ s off width v,
    (off < 0x40 → width ≠ 32 → ∃ r, busAccess (.write (s.params.base + off) width v) s = .refused r) ∧
    (off < 0x40 → width ≠ 32 → ∃ r, busAccess (.read (s.params.base + off) width) s = .refused r) ∧
    (off < 0x40 → off % 4 ≠ 0 → ∃ r, busAccess (.write (s.params.base + off) width v) s = .refused r) ∧
    (off < 0x40 → off % 4 ≠ 0 → ∃ r, busAccess (.read (s.params.base + off) width) s = .refused r) ∧
    (∀ addr, addr < s.params.base → busAccess (.write addr width v) s = .next s) ∧
    (∀ addr, addr < s.params.base → ∃ t, busAccess (.read addr width) s = .next t ∧ t.blockPart = s.blockPart) ∧
    (0x40 ≤ off → busAccess (.write (s.params.base + off) width v) s = .next s) ∧
    (0x40 ≤ off → ∃ t, busAccess (.read (s.params.base + off) width) s = .next t ∧ t.blockPart = s.blockPart) ∧
    (∀ r : Reg, busAccess (.write (s.params.base + r.offset) 32 v) s = .next (regWrite r v s)) ∧
    (∀ r : Reg, ∃ t, busAccess (.read (s.params.base + r.offset) 32) s = .next t ∧
      t.host.x = (regRead r s).1 ∧ t.blockPart = (regRead r s).2.blockPart)

/-- R13, R62: whatever program the host runs, one turn of it is at most one register read or one register write. -/
def Obligations.HostActsThroughRegisters : Prop :=
  ∀ s t, hostTurn s = .next t →
    t.blockPart = s.blockPart ∨ (∃ r, t.blockPart = (regRead r s).2.blockPart) ∨
    (∃ r v, t.blockPart = (regWrite r v s).blockPart)

/-- The frame of every command: what belongs to the host, and DATA, IRQ_EN and the parameters, no command changes; and
no step changes the parameters. -/
def Obligations.CommandsLeaveTheHostSideAlone : Prop :=
  (∀ i s t, exec i s = .next t →
    t.data = s.data ∧ t.irqEn = s.irqEn ∧ t.host = s.host ∧ t.turns = s.turns ∧ t.freeCtr = s.freeCtr ∧ t.params = s.params) ∧
  (∀ s t, step s = .next t → t.params = s.params)

/-- R123 to R130, R132, R154, R176: the lines of a host program: the primitives, EMIT and DEC turn by turn, COMPRESS,
serialize() and DECOMPRESS line by line, how a run ends and what it then shows. A host turn runs the line at the head of
the program, and with no line left it does nothing; a second host is refused. The model's choices in it: one line per turn
(log entry 12), the refusal of a SETFREQ value of 2^32 or more (log entry 13), how the end is judged (log entry 20), and
that a failed CHECK ends the whole program (log entry 21). -/
def Obligations.HostLinesFollowTheirRules : Prop :=
  ∀ rest s,
    PrimitiveLines rest s ∧ EmitLines rest s ∧ DecLines rest s ∧ CompressLines rest s ∧ DecompressLines rest s ∧
    RunEnds rest s ∧
    (∀ op, s.params.hosts ≤ 1 → s.host.prog = op :: rest → hostTurn s = hostLine op rest s) ∧
    (s.params.hosts ≤ 1 → s.host.prog = [] → hostTurn s = .next s) ∧
    (1 < s.params.hosts → hostTurn s = .refused (.severalHosts s.params.hosts))

/-- R133: parsing what serialize writes gives the pairs back, for every list of pairs; R134: DECOMPRESS refuses a header
that does not parse. -/
def Obligations.HeaderRoundTrip : Prop :=
  (∀ ps : List (Nat × Nat), parseHeader (renderHeader ps) = some ps) ∧
  (∀ h ins rest s, parseHeader h = none → hostLine (.decompress h ins) rest s = .refused .malformedHeader)

/-- R131: every header that parses is one of the grammar: rendering its pairs gives the header back. -/
def Obligations.ParsedHeadersAreOfTheGrammar : Prop :=
  ∀ (h : List Byte) (ps : List (Nat × Nat)), parseHeader h = some ps → renderHeader ps = h
end

