-- ==== Sys2Proof/Laws/Tables.lean ====
section
/-! SUPPORT. The laws of the sparse tables that hold FREQ and CODE: read after write, the canonical form is kept, and
what the canonical form says. -/

namespace Sys2Proof.Machine

namespace Table

variable {α : Type}

/-- Read after write. -/
theorem get_put (d : α) (t : List (Nat × α)) (k j : Nat) (v : α) :
    get d (put t k v) j = if j = k then v else get d t j := by
  induction t with
  | nil => simp [put, get, eq_comm]
  | cons e rest ih =>
    obtain ⟨i, u⟩ := e
    by_cases h1 : k < i
    · simp only [put, if_pos h1, get, eq_comm]
    · by_cases h2 : i = k
      · subst h2
        simp only [put, if_neg h1, if_true, get]
        by_cases hj : j = i
        · simp [hj]
        · have : i ≠ j := fun h => hj h.symm
          simp [hj, this]
      · simp only [put, if_neg h1, if_neg h2, get, ih]
        by_cases hj : j = k
        · have : i ≠ j := by omega
          simp [hj, h2]
        · simp [hj]

/-- Read after unlisting. -/
theorem get_drop (d : α) (t : List (Nat × α)) (k j : Nat) :
    get d (drop t k) j = if j = k then d else get d t j := by
  induction t with
  | nil => simp [drop, get]
  | cons e rest ih =>
    obtain ⟨i, u⟩ := e
    by_cases h : i = k
    · subst h
      by_cases hj : j = i
      · subst hj; simpa [drop] using ih
      · have : i ≠ j := fun h => hj h.symm
        simp [drop, ih, hj, get, this]
    · by_cases hj : j = k
      · have : i ≠ j := by omega
        subst hj; simpa [drop, h, get] using ih
      · simp [drop, h, get, ih, hj]

/-- Every key that `put` lists was listed or is the key written. -/
theorem mem_put {t : List (Nat × α)} {k : Nat} {v : α} {e : Nat × α} (h : e ∈ put t k v) : e = (k, v) ∨ e ∈ t := by
  induction t with
  | nil => simpa [put] using h
  | cons f rest ih =>
    obtain ⟨i, u⟩ := f
    simp only [put] at h
    split at h
    · simpa using h
    · split at h
      · rcases List.mem_cons.mp h with h | h
        · exact .inl h
        · exact .inr (.tail _ h)
      · rcases List.mem_cons.mp h with h | h
        · exact .inr (h ▸ .head _)
        · exact (ih h).imp id (.tail _)

theorem mem_drop {t : List (Nat × α)} {k : Nat} {e : Nat × α} (h : e ∈ drop t k) : e ∈ t := by
  induction t with
  | nil => simp [drop] at h
  | cons f rest ih =>
    obtain ⟨i, u⟩ := f
    simp only [drop] at h
    split at h
    · exact .tail _ (ih h)
    · rcases List.mem_cons.mp h with h | h
      · exact h ▸ .head _
      · exact .tail _ (ih h)

/-- A key that does not read as the default is listed with what it reads as. -/
theorem mem_of_get {d : α} {t : List (Nat × α)} {k : Nat} (h : get d t k ≠ d) : (k, get d t k) ∈ t := by
  induction t with
  | nil => simp [get] at h
  | cons f rest ih =>
    obtain ⟨i, u⟩ := f
    by_cases hik : i = k
    · subst hik; simp [get]
    · simp only [get, if_neg hik] at h ⊢
      exact .tail _ (ih h)

variable [DecidableEq α]

theorem wf_cons {d : α} {n j : Nat} {v : α} {rest : List (Nat × α)} :
    wf d n ((j, v) :: rest) = true ↔
      j < n ∧ v ≠ d ∧ (∀ e ∈ rest, j < e.1) ∧ wf d n rest = true := by
  simp [wf, and_assoc]

/-- A write keeps the canonical form. -/
theorem wf_put {d : α} {n : Nat} {t : List (Nat × α)} (h : wf d n t = true) {k : Nat} {v : α} (hk : k < n) (hv : v ≠ d) :
    wf d n (put t k v) = true := by
  induction t with
  | nil => simp [put, wf, hk, hv]
  | cons f rest ih =>
    obtain ⟨i, u⟩ := f
    obtain ⟨hi, hu, hlt, hrest⟩ := wf_cons.mp h
    simp only [put]
    split
    · refine wf_cons.mpr ⟨hk, hv, ?_, h⟩
      rintro e he
      rcases List.mem_cons.mp he with rfl | he
      · assumption
      · have := hlt e he; omega
    · split
      · subst_vars; exact wf_cons.mpr ⟨hk, hv, hlt, hrest⟩
      · refine wf_cons.mpr ⟨hi, hu, ?_, ih hrest⟩
        intro e he
        rcases mem_put he with rfl | he
        · show i < k; omega
        · exact hlt e he

/-- Unlisting keeps the canonical form. -/
theorem wf_drop {d : α} {n : Nat} {t : List (Nat × α)} (h : wf d n t = true) (k : Nat) : wf d n (drop t k) = true := by
  induction t with
  | nil => rfl
  | cons f rest ih =>
    obtain ⟨i, u⟩ := f
    obtain ⟨hi, hu, hlt, hrest⟩ := wf_cons.mp h
    simp only [drop]
    split
    · exact ih hrest
    · exact wf_cons.mpr ⟨hi, hu, fun e he => hlt e (mem_drop he), ih hrest⟩

/-- In a canonical table a listed entry is what its key reads as. -/
theorem get_of_mem {d : α} {n : Nat} {t : List (Nat × α)} (h : wf d n t = true) {k : Nat} {v : α} (hm : (k, v) ∈ t) :
    get d t k = v := by
  induction t with
  | nil => simp at hm
  | cons f rest ih =>
    obtain ⟨i, u⟩ := f
    obtain ⟨hi, hu, hlt, hrest⟩ := wf_cons.mp h
    rcases List.mem_cons.mp hm with hm | hm
    · cases hm; simp [get]
    · have := hlt _ hm
      have hne : i ≠ k := by simp at this; omega
      simp [get, hne, ih hrest hm]

/-- No entry of a canonical table is what an unlisted key reads as. -/
theorem ne_of_mem {d : α} {n : Nat} {t : List (Nat × α)} (h : wf d n t = true) {e : Nat × α} (hm : e ∈ t) : e.2 ≠ d := by
  induction t with
  | nil => simp at hm
  | cons f rest ih =>
    obtain ⟨j, w⟩ := f
    obtain ⟨_, hw, _, hrest⟩ := wf_cons.mp h
    rcases List.mem_cons.mp hm with rfl | hm
    · exact hw
    · exact ih hrest hm

/-- In a canonical table the keys listed are those that do not read as the default. -/
theorem mem_keys_iff {d : α} {n : Nat} {t : List (Nat × α)} (h : wf d n t = true) {k : Nat} :
    k ∈ t.map (·.1) ↔ get d t k ≠ d := by
  constructor
  · intro hk
    obtain ⟨⟨i, u⟩, hm, rfl⟩ := List.mem_map.mp hk
    rw [get_of_mem h hm]
    exact ne_of_mem h hm
  · intro hk
    exact List.mem_map.mpr ⟨_, mem_of_get hk, rfl⟩

/-- The keys of a canonical table rise strictly and stay below the bound. -/
theorem keys_sorted {d : α} {n : Nat} {t : List (Nat × α)} (h : wf d n t = true) :
    (t.map (·.1)).Pairwise (· < ·) ∧ ∀ k ∈ t.map (·.1), k < n := by
  induction t with
  | nil => simp
  | cons f rest ih =>
    obtain ⟨j, w⟩ := f
    obtain ⟨hj, _, hlt, hrest⟩ := wf_cons.mp h
    obtain ⟨hs, hb⟩ := ih hrest
    refine ⟨List.Pairwise.cons ?_ hs, ?_⟩
    · intro k hk
      obtain ⟨e, he, rfl⟩ := List.mem_map.mp hk
      exact hlt e he
    · intro k hk
      rcases List.mem_cons.mp hk with rfl | hk
      · exact hj
      · exact hb k hk

/-- A canonical table lists at most as many keys as there are. -/
theorem length_le {d : α} {n : Nat} {t : List (Nat × α)} (h : wf d n t = true) : t.length ≤ n := by
  have ⟨hs, hb⟩ := keys_sorted h
  have hsub : t.map (·.1) ⊆ List.range n := fun k hk => List.mem_range.mpr (hb k hk)
  have hnd : (t.map (·.1)).Nodup := hs.imp fun h => Nat.ne_of_lt h
  have := (List.Nodup.subperm hnd hsub).length_le
  simpa using this

end Table

/-- Read after a write to FREQ. -/
theorem freqAt_freqPut (f : List (Nat × Count)) (s t : Nat) (v : Count) :
    freqAt (freqPut f s v) t = if t = s then v else freqAt f t := by
  unfold freqAt freqPut
  split
  · rw [Table.get_drop]; split <;> simp_all
  · rw [Table.get_put]

/-- A write to an entry of FREQ keeps the canonical form. -/
theorem freqPut_wf {f : List (Nat × Count)} (h : Table.wf (0 : Count) Config.nsym f = true) {s : Nat} (hs : s < Config.nsym)
    (v : Count) : Table.wf (0 : Count) Config.nsym (freqPut f s v) = true := by
  unfold freqPut
  split
  · exact Table.wf_drop h s
  · exact Table.wf_put h hs ‹_›

/-- Memory, for the tables of this block: the empty table is canonical. -/
theorem freq_wf_empty : Table.wf (0 : Count) Config.nsym [] = true := rfl

end Sys2Proof.Machine
end

