-- ==== Sys2Proof/Laws/Tree.lean ====
section
/-! SUPPORT. The merge loop of BUILD_TREE: a rule that proves a property of the arena from one merge, and the bundle of
facts about the arena that it gives (42_tree_builder.md R90 to R97). -/

namespace Sys2Proof.Machine

theorem leastKey_mem (m : Key) (xs : List Key) : leastKey m xs ∈ m :: xs := by
  induction xs generalizing m with
  | nil => simp [leastKey]
  | cons x xs ih =>
    simp only [leastKey]
    have := ih (if keyLess x m then x else m)
    simp only [List.mem_cons] at this ⊢
    rcases this with h | h
    · rw [h]; split <;> simp
    · exact .inr (.inr h)

/-- The queue's parts after an extraction, and that nothing in it is below the key extracted (R90). -/
theorem extractMin_some {pq : List Key} {k : Key} {rest : List Key} (h : extractMin pq = some (k, rest)) :
    pq.Perm (k :: rest) := by
  cases pq with
  | nil => simp [extractMin] at h
  | cons x xs =>
    simp only [extractMin, Option.some.injEq, Prod.mk.injEq] at h
    obtain ⟨rfl, rfl⟩ := h
    exact List.perm_cons_erase (leastKey_mem x xs)

theorem extractMin_length {pq : List Key} {k : Key} {rest : List Key} (h : extractMin pq = some (k, rest)) :
    pq.length = rest.length + 1 := by
  simpa using (extractMin_some h).length_eq

/-- One merge: what the loop holds before it, and what after (R91). -/
def MergeStep (done : List Node) (pq : List Key) (done' : List Node) (pq' : List Key) : Prop :=
  ∃ a pq1 b pq2, extractMin pq = some (a, pq1) ∧ extractMin pq1 = some (b, pq2) ∧
    done' = done ++ [mergeNode a b] ∧ pq' = (a.1 + b.1, done.length) :: pq2

/-- The rule of the merge loop: a property of the nodes made so far and the queue that every merge keeps holds at the
end, of all nodes and a queue of one. -/
theorem merges_rule {P : List Node → List Key → Prop}
    (hs : ∀ d q d' q', P d q → MergeStep d q d' q' → P d' q') :
    ∀ (fuel : Nat) (done : List Node) (pq : List Key), pq ≠ [] → pq.length ≤ fuel + 1 → P done pq →
      ∃ k, P (done ++ merges fuel done.length pq) [k] := by
  intro fuel
  induction fuel with
  | zero =>
    intro done pq hne hl hp
    match pq, hne, hl with
    | [k], _, _ => exact ⟨k, by simpa [merges] using hp⟩
    | a :: b :: r, _, hl => simp at hl
  | succ fuel ih =>
    intro done pq hne hl hp
    cases h1 : extractMin pq with
    | none => cases pq <;> simp [extractMin] at h1 hne
    | some p =>
      obtain ⟨a, pq1⟩ := p
      have hl1 := extractMin_length h1
      cases h2 : extractMin pq1 with
      | none =>
        have : pq1 = [] := by cases pq1 <;> simp [extractMin] at h2; rfl
        subst this
        match pq, hl1 with
        | [k], _ => exact ⟨k, by simpa [merges, h1, h2] using hp⟩
      | some p =>
        obtain ⟨b, pq2⟩ := p
        have hl2 := extractMin_length h2
        obtain ⟨k, hk⟩ := ih (done ++ [mergeNode a b]) ((a.1 + b.1, done.length) :: pq2) (by simp) (by simp; omega)
          (hs _ _ _ _ hp ⟨a, pq1, b, pq2, h1, h2, rfl, rfl⟩)
        refine ⟨k, ?_⟩
        simpa [merges, h1, h2] using hk

theorem leafKeys_length (n : Nat) (f : List (Nat × Count)) : (leafKeys n f).length = f.length := by
  induction f generalizing n with
  | nil => rfl
  | cons e f ih => simp [leafKeys, ih]

/-- The rule of BUILD_TREE: what holds of the leaves and is kept by every merge holds of the arena. -/
theorem arena_rule {P : List Node → List Key → Prop} {f : List (Nat × Count)} (hne : f ≠ [])
    (h0 : P (f.map leafNode) (leafKeys 0 f)) (hs : ∀ d q d' q', P d q → MergeStep d q d' q' → P d' q') :
    ∃ k, P (arena f) [k] := by
  have := merges_rule hs f.length (f.map leafNode) (leafKeys 0 f)
    (by cases f <;> simp [leafKeys] at hne ⊢) (by rw [leafKeys_length]; omega) h0
  simpa [arena] using this

theorem keyLess_iff (a b : Key) : keyLess a b = true ↔ a.1 < b.1 ∨ (a.1 = b.1 ∧ a.2 < b.2) := by
  simp [keyLess]

theorem leastKey_le (m : Key) (xs : List Key) : ∀ x ∈ m :: xs, keyLess x (leastKey m xs) = false := by
  induction xs generalizing m with
  | nil => simp [leastKey, keyLess]
  | cons y xs ih =>
    intro x hx
    have h0 := ih (if keyLess y m then y else m)
    simp only [leastKey, List.mem_cons] at hx ⊢
    have hm := h0 _ (List.mem_cons_self ..)
    rcases hx with rfl | rfl | hx
    · split at hm <;> rename_i hc
      · rw [if_pos hc]
        simp only [← Bool.not_eq_true, keyLess_iff] at hm hc ⊢
        omega
      · rw [if_neg hc]; exact hm
    · split at hm <;> rename_i hc
      · rw [if_pos hc]; exact hm
      · rw [if_neg hc]
        simp only [← Bool.not_eq_true, keyLess_iff] at hm hc ⊢
        omega
    · exact h0 _ (List.mem_cons_of_mem _ hx)

/-- What an extraction takes has the least key (R90). -/
theorem extractMin_least {pq rest : List Key} {k : Key} (h : extractMin pq = some (k, rest)) :
    ∀ x ∈ pq, keyLess x k = false := by
  cases pq with
  | nil => simp [extractMin] at h
  | cons y ys =>
    simp only [extractMin, Option.some.injEq, Prod.mk.injEq] at h
    obtain ⟨rfl, -⟩ := h
    exact leastKey_le y ys

/-- The key an extraction takes is at most the one the next extraction takes. -/
theorem extractMin_first {pq pq1 pq2 : List Key} {a b : Key} (h1 : extractMin pq = some (a, pq1))
    (h2 : extractMin pq1 = some (b, pq2)) : keyLess b a = false :=
  extractMin_least h1 b ((extractMin_some h1).mem_iff.mpr (.tail _ ((extractMin_some h2).mem_iff.mpr (.head _))))

/-- An internal node at index `m` (R90 to R93, R97): its children stand below it and are distinct, the `zero` child's
key is at most the `one` child's, no node that waits in the queue when it is made has a key below the `one` child's, and
the counts are exact and within the total. -/
structure Inner (f : List (Nat × Count)) (ns : List Node) (m : Nat) (x : Node) : Prop where
  leaf : x.leaf = false
  sym : x.sym = Config.notAChar
  zero : x.zero.toNat < m
  one : x.one.toNat < m
  ne : x.zero ≠ x.one
  total : x.count.toNat ≤ totalCount f
  children : ∃ a b, ns[x.zero.toNat]? = some a ∧ ns[x.one.toNat]? = some b ∧
    x.count.toNat = a.count.toNat + b.count.toNat ∧
    keyLess (b.count.toNat, x.one.toNat) (a.count.toNat, x.zero.toNat) = false ∧
    ∀ j y, j < m → ns[j]? = some y → j ≠ x.zero.toNat → j ≠ x.one.toNat →
      (∀ m' x', f.length ≤ m' → m' < m → ns[m']? = some x' → x'.zero.toNat ≠ j ∧ x'.one.toNat ≠ j) →
      keyLess (y.count.toNat, j) (b.count.toNat, x.one.toNat) = false

/-- Node `m` is an internal node over node `j`. -/
def Parent (f : List (Nat × Count)) (ns : List Node) (j m : Nat) : Prop :=
  f.length ≤ m ∧ ∃ x, ns[m]? = some x ∧ (x.zero.toNat = j ∨ x.one.toNat = j)

/-- What holds of the nodes made so far and the queue at every point of the merge loop. -/
structure Forest (f : List (Nat × Count)) (ns : List Node) (pq : List Key) : Prop where
  size : ns.length + pq.length = 2 * f.length
  long : f.length ≤ ns.length
  leaves : ∀ i, i < f.length → ns[i]? = (f.map leafNode)[i]?
  inner : ∀ m x, f.length ≤ m → ns[m]? = some x → Inner f ns m x
  queue : ∀ k ∈ pq, ∃ x, ns[k.2]? = some x ∧ x.count.toNat = k.1
  nodup : (pq.map (·.2)).Nodup
  sum : (pq.map (·.1)).sum = totalCount f
  /-- A queued node has no parent yet, and every other node has one. -/
  queued : ∀ j ∈ pq.map (·.2), ∀ m, ¬ Parent f ns j m
  merged : ∀ j, j < ns.length → j ∉ pq.map (·.2) → ∃ m, Parent f ns j m
  once : ∀ j m m', Parent f ns j m → Parent f ns j m' → m = m'

theorem mergeNode_fields {a b : Key} (ha : a.2 < 1024) (hb : b.2 < 1024) (hc : a.1 + b.1 ≤ Config.countMax) :
    (mergeNode a b).zero.toNat = a.2 ∧ (mergeNode a b).one.toNat = b.2 ∧ (mergeNode a b).count.toNat = a.1 + b.1 := by
  simp only [Config.countMax] at hc
  refine ⟨?_, ?_, ?_⟩ <;> simp [mergeNode] <;> omega

theorem leafKeys_eq (n : Nat) (f : List (Nat × Count)) (k : Key) :
    k ∈ leafKeys n f ↔ ∃ i e, f[i]? = some e ∧ k = (e.2.toNat, n + i) := by
  induction f generalizing n with
  | nil => simp [leafKeys]
  | cons e f ih =>
    simp only [leafKeys, List.mem_cons, ih]
    constructor
    · rintro (rfl | ⟨i, e', h, rfl⟩)
      · exact ⟨0, e, rfl, rfl⟩
      · exact ⟨i + 1, e', h, by simp; omega⟩
    · rintro ⟨i, e', h, rfl⟩
      cases i with
      | zero => simp at h; subst h; exact .inl rfl
      | succ i => exact .inr ⟨i, e', by simpa using h, by simp; omega⟩

theorem leafKeys_idx (n : Nat) (f : List (Nat × Count)) : (leafKeys n f).map (·.2) = List.range' n f.length := by
  induction f generalizing n with
  | nil => rfl
  | cons e f ih => simp [leafKeys, ih, List.range'_succ]

theorem leafKeys_sum (n : Nat) (f : List (Nat × Count)) : ((leafKeys n f).map (·.1)).sum = totalCount f := by
  induction f generalizing n with
  | nil => rfl
  | cons e f ih => simpa [leafKeys, totalCount] using ih (n + 1)

theorem forest_start (f : List (Nat × Count)) : Forest f (f.map leafNode) (leafKeys 0 f) where
  size := by rw [leafKeys_length, List.length_map]; omega
  long := by simp
  leaves := fun _ _ => rfl
  inner := fun m x h e => by
    have := (List.getElem?_eq_some_iff.mp e).1
    simp at this; omega
  queue := fun k hk => by
    obtain ⟨i, e, h, rfl⟩ := (leafKeys_eq ..).mp hk
    exact ⟨leafNode e, by simp [h], rfl⟩
  nodup := by rw [leafKeys_idx]; exact List.nodup_range'
  sum := leafKeys_sum 0 f
  queued := fun j _ m hp => by
    obtain ⟨hm, x, hx, -⟩ := hp
    have := (List.getElem?_eq_some_iff.mp hx).1
    simp at this; omega
  merged := fun j hj hn => by
    rw [leafKeys_idx] at hn
    simp at hj hn; omega
  once := fun j m m' hp _ => by
    obtain ⟨hm, x, hx, -⟩ := hp
    have := (List.getElem?_eq_some_iff.mp hx).1
    simp at this; omega

theorem forest_step {f : List (Nat × Count)} (hf : f.length ≤ Config.nsym) (ht : totalCount f ≤ Config.countMax)
    {ns : List Node} {pq : List Key} {ns' : List Node} {pq' : List Key} (h : Forest f ns pq)
    (hs : MergeStep ns pq ns' pq') : Forest f ns' pq' := by
  obtain ⟨a, pq1, b, pq2, h1, h2, rfl, rfl⟩ := hs
  have hp : pq.Perm (a :: b :: pq2) := (extractMin_some h1).trans ((extractMin_some h2).cons a)
  have hle := extractMin_first h1 h2
  obtain ⟨xa, hxa, ca⟩ := h.queue a (hp.mem_iff.mpr (by simp))
  obtain ⟨xb, hxb, cb⟩ := h.queue b (hp.mem_iff.mpr (by simp))
  have la := (List.getElem?_eq_some_iff.mp hxa).1
  have lb := (List.getElem?_eq_some_iff.mp hxb).1
  have hsum : a.1 + (b.1 + (pq2.map (·.1)).sum) = totalCount f := by
    rw [← h.sum, (hp.map (·.1)).sum_eq]; simp
  have hlen := hp.length_eq
  simp only [List.length_cons] at hlen
  have hsz := h.size
  have hns : Config.nsym = 257 := rfl
  have hbig : ns.length < 1024 := by omega
  obtain ⟨fz, fo, fc⟩ := mergeNode_fields (a := a) (b := b) (by omega) (by omega) (by omega)
  have hnd := (hp.map (·.2)).nodup_iff.mp h.nodup
  simp only [List.map_cons, List.nodup_cons, List.mem_cons, not_or] at hnd
  have old : ∀ {m : Nat}, m < ns.length → (ns ++ [mergeNode a b])[m]? = ns[m]? := fun hm => List.getElem?_append_left hm
  have cases' : ∀ {m : Nat} {x}, (ns ++ [mergeNode a b])[m]? = some x →
      (m < ns.length ∧ ns[m]? = some x) ∨ (m = ns.length ∧ x = mergeNode a b) := by
    intro m x e
    have hm := (List.getElem?_eq_some_iff.mp e).1
    simp only [List.length_append, List.length_singleton] at hm
    by_cases hlt : m < ns.length
    · exact .inl ⟨hlt, by rw [← old hlt]; exact e⟩
    · obtain rfl : m = ns.length := by omega
      exact .inr ⟨rfl, by simpa using e.symm⟩
  have par : ∀ {j m : Nat}, Parent f (ns ++ [mergeNode a b]) j m ↔
      Parent f ns j m ∨ (m = ns.length ∧ (a.2 = j ∨ b.2 = j)) := by
    intro j m
    constructor
    · rintro ⟨hm, x, hx, hj⟩
      rcases cases' hx with ⟨hlt, hx⟩ | ⟨rfl, rfl⟩
      · exact .inl ⟨hm, x, hx, hj⟩
      · rw [fz, fo] at hj; exact .inr ⟨rfl, hj⟩
    · rintro (⟨hm, x, hx, hj⟩ | ⟨rfl, hj⟩)
      · exact ⟨hm, x, by rw [old (List.getElem?_eq_some_iff.mp hx).1]; exact hx, hj⟩
      · exact ⟨h.long, mergeNode a b, by simp, by rw [fz, fo]; exact hj⟩
  have noPar : ∀ {m : Nat}, ¬ Parent f ns ns.length m := by
    rintro m ⟨hm, x, hx, hj⟩
    have hi := h.inner m x hm hx
    have := (List.getElem?_eq_some_iff.mp hx).1
    have := hi.zero
    have := hi.one
    omega
  have qmem : ∀ {j : Nat}, j ∈ pq.map (·.2) ↔ j = a.2 ∨ j = b.2 ∨ j ∈ pq2.map (·.2) := by
    intro j
    rw [(hp.map (·.2)).mem_iff]; simp
  have qlt : ∀ {j : Nat}, j ∈ pq2.map (·.2) → j < ns.length := by
    intro j hj
    obtain ⟨k, hk, rfl⟩ := List.mem_map.mp hj
    obtain ⟨x, hx, -⟩ := h.queue k (hp.mem_iff.mpr (by simp [hk]))
    exact (List.getElem?_eq_some_iff.mp hx).1
  refine
    { size := by simp; omega
      long := by simp; have := h.long; omega
      leaves := fun i hi => by rw [old (by have := h.long; omega)]; exact h.leaves i hi
      inner := fun m x hm e => ?_
      queue := fun k hk => ?_
      nodup := ?_
      sum := by simp; omega
      queued := fun j hj m hpar => ?_
      merged := fun j hj hn => ?_
      once := fun j m m' p q => ?_ }
  · rcases cases' e with ⟨hlt, e⟩ | ⟨rfl, rfl⟩
    · have hi := h.inner m x hm e
      obtain ⟨p, q, hp', hq', sum', first, least⟩ := hi.children
      exact
        { leaf := hi.leaf, sym := hi.sym, zero := hi.zero, one := hi.one, ne := hi.ne, total := hi.total
          children := ⟨p, q, by rw [old (by have := hi.zero; omega)]; exact hp', by rw [old (by have := hi.one; omega)]; exact hq', sum', first,
            fun j y hj hy hz ho hno => least j y hj (by rw [← old (by omega)]; exact hy) hz ho fun m' x' hf' hm' hx' =>
              hno m' x' hf' hm' (by rw [old (by omega)]; exact hx')⟩ }
    · refine
        { leaf := rfl, sym := rfl, zero := by rw [fz]; exact la, one := by rw [fo]; exact lb
          ne := fun e => hnd.1.1 (by rw [← fz, ← fo, e])
          total := by rw [fc]; omega
          children := ⟨xa, xb, by rw [fz, old la]; exact hxa, by rw [fo, old lb]; exact hxb, by rw [fc, ca, cb], ?_, ?_⟩ }
      · rw [fz, fo, ca, cb]; exact hle
      · intro j y hj hy hz ho hno
        rw [fz] at hz
        rw [fo] at ho
        rw [old hj] at hy
        have hq : j ∈ pq.map (·.2) := by
          refine Classical.not_not.mp fun hn => ?_
          obtain ⟨m', hm', x', hx', hc⟩ := h.merged j hj hn
          have hlt := (List.getElem?_eq_some_iff.mp hx').1
          have := hno m' x' hm' hlt (by rw [old hlt]; exact hx')
          exact hc.elim this.1 this.2
        obtain ⟨k, hk, rfl⟩ := List.mem_map.mp hq
        obtain ⟨x, hx, ck⟩ := h.queue k hk
        obtain rfl : y = x := Option.some.inj (hy.symm.trans hx)
        have hk1 : k ∈ pq1 := by
          rcases List.mem_cons.mp ((extractMin_some h1).mem_iff.mp hk) with rfl | hk
          · exact absurd rfl hz
          · exact hk
        rw [fo, cb, ck]
        exact extractMin_least h2 k hk1
  · rcases List.mem_cons.mp hk with rfl | hk
    · exact ⟨mergeNode a b, by simp, fc⟩
    · obtain ⟨x, hx, c⟩ := h.queue k (hp.mem_iff.mpr (by simp [hk]))
      exact ⟨x, by rw [old (List.getElem?_eq_some_iff.mp hx).1]; exact hx, c⟩
  · simp only [List.map_cons, List.nodup_cons]
    exact ⟨fun hm => absurd (qlt hm) (by omega), hnd.2.2⟩
  · simp only [List.map_cons, List.mem_cons] at hj
    rcases par.mp hpar with p1 | ⟨-, p1⟩
    · rcases hj with rfl | hj
      · exact noPar p1
      · exact h.queued j (qmem.mpr (.inr (.inr hj))) m p1
    · rcases hj with rfl | hj
      · omega
      · rcases p1 with e | e
        · exact hnd.1.2 (e ▸ hj)
        · exact hnd.2.1 (e ▸ hj)
  · simp only [List.length_append, List.length_singleton, List.map_cons, List.mem_cons, not_or] at hj hn
    by_cases hq : j ∈ pq.map (·.2)
    · rcases qmem.mp hq with rfl | rfl | hq
      · exact ⟨ns.length, par.mpr (.inr ⟨rfl, .inl rfl⟩)⟩
      · exact ⟨ns.length, par.mpr (.inr ⟨rfl, .inr rfl⟩)⟩
      · exact absurd hq hn.2
    · obtain ⟨m, hm⟩ := h.merged j (by omega) hq
      exact ⟨m, par.mpr (.inl hm)⟩
  · have hq : ∀ {j : Nat}, a.2 = j ∨ b.2 = j → j ∈ pq.map (·.2) := by
      rintro j (rfl | rfl) <;> exact qmem.mpr (by simp)
    rcases par.mp p with p1 | ⟨e1, p1⟩ <;> rcases par.mp q with q1 | ⟨e2, q1⟩
    · exact h.once j m m' p1 q1
    · exact absurd p1 (h.queued j (hq q1) m)
    · exact absurd q1 (h.queued j (hq p1) m')
    · rw [e1, e2]

/-- Everything about the arena that BUILD_TREE writes. -/
theorem arena_forest {f : List (Nat × Count)} (hne : f ≠ []) (hf : f.length ≤ Config.nsym)
    (ht : totalCount f ≤ Config.countMax) : ∃ k, Forest f (arena f) [k] :=
  arena_rule hne (forest_start f) fun _ _ _ _ h hs => forest_step hf ht h hs

end Sys2Proof.Machine
end

