-- ==== Sys2Proof/Laws/Codes.lean ====
section
/-! SUPPORT. The walk of GEN_CODES (43_code_table.md R99): the leaves under a node with the edges that lead to them, what
holds of those edge sequences in every strict binary tree, and the table that the walk writes. -/

namespace Sys2Proof.Machine

/-- The leaves under node `m`, each symbol with the edges that lead to it, at most `fuel` deep: the walk without its
table. -/
def leavesUnder (look : Nat → Option Node) : (fuel m : Nat) → List (Nat × List Bool)
  | 0, _ => []
  | fuel + 1, m =>
    match look m with
    | none => []
    | some x =>
      if x.leaf then [(x.sym.toNat, [])]
      else (leavesUnder look fuel x.zero.toNat).map (fun p => (p.1, false :: p.2)) ++
        (leavesUnder look fuel x.one.toNat).map (fun p => (p.1, true :: p.2))

/-- Every node up to `root` is there, a leaf with a symbol or an internal node over lower ones. -/
def TreeBelow (look : Nat → Option Node) (root : Nat) : Prop :=
  ∀ m, m ≤ root → ∃ x, look m = some x ∧ (x.leaf = true → x.sym.toNat < Config.nsym) ∧
    (x.leaf = false → x.zero.toNat < m ∧ x.one.toNat < m)

/-- Induction over a tree, from a node's children to it, with fuel to spare. -/
theorem tree_induction {look : Nat → Option Node} {root : Nat} (ht : TreeBelow look root) {P : (fuel m : Nat) → Prop}
    (leaf : ∀ fuel m x, m ≤ root → look m = some x → x.leaf = true → x.sym.toNat < Config.nsym → P (fuel + 1) m)
    (inner : ∀ fuel m x, m ≤ root → look m = some x → x.leaf = false → x.zero.toNat < m → x.one.toNat < m →
      P fuel x.zero.toNat → P fuel x.one.toNat → P (fuel + 1) m) :
    ∀ fuel m, m ≤ root → m < fuel → P fuel m := by
  intro fuel
  induction fuel with
  | zero => intro m _ h; omega
  | succ fuel ih =>
    intro m hm hf
    obtain ⟨x, hx, hl, hi⟩ := ht m hm
    cases e : x.leaf with
    | true => exact leaf fuel m x hm hx e (hl e)
    | false =>
      obtain ⟨hz, ho⟩ := hi e
      exact inner fuel m x hm hx e hz ho (ih _ (by omega) (by omega)) (ih _ (by omega) (by omega))

theorem leavesUnder_leaf {look : Nat → Option Node} {m : Nat} {x : Node} (h : look m = some x) (hl : x.leaf = true)
    (fuel : Nat) : leavesUnder look (fuel + 1) m = [(x.sym.toNat, [])] := by
  simp [leavesUnder, h, hl]

theorem leavesUnder_inner {look : Nat → Option Node} {m : Nat} {x : Node} (h : look m = some x) (hl : x.leaf = false)
    (fuel : Nat) : leavesUnder look (fuel + 1) m =
      (leavesUnder look fuel x.zero.toNat).map (fun p => (p.1, false :: p.2)) ++
        (leavesUnder look fuel x.one.toNat).map (fun p => (p.1, true :: p.2)) := by
  simp [leavesUnder, h, hl]

/-- PATH after the edges `bs` below a node at depth `len` with path `path` (R98, R99). -/
def pathBelow : (len : Nat) → BitVec 256 → List Bool → BitVec 256
  | _, path, [] => path
  | len, path, b :: bs => pathBelow (len + 1) (if b then path ||| (1#256 <<< len) else path) bs

/-- The code of a leaf reached by the edges `bs`. -/
def codeBelow (len : Nat) (path : BitVec 256) (bs : List Bool) : Code :=
  { valid := true, len := BitVec.ofNat 9 (len + bs.length), path := pathBelow len path bs }

/-- The walk adds exactly the codes of the leaves under its node, in order. -/
theorem walk_eq {look : Nat → Option Node} {root : Nat} (ht : TreeBelow look root) (fuel m : Nat) (hm : m ≤ root)
    (hf : m < fuel) : ∀ (len : Nat) (path : BitVec 256) (t : List (Nat × Code)), walk look fuel m len path t =
      some ((leavesUnder look fuel m).foldl (fun t p => Table.put t p.1 (codeBelow len path p.2)) t) := by
  refine tree_induction ht (P := fun fuel m => ∀ (len : Nat) (path : BitVec 256) (t : List (Nat × Code)),
    walk look fuel m len path t =
      some ((leavesUnder look fuel m).foldl (fun t p => Table.put t p.1 (codeBelow len path p.2)) t)) ?_ ?_ fuel m hm hf
  · intro fuel m x _ hx hl hs len path t
    simp [walk, leavesUnder, hx, hl, hs, codeBelow, pathBelow]
  · intro fuel m x _ hx hl _ _ ihz iho len path t
    simp only [walk, hx, hl, Bool.false_eq_true, if_false, leavesUnder_inner hx hl, ihz, iho, List.foldl_append,
      List.foldl_map]
    simp only [codeBelow, pathBelow, List.length_cons, Nat.add_assoc, Nat.add_comm 1, Bool.false_eq_true, if_false, if_true]

theorem leavesUnder_ne_nil {look : Nat → Option Node} {root : Nat} (ht : TreeBelow look root) (fuel m : Nat) (hm : m ≤ root)
    (hf : m < fuel) : leavesUnder look fuel m ≠ [] := by
  refine tree_induction ht (P := fun fuel m => leavesUnder look fuel m ≠ []) ?_ ?_ fuel m hm hf
  · intro fuel m x _ hx hl _
    simp [leavesUnder_leaf hx hl]
  · intro fuel m x _ hx hl _ _ ihz _
    simp [leavesUnder_inner hx hl, ihz]

/-- An edge sequence is shorter than the number of leaves, and empty only if its leaf is the only one (R102). -/
theorem leavesUnder_length {look : Nat → Option Node} {root : Nat} (ht : TreeBelow look root) (fuel m : Nat) (hm : m ≤ root)
    (hf : m < fuel) : ∀ p ∈ leavesUnder look fuel m, p.1 < Config.nsym ∧ p.2.length + 1 ≤ (leavesUnder look fuel m).length ∧
      (p.2 = [] ↔ (leavesUnder look fuel m).length = 1) := by
  suffices h : leavesUnder look fuel m ≠ [] ∧ ∀ p ∈ leavesUnder look fuel m, p.1 < Config.nsym ∧
      p.2.length + 1 ≤ (leavesUnder look fuel m).length ∧ (p.2 = [] ↔ (leavesUnder look fuel m).length = 1) from h.2
  refine tree_induction ht (P := fun fuel m => leavesUnder look fuel m ≠ [] ∧ ∀ p ∈ leavesUnder look fuel m,
      p.1 < Config.nsym ∧ p.2.length + 1 ≤ (leavesUnder look fuel m).length ∧
      (p.2 = [] ↔ (leavesUnder look fuel m).length = 1)) ?_ ?_ fuel m hm hf
  · intro fuel m x _ hx hl hs
    simp [leavesUnder_leaf hx hl, hs]
  · intro fuel m x _ hx hl _ _ ihz iho
    rw [leavesUnder_inner hx hl]
    have lz := List.length_pos_iff.mpr ihz.1
    have lo := List.length_pos_iff.mpr iho.1
    refine ⟨by simp [ihz.1], fun p hp => ?_⟩
    simp only [List.length_append, List.length_map]
    rcases List.mem_append.mp hp with h | h <;> obtain ⟨q, hq, rfl⟩ := List.mem_map.mp h
    · obtain ⟨a, b, -⟩ := ihz.2 q hq
      exact ⟨a, by simp; omega, by simp; omega⟩
    · obtain ⟨a, b, -⟩ := iho.2 q hq
      exact ⟨a, by simp; omega, by simp; omega⟩

/-- Of two leaves, neither edge sequence begins the other (R100). -/
theorem leavesUnder_pairwise {look : Nat → Option Node} {root : Nat} (ht : TreeBelow look root) (fuel m : Nat)
    (hm : m ≤ root) (hf : m < fuel) :
    (leavesUnder look fuel m).Pairwise fun p q => ¬ p.2 <+: q.2 ∧ ¬ q.2 <+: p.2 := by
  refine tree_induction ht (P := fun fuel m => (leavesUnder look fuel m).Pairwise
    fun p q => ¬ p.2 <+: q.2 ∧ ¬ q.2 <+: p.2) ?_ ?_ fuel m hm hf
  · intro fuel m x _ hx hl _
    simp [leavesUnder_leaf hx hl]
  · intro fuel m x _ hx hl _ _ ihz iho
    rw [leavesUnder_inner hx hl, List.pairwise_append]
    refine ⟨?_, ?_, ?_⟩
    · rw [List.pairwise_map]; exact ihz.imp fun h => by simpa [List.cons_prefix_cons] using h
    · rw [List.pairwise_map]; exact iho.imp fun h => by simpa [List.cons_prefix_cons] using h
    · intro p hp q hq
      obtain ⟨_, _, rfl⟩ := List.mem_map.mp hp
      obtain ⟨_, _, rfl⟩ := List.mem_map.mp hq
      simp [List.cons_prefix_cons]

/-- The edge sequences fill the tree: their weights `2 ^ (N - length)` add up to `2 ^ N` (R100). -/
theorem leavesUnder_weight {look : Nat → Option Node} {root : Nat} (ht : TreeBelow look root) (fuel m : Nat) (hm : m ≤ root)
    (hf : m < fuel) : ∀ N, (∀ p ∈ leavesUnder look fuel m, p.2.length ≤ N) →
      ((leavesUnder look fuel m).map fun p => 2 ^ (N - p.2.length)).sum = 2 ^ N := by
  refine tree_induction ht (P := fun fuel m => ∀ N, (∀ p ∈ leavesUnder look fuel m, p.2.length ≤ N) →
      ((leavesUnder look fuel m).map fun p => 2 ^ (N - p.2.length)).sum = 2 ^ N) ?_ ?_ fuel m hm hf
  · intro fuel m x _ hx hl _ N _
    simp [leavesUnder_leaf hx hl]
  · intro fuel m x hm' hx hl hz ho ihz iho N hN
    rw [leavesUnder_inner hx hl] at hN ⊢
    cases N with
    | zero =>
      exfalso
      cases hL : (leavesUnder look fuel x.zero.toNat) with
      | nil =>
        cases fuel with
        | zero =>
          have h0 := ihz 0 (by simp [leavesUnder])
          simp [leavesUnder] at h0
        | succ f =>
          have h0 := ihz 0 (by simp [hL])
          simp [hL] at h0
      | cons p ps => have := hN (p.1, false :: p.2) (by simp [hL]); simp at this
    | succ N =>
      have hz' := ihz N fun p hp => by
        have := hN (p.1, false :: p.2) (List.mem_append_left _ (List.mem_map_of_mem hp)); simpa using this
      have ho' := iho N fun p hp => by
        have := hN (p.1, true :: p.2) (List.mem_append_right _ (List.mem_map_of_mem hp)); simpa using this
      simp only [List.map_append, List.map_map, List.sum_append, Function.comp_def, List.length_cons, Nat.add_sub_add_right,
        hz', ho', Nat.pow_succ]
      omega

/-- The edges of a leaf lead to it (R100, 44_stream_codec.md R111). -/
theorem leavesUnder_follow {s : State} {root : Nat} (ht : TreeBelow (nodeAt s) root) (fuel m : Nat) (hm : m ≤ root)
    (hf : m < fuel) : ∀ p ∈ leavesUnder (nodeAt s) fuel m, ∃ j x, follow s m p.2 = some j ∧ j ≤ m ∧ nodeAt s j = some x ∧
      x.leaf = true ∧ x.sym.toNat = p.1 := by
  refine tree_induction ht (P := fun fuel m => ∀ p ∈ leavesUnder (nodeAt s) fuel m, ∃ j x, follow s m p.2 = some j ∧
    j ≤ m ∧ nodeAt s j = some x ∧ x.leaf = true ∧ x.sym.toNat = p.1) ?_ ?_ fuel m hm hf
  · intro fuel m x _ hx hl _ p hp
    rw [leavesUnder_leaf hx hl, List.mem_singleton] at hp
    subst hp
    exact ⟨m, x, rfl, Nat.le_refl m, hx, hl, rfl⟩
  · intro fuel m x _ hx hl hz ho ihz iho p hp
    rw [leavesUnder_inner hx hl] at hp
    rcases List.mem_append.mp hp with h | h <;> obtain ⟨q, hq, rfl⟩ := List.mem_map.mp h
    · obtain ⟨j, y, a, b, c⟩ := ihz q hq
      exact ⟨j, y, by simpa [follow, hx, hl] using a, by omega, c⟩
    · obtain ⟨j, y, a, b, c⟩ := iho q hq
      exact ⟨j, y, by simpa [follow, hx, hl] using a, by omega, c⟩

/-- The bits of PATH: those above the new edges and below them are as before, and edge k is bit `len + k` (R98). -/
theorem pathBelow_bits (bs : List Bool) : ∀ (len : Nat) (path : BitVec 256) (k : Nat), len + bs.length ≤ 256 →
    (∀ j, len ≤ j → path.getLsbD j = false) →
    (pathBelow len path bs).getLsbD k = if k < len then path.getLsbD k else (bs[k - len]?).getD false := by
  induction bs with
  | nil =>
    intro len path k _ hz
    by_cases h : k < len
    · simp [pathBelow, h]
    · simp [pathBelow, h, hz k (by omega)]
  | cons b bs ih =>
    intro len path k hl hz
    simp only [List.length_cons] at hl
    have hbit : ∀ j, (if b then path ||| (1#256 <<< len) else path).getLsbD j =
        (path.getLsbD j || (b && decide (j = len))) := by
      intro j
      cases b with
      | false => simp
      | true =>
        simp only [if_true, BitVec.getLsbD_or, BitVec.getLsbD_shiftLeft, BitVec.getLsbD_one, Bool.true_and]
        by_cases hj : j = len
        · subst hj; simp; omega
        · by_cases hjl : j < len
          · simp [hj, hjl]
          · simp [hj, show j - len ≠ 0 by omega]
    rw [pathBelow, ih _ _ _ (by omega) (fun j hj => by rw [hbit, hz j (by omega), decide_eq_false (by omega : ¬ j = len)]; simp),
      hbit]
    by_cases h : k < len
    · simp [h, show k < len + 1 by omega, show ¬ k = len by omega]
    · by_cases e : k = len
      · subst e; simp [hz k (Nat.le_refl k)]
      · rw [if_neg (by omega), if_neg h, show k - len = (k - (len + 1)) + 1 by omega, List.getElem?_cons_succ]

/-- The code of a leaf at the end of the edges `bs` from the root: PATH and LEN give `bs` back, and no bit of PATH is set
above LEN. -/
theorem codeBelow_root {bs : List Bool} (h : bs.length ≤ 256) :
    (codeBelow 0 0 bs).len.toNat = bs.length ∧ codeBits (codeBelow 0 0 bs) = bs ∧
      ∀ k, bs.length ≤ k → (codeBelow 0 0 bs).path.getLsbD k = false := by
  have hp : ∀ k, (codeBelow 0 0 bs).path.getLsbD k = (bs[k]?).getD false := fun k => by
    have := pathBelow_bits bs 0 0 k (by omega) (by simp)
    simpa [codeBelow] using this
  have hl : (codeBelow 0 0 bs).len.toNat = bs.length := by simp [codeBelow]; omega
  refine ⟨hl, ?_, fun k hk => by rw [hp, List.getElem?_eq_none hk]; rfl⟩
  rw [codeBits, hl]
  apply List.ext_getElem
  · simp
  · intro i h1 h2
    simp at h1
    have := hp i
    rw [List.getElem?_eq_getElem h2] at this
    simpa using this

/-- The table that the puts of distinct symbols leave: each symbol's entry is its own, and every other is the default. -/
theorem foldl_put_get {α β : Type} (d : α) (v : β → α) (L : List (Nat × β)) (hn : (L.map (·.1)).Nodup) :
    ∀ (t : List (Nat × α)) (k : Nat), Table.get d (L.foldl (fun t p => Table.put t p.1 (v p.2)) t) k =
      match L.find? (fun p => p.1 == k) with
      | some p => v p.2
      | none => Table.get d t k := by
  induction L with
  | nil => intro t k; rfl
  | cons p L ih =>
    intro t k
    simp only [List.map_cons, List.nodup_cons] at hn
    rw [List.foldl_cons, ih hn.2, Table.get_put]
    by_cases h : p.1 = k
    · have : L.find? (fun q => q.1 == k) = none := by
        rw [List.find?_eq_none]
        intro q hq e
        exact hn.1 (List.mem_map.mpr ⟨q, hq, by simp at e; rw [e, h]⟩)
      simp [this, h]
    · have h' : ¬ k = p.1 := fun e => h e.symm
      have h2 : (p.1 == k) = false := by simpa using h
      rw [List.find?_cons_of_neg (by simp [h2]), if_neg h']

theorem foldl_put_wf {α β : Type} [DecidableEq α] {d : α} {n : Nat} {v : β → α} (L : List (Nat × β))
    (h : ∀ p ∈ L, p.1 < n ∧ v p.2 ≠ d) : ∀ t, Table.wf d n t = true →
      Table.wf d n (L.foldl (fun t p => Table.put t p.1 (v p.2)) t) = true := by
  induction L with
  | nil => intro t ht; exact ht
  | cons p L ih =>
    intro t ht
    exact ih (fun q hq => h q (.tail _ hq)) _ (Table.wf_put ht (h p (.head _)).1 (h p (.head _)).2)

/-- The symbols of the leaves under the queued nodes, at every point of the merge loop: the present ones, each once. -/
def QueueCovers (f : List (Nat × Count)) (ns : List Node) (pq : List Key) : Prop :=
  (pq.flatMap fun k => (leavesUnder (fun i => ns[i]?) (k.2 + 1) k.2).map (·.1)).Perm (f.map (·.1))

theorem forest_treeBelow {f : List (Nat × Count)} {ns : List Node} {pq : List Key} (h : Forest f ns pq)
    (hb : ∀ e ∈ f, e.1 < Config.nsym) {root : Nat} (hr : root < ns.length) : TreeBelow (fun i => ns[i]?) root := by
  intro m hm
  have hml : m < ns.length := by omega
  refine ⟨ns[m], List.getElem?_eq_getElem hml, fun hl => ?_, fun hl => ?_⟩
  · by_cases hf : m < f.length
    · have := h.leaves m hf
      rw [List.getElem?_eq_getElem hml, List.getElem?_map, List.getElem?_eq_getElem hf] at this
      simp only [Option.map_some, Option.some.injEq] at this
      rw [this]
      have := hb _ (List.getElem_mem hf)
      simp [leafNode, Config.nsym] at this ⊢; omega
    · have := (h.inner m _ (by omega) (List.getElem?_eq_getElem hml)).leaf
      simp [this] at hl
  · by_cases hf : m < f.length
    · have := h.leaves m hf
      rw [List.getElem?_eq_getElem hml, List.getElem?_map, List.getElem?_eq_getElem hf] at this
      simp only [Option.map_some, Option.some.injEq] at this
      rw [this] at hl
      simp [leafNode] at hl
    · have := h.inner m _ (by omega) (List.getElem?_eq_getElem hml)
      exact ⟨this.zero, this.one⟩

/-- With fuel to spare, the fuel does not matter, and neither do entries above the node. -/
theorem leavesUnder_congr {look look' : Nat → Option Node} {root : Nat} (ht : TreeBelow look root)
    (he : ∀ i, i ≤ root → look' i = look i) (fuel m : Nat) (hm : m ≤ root) (hf : m < fuel) :
    ∀ fuel', m < fuel' → leavesUnder look' fuel' m = leavesUnder look fuel m := by
  refine tree_induction ht (P := fun fuel m => ∀ fuel', m < fuel' → leavesUnder look' fuel' m = leavesUnder look fuel m)
    ?_ ?_ fuel m hm hf
  · intro fuel m x hm hx hl _ fuel' hf'
    cases fuel' with
    | zero => omega
    | succ g => rw [leavesUnder_leaf hx hl, leavesUnder_leaf (he m hm ▸ hx) hl]
  · intro fuel m x hm hx hl hz ho ihz iho fuel' hf'
    cases fuel' with
    | zero => omega
    | succ g => rw [leavesUnder_inner hx hl, leavesUnder_inner (he m hm ▸ hx) hl, ihz g (by omega), iho g (by omega)]

theorem covers_start (f : List (Nat × Count)) (hb : ∀ e ∈ f, e.1 < Config.nsym) :
    QueueCovers f (f.map leafNode) (leafKeys 0 f) := by
  suffices h : ∀ (g : List (Nat × Count)) (pre : List (Nat × Count)), (∀ e ∈ g, e.1 < Config.nsym) →
      ((leafKeys pre.length g).flatMap fun k =>
        (leavesUnder (fun i => ((pre ++ g).map leafNode)[i]?) (k.2 + 1) k.2).map (·.1)) = g.map (·.1) from
    List.Perm.of_eq (h f [] hb)
  intro g
  induction g with
  | nil => intro pre _; rfl
  | cons e g ih =>
    intro pre hb
    have := ih (pre ++ [e]) (fun x hx => hb x (.tail _ hx))
    simp only [List.length_append, List.length_singleton, List.append_assoc, List.singleton_append] at this
    have he := hb e (.head _)
    simp only [leafKeys, List.flatMap_cons, this]
    rw [leavesUnder_leaf (x := leafNode e) (by simp) rfl]
    simp [leafNode, Config.nsym] at he ⊢
    omega

theorem covers_step {f : List (Nat × Count)} (hf : f.length ≤ Config.nsym) (ht : totalCount f ≤ Config.countMax)
    (hb : ∀ e ∈ f, e.1 < Config.nsym) {ns : List Node} {pq : List Key} {ns' : List Node} {pq' : List Key}
    (h : Forest f ns pq) (hc : QueueCovers f ns pq) (hs : MergeStep ns pq ns' pq') : QueueCovers f ns' pq' := by
  have h' := forest_step hf ht h hs
  obtain ⟨a, pq1, b, pq2, h1, h2, rfl, rfl⟩ := hs
  have hp : pq.Perm (a :: b :: pq2) := (extractMin_some h1).trans ((extractMin_some h2).cons a)
  have hlt : ∀ k ∈ pq, k.2 < ns.length := fun k hk => by
    obtain ⟨x, hx, -⟩ := h.queue k hk
    exact (List.getElem?_eq_some_iff.mp hx).1
  have la := hlt a (hp.mem_iff.mpr (by simp))
  have lb := hlt b (hp.mem_iff.mpr (by simp))
  have hbelow : ∀ r, r < ns.length + 1 → TreeBelow (fun i => (ns ++ [mergeNode a b])[i]?) r := fun r hr =>
    forest_treeBelow h' hb (by simpa using hr)
  have old : ∀ (r fuel : Nat), r < ns.length → r < fuel →
      leavesUnder (fun i => (ns ++ [mergeNode a b])[i]?) fuel r = leavesUnder (fun i => ns[i]?) (r + 1) r := by
    intro r fuel hr hfuel
    exact leavesUnder_congr (forest_treeBelow h hb hr) (fun i hi => List.getElem?_append_left (by omega)) (r + 1) r
      (Nat.le_refl r) (by omega) fuel hfuel
  have hi := h'.inner ns.length (mergeNode a b) h.long (by simp)
  have hsz := h.size
  have hlen := hp.length_eq
  simp only [List.length_cons] at hlen
  have hns : Config.nsym = 257 := rfl
  have hsum : a.1 + (b.1 + (pq2.map (·.1)).sum) = totalCount f := by
    rw [← h.sum, (hp.map (·.1)).sum_eq]; simp
  obtain ⟨fz, fo, -⟩ := mergeNode_fields (a := a) (b := b) (by omega) (by omega) (by omega)
  have hroot : (leavesUnder (fun i => (ns ++ [mergeNode a b])[i]?) (ns.length + 1) ns.length).map (·.1) =
      (leavesUnder (fun i => ns[i]?) (a.2 + 1) a.2).map (·.1) ++ (leavesUnder (fun i => ns[i]?) (b.2 + 1) b.2).map (·.1) := by
    rw [leavesUnder_inner (x := mergeNode a b) (by simp) rfl, fz, fo, old a.2 _ la la, old b.2 _ lb lb]
    simp [Function.comp_def]
  have hrest : ∀ k ∈ pq2, (leavesUnder (fun i => (ns ++ [mergeNode a b])[i]?) (k.2 + 1) k.2).map (·.1) =
      (leavesUnder (fun i => ns[i]?) (k.2 + 1) k.2).map (·.1) := fun k hk => by
    rw [old k.2 (k.2 + 1) (hlt k (hp.mem_iff.mpr (by simp [hk]))) (by omega)]
  refine List.Perm.trans ?_ hc
  refine List.Perm.trans ?_ (hp.flatMap_right _).symm
  rw [List.flatMap_cons, hroot, List.flatMap_cons, List.flatMap_cons, List.append_assoc,
    List.flatMap_congr hrest]

/-- What the arena of a legal FREQ is: its root is the last entry, and the leaves under it are the present symbols. -/
theorem arena_covers {f : List (Nat × Count)} (hne : f ≠ []) (hw : Table.wf (0 : Count) Config.nsym f = true)
    (ht : totalCount f ≤ Config.countMax) : ∃ k, Forest f (arena f) [k] ∧ k.2 + 1 = (arena f).length ∧
      ((leavesUnder (fun i => (arena f)[i]?) (k.2 + 1) k.2).map (·.1)).Perm (f.map (·.1)) := by
  have hf := Table.length_le hw
  have hb : ∀ e ∈ f, e.1 < Config.nsym := fun e he => (Table.keys_sorted hw).2 _ (List.mem_map_of_mem he)
  obtain ⟨k, h, hc⟩ := arena_rule (P := fun ns pq => Forest f ns pq ∧ QueueCovers f ns pq) hne
    ⟨forest_start f, covers_start f hb⟩ fun _ _ _ _ h hs => ⟨forest_step hf ht h.1 hs, covers_step hf ht hb h.1 h.2 hs⟩
  refine ⟨k, h, ?_, by simpa [QueueCovers] using hc⟩
  obtain ⟨x, hx, -⟩ := h.queue k (by simp)
  have hk := (List.getElem?_eq_some_iff.mp hx).1
  refine Classical.byContradiction fun hne' => ?_
  obtain ⟨m, hm, y, hy, hj⟩ := h.merged ((arena f).length - 1) (by omega) (by simp; omega)
  have hi := h.inner m y hm hy
  have := (List.getElem?_eq_some_iff.mp hy).1
  have := hi.zero
  have := hi.one
  omega

/-- The leaves of the current tree. -/
def State.leaves (s : State) : List (Nat × List Bool) := leavesUnder (nodeAt s) Config.nodeMax s.root.toNat

/-- What TREE_VALID = 1 means of the entries that the machine reads. -/
structure State.TreeReads (s : State) : Prop where
  entry : ∀ i, i < s.nodes.toNat → nodeAt s i = s.node[i]?
  small : s.nodes.toNat ≤ Config.nodeMax
  size : s.nodes.toNat + 1 = 2 * s.freq.length
  root : s.root.toNat + 1 = s.nodes.toNat
  below : TreeBelow (nodeAt s) s.root.toNat
  covers : (s.leaves.map (·.1)).Perm (s.freq.map (·.1))
  forest : ∃ k, Forest s.freq s.node [k] ∧ k.2 = s.root.toNat

theorem treeReads {s : State} (hw : Table.wf (0 : Count) Config.nsym s.freq = true) (hv : s.treeValid = true)
    (h : s.TreeBuilt) : s.TreeReads := by
  obtain ⟨k, hF, hk, hp⟩ := arena_covers h.nonempty hw h.fits
  have hb : ∀ e ∈ s.freq, e.1 < Config.nsym := fun e he => (Table.keys_sorted hw).2 _ (List.mem_map_of_mem he)
  have hn := h.nodes
  have hr := h.root
  have hsz := hF.size
  have hl := Table.length_le hw
  have hc : Config.nsym = 257 := rfl
  have hm : Config.nodeMax = 513 := rfl
  simp only [List.length_singleton] at hsz
  have hsmall : s.nodes.toNat ≤ Config.nodeMax := by omega
  have hkr : k.2 = s.root.toNat := by omega
  have entry : ∀ i, i < s.nodes.toNat → nodeAt s i = s.node[i]? := fun i hi => by
    rw [nodeAt, if_pos (by omega), hv, decide_eq_true hi, h.node, List.getElem?_eq_getElem (by omega)]
    simp [List.getD_eq_getElem?_getD, List.getElem?_eq_getElem (show i < (arena s.freq).length by omega)]
  have ht := forest_treeBelow hF hb (root := s.root.toNat) (by omega)
  have below : TreeBelow (nodeAt s) s.root.toNat := fun m hm' => by
    rw [entry m (by omega), h.node]; exact ht m hm'
  refine ⟨entry, hsmall, by omega, hr, below, ?_, ⟨k, h.node ▸ hF, hkr⟩⟩
  rw [State.leaves, leavesUnder_congr ht (fun i hi => by rw [entry i (by omega), h.node]) (s.root.toNat + 1) _ (Nat.le_refl _)
    (by omega) _ (by omega), ← hkr]
  exact hp

/-- Under the invariant, with TREE_VALID = 1. -/
theorem State.Inv.reads {s : State} (h : s.Inv) (hv : s.treeValid = true) : s.TreeReads := treeReads h.freq hv (h.tree hv)

theorem leaves_nodup {s : State} (hw : Table.wf (0 : Count) Config.nsym s.freq = true) (h : s.TreeReads) :
    (s.leaves.map (·.1)).Nodup :=
  h.covers.nodup_iff.mpr ((Table.keys_sorted hw).1.imp fun h => Nat.ne_of_lt h)

/-- The code table of the current tree: every leaf's code, every other entry cleared. -/
theorem codeTable_eq {s : State} (h : s.TreeReads) : codeTable s =
    some (s.leaves.foldl (fun t p => Table.put t p.1 (codeBelow 0 0 p.2)) []) :=
  walk_eq h.below _ _ (Nat.le_refl _) (by have := h.root; have := h.small; omega) 0 0 []

theorem leaves_bound {s : State} (hw : Table.wf (0 : Count) Config.nsym s.freq = true) (h : s.TreeReads) :
    s.leaves.length = s.freq.length ∧ ∀ p ∈ s.leaves, p.1 < Config.nsym ∧ p.2.length + 1 ≤ s.freq.length ∧
      p.2.length ≤ 256 ∧ (p.2 = [] ↔ s.freq.length = 1) := by
  have hl : s.leaves.length = s.freq.length := by simpa using h.covers.length_eq
  refine ⟨hl, fun p hp => ?_⟩
  have hr := h.root
  have hs := h.small
  obtain ⟨a, b, c⟩ := leavesUnder_length h.below Config.nodeMax s.root.toNat (Nat.le_refl _) (by omega) p hp
  have hc : (leavesUnder (nodeAt s) Config.nodeMax s.root.toNat).length = s.freq.length := hl
  have := Table.length_le hw
  have hn : Config.nsym = 257 := rfl
  rw [hc] at b c
  exact ⟨a, b, by omega, c⟩

/-- The table that GEN_CODES writes, entry by entry. -/
theorem codeTable_entries {s : State} (hw : Table.wf (0 : Count) Config.nsym s.freq = true) (h : s.TreeReads) :
    ∃ t, codeTable s = some t ∧ Table.wf Code.cleared Config.nsym t = true ∧
      (∀ p ∈ s.leaves, Table.get Code.cleared t p.1 = codeBelow 0 0 p.2) ∧
      (∀ sym, freqAt s.freq sym = 0 → Table.get Code.cleared t sym = Code.cleared) := by
  have hn := leaves_nodup hw h
  refine ⟨_, codeTable_eq h, foldl_put_wf _ (fun p hp => ⟨((leaves_bound hw h).2 p hp).1, ?_⟩) [] rfl, fun p hp => ?_,
    fun sym hs => ?_⟩
  · simp [codeBelow, Code.cleared]
  · rw [foldl_put_get _ _ _ hn]
    cases hf : s.leaves.find? (fun q => q.1 == p.1) with
    | none => simpa using List.find?_eq_none.mp hf p hp
    | some q =>
      have he : q.1 = p.1 := by simpa using List.find?_some hf
      have : q = p := List.inj_on_of_nodup_map hn (List.mem_of_find?_eq_some hf) hp he
      rw [this]
  · rw [foldl_put_get _ _ _ hn]
    have : s.leaves.find? (fun q => q.1 == sym) = none := by
      rw [List.find?_eq_none]
      intro q hq e
      have hm : q.1 ∈ s.freq.map (·.1) := h.covers.mem_iff.mp (List.mem_map_of_mem hq)
      exact (Table.mem_keys_iff hw).mp hm (by simp at e; rw [e]; exact hs)
    rw [this]; rfl

/-- Every present symbol has its leaf. -/
theorem leaf_of_present {s : State} (hw : Table.wf (0 : Count) Config.nsym s.freq = true) (h : s.TreeReads) {sym : Nat}
    (hs : freqAt s.freq sym ≠ 0) : ∃ bs, (sym, bs) ∈ s.leaves := by
  have hm : sym ∈ s.leaves.map (·.1) := h.covers.mem_iff.mpr ((Table.mem_keys_iff hw).mpr hs)
  obtain ⟨p, hp, rfl⟩ := List.mem_map.mp hm
  exact ⟨p.2, hp⟩

/-- A node other than a leaf has its children among the nodes of the tree. -/
theorem State.TreeReads.children {s : State} (h : s.TreeReads) {m : Nat} {x : Node} (hm : m < s.nodes.toNat)
    (hx : nodeAt s m = some x) (hl : x.leaf = false) : x.zero.toNat < m ∧ x.one.toNat < m := by
  have hr := h.root
  obtain ⟨y, hy, -, hi⟩ := h.below m (by omega)
  rw [hx, Option.some.injEq] at hy
  subst hy
  exact hi hl

end Sys2Proof.Machine
end

