-- ==== Sys2Proof/Laws/State.lean ====
section
/-! SUPPORT. One lemma per field per update of State, true by rfl and used by simp, so that no later proof unfolds a
record update. -/

namespace Sys2Proof.Machine

@[simp] theorem raise_data (k : FaultKind) (w : Word) (s : State) : (raise k w s).data = s.data := rfl
@[simp] theorem raise_result0 (k : FaultKind) (w : Word) (s : State) : (raise k w s).result0 = s.result0 := rfl
@[simp] theorem raise_result1 (k : FaultKind) (w : Word) (s : State) : (raise k w s).result1 = s.result1 := rfl
@[simp] theorem raise_irqEn (k : FaultKind) (w : Word) (s : State) : (raise k w s).irqEn = s.irqEn := rfl
@[simp] theorem raise_done (k : FaultKind) (w : Word) (s : State) : (raise k w s).done = s.done := rfl
@[simp] theorem raise_fault (k : FaultKind) (w : Word) (s : State) : (raise k w s).fault = true := rfl
@[simp] theorem raise_faultCode (k : FaultKind) (w : Word) (s : State) : (raise k w s).faultCode = if s.fault then s.faultCode else k.code := rfl
@[simp] theorem raise_faultInfo (k : FaultKind) (w : Word) (s : State) : (raise k w s).faultInfo = if s.fault then s.faultInfo else w := rfl
@[simp] theorem raise_freq (k : FaultKind) (w : Word) (s : State) : (raise k w s).freq = s.freq := rfl
@[simp] theorem raise_node (k : FaultKind) (w : Word) (s : State) : (raise k w s).node = s.node := rfl
@[simp] theorem raise_root (k : FaultKind) (w : Word) (s : State) : (raise k w s).root = s.root := rfl
@[simp] theorem raise_nodes (k : FaultKind) (w : Word) (s : State) : (raise k w s).nodes = s.nodes := rfl
@[simp] theorem raise_treeValid (k : FaultKind) (w : Word) (s : State) : (raise k w s).treeValid = s.treeValid := rfl
@[simp] theorem raise_codesValid (k : FaultKind) (w : Word) (s : State) : (raise k w s).codesValid = s.codesValid := rfl
@[simp] theorem raise_code (k : FaultKind) (w : Word) (s : State) : (raise k w s).code = s.code := rfl
@[simp] theorem raise_bitinQ (k : FaultKind) (w : Word) (s : State) : (raise k w s).bitinQ = s.bitinQ := rfl
@[simp] theorem raise_eos (k : FaultKind) (w : Word) (s : State) : (raise k w s).eos = s.eos := rfl
@[simp] theorem raise_bitoutQ (k : FaultKind) (w : Word) (s : State) : (raise k w s).bitoutQ = s.bitoutQ := rfl
@[simp] theorem raise_eng (k : FaultKind) (w : Word) (s : State) : (raise k w s).eng = s.eng := rfl
@[simp] theorem raise_params (k : FaultKind) (w : Word) (s : State) : (raise k w s).params = s.params := rfl
@[simp] theorem raise_raised (k : FaultKind) (w : Word) (s : State) : (raise k w s).raised = (k, w) :: s.raised := rfl
@[simp] theorem raise_host (k : FaultKind) (w : Word) (s : State) : (raise k w s).host = s.host := rfl
@[simp] theorem raise_turns (k : FaultKind) (w : Word) (s : State) : (raise k w s).turns = s.turns := rfl
@[simp] theorem raise_freeCtr (k : FaultKind) (w : Word) (s : State) : (raise k w s).freeCtr = s.freeCtr := rfl

@[simp] theorem complete_data (s : State) : (complete s).data = s.data := rfl
@[simp] theorem complete_result0 (s : State) : (complete s).result0 = s.result0 := rfl
@[simp] theorem complete_result1 (s : State) : (complete s).result1 = s.result1 := rfl
@[simp] theorem complete_irqEn (s : State) : (complete s).irqEn = s.irqEn := rfl
@[simp] theorem complete_done (s : State) : (complete s).done = true := rfl
@[simp] theorem complete_fault (s : State) : (complete s).fault = s.fault := rfl
@[simp] theorem complete_faultCode (s : State) : (complete s).faultCode = s.faultCode := rfl
@[simp] theorem complete_faultInfo (s : State) : (complete s).faultInfo = s.faultInfo := rfl
@[simp] theorem complete_freq (s : State) : (complete s).freq = s.freq := rfl
@[simp] theorem complete_node (s : State) : (complete s).node = s.node := rfl
@[simp] theorem complete_root (s : State) : (complete s).root = s.root := rfl
@[simp] theorem complete_nodes (s : State) : (complete s).nodes = s.nodes := rfl
@[simp] theorem complete_treeValid (s : State) : (complete s).treeValid = s.treeValid := rfl
@[simp] theorem complete_codesValid (s : State) : (complete s).codesValid = s.codesValid := rfl
@[simp] theorem complete_code (s : State) : (complete s).code = s.code := rfl
@[simp] theorem complete_bitinQ (s : State) : (complete s).bitinQ = s.bitinQ := rfl
@[simp] theorem complete_eos (s : State) : (complete s).eos = s.eos := rfl
@[simp] theorem complete_bitoutQ (s : State) : (complete s).bitoutQ = s.bitoutQ := rfl
@[simp] theorem complete_eng (s : State) : (complete s).eng = .idle := rfl
@[simp] theorem complete_params (s : State) : (complete s).params = s.params := rfl
@[simp] theorem complete_raised (s : State) : (complete s).raised = s.raised := rfl
@[simp] theorem complete_host (s : State) : (complete s).host = s.host := rfl
@[simp] theorem complete_turns (s : State) : (complete s).turns = s.turns := rfl
@[simp] theorem complete_freeCtr (s : State) : (complete s).freeCtr = s.freeCtr := rfl

@[simp] theorem completeWith_data (a b : Word) (s : State) : (completeWith a b s).data = s.data := rfl
@[simp] theorem completeWith_result0 (a b : Word) (s : State) : (completeWith a b s).result0 = a := rfl
@[simp] theorem completeWith_result1 (a b : Word) (s : State) : (completeWith a b s).result1 = b := rfl
@[simp] theorem completeWith_irqEn (a b : Word) (s : State) : (completeWith a b s).irqEn = s.irqEn := rfl
@[simp] theorem completeWith_done (a b : Word) (s : State) : (completeWith a b s).done = true := rfl
@[simp] theorem completeWith_fault (a b : Word) (s : State) : (completeWith a b s).fault = s.fault := rfl
@[simp] theorem completeWith_faultCode (a b : Word) (s : State) : (completeWith a b s).faultCode = s.faultCode := rfl
@[simp] theorem completeWith_faultInfo (a b : Word) (s : State) : (completeWith a b s).faultInfo = s.faultInfo := rfl
@[simp] theorem completeWith_freq (a b : Word) (s : State) : (completeWith a b s).freq = s.freq := rfl
@[simp] theorem completeWith_node (a b : Word) (s : State) : (completeWith a b s).node = s.node := rfl
@[simp] theorem completeWith_root (a b : Word) (s : State) : (completeWith a b s).root = s.root := rfl
@[simp] theorem completeWith_nodes (a b : Word) (s : State) : (completeWith a b s).nodes = s.nodes := rfl
@[simp] theorem completeWith_treeValid (a b : Word) (s : State) : (completeWith a b s).treeValid = s.treeValid := rfl
@[simp] theorem completeWith_codesValid (a b : Word) (s : State) : (completeWith a b s).codesValid = s.codesValid := rfl
@[simp] theorem completeWith_code (a b : Word) (s : State) : (completeWith a b s).code = s.code := rfl
@[simp] theorem completeWith_bitinQ (a b : Word) (s : State) : (completeWith a b s).bitinQ = s.bitinQ := rfl
@[simp] theorem completeWith_eos (a b : Word) (s : State) : (completeWith a b s).eos = s.eos := rfl
@[simp] theorem completeWith_bitoutQ (a b : Word) (s : State) : (completeWith a b s).bitoutQ = s.bitoutQ := rfl
@[simp] theorem completeWith_eng (a b : Word) (s : State) : (completeWith a b s).eng = .idle := rfl
@[simp] theorem completeWith_params (a b : Word) (s : State) : (completeWith a b s).params = s.params := rfl
@[simp] theorem completeWith_raised (a b : Word) (s : State) : (completeWith a b s).raised = s.raised := rfl
@[simp] theorem completeWith_host (a b : Word) (s : State) : (completeWith a b s).host = s.host := rfl
@[simp] theorem completeWith_turns (a b : Word) (s : State) : (completeWith a b s).turns = s.turns := rfl
@[simp] theorem completeWith_freeCtr (a b : Word) (s : State) : (completeWith a b s).freeCtr = s.freeCtr := rfl

@[simp] theorem takeFault_data (k : FaultKind) (w : Word) (s : State) : (takeFault k w s).data = s.data := rfl
@[simp] theorem takeFault_result0 (k : FaultKind) (w : Word) (s : State) : (takeFault k w s).result0 = s.result0 := rfl
@[simp] theorem takeFault_result1 (k : FaultKind) (w : Word) (s : State) : (takeFault k w s).result1 = s.result1 := rfl
@[simp] theorem takeFault_irqEn (k : FaultKind) (w : Word) (s : State) : (takeFault k w s).irqEn = s.irqEn := rfl
@[simp] theorem takeFault_done (k : FaultKind) (w : Word) (s : State) : (takeFault k w s).done = true := rfl
@[simp] theorem takeFault_fault (k : FaultKind) (w : Word) (s : State) : (takeFault k w s).fault = true := rfl
@[simp] theorem takeFault_faultCode (k : FaultKind) (w : Word) (s : State) : (takeFault k w s).faultCode = if s.fault then s.faultCode else k.code := rfl
@[simp] theorem takeFault_faultInfo (k : FaultKind) (w : Word) (s : State) : (takeFault k w s).faultInfo = if s.fault then s.faultInfo else w := rfl
@[simp] theorem takeFault_freq (k : FaultKind) (w : Word) (s : State) : (takeFault k w s).freq = s.freq := rfl
@[simp] theorem takeFault_node (k : FaultKind) (w : Word) (s : State) : (takeFault k w s).node = s.node := rfl
@[simp] theorem takeFault_root (k : FaultKind) (w : Word) (s : State) : (takeFault k w s).root = s.root := rfl
@[simp] theorem takeFault_nodes (k : FaultKind) (w : Word) (s : State) : (takeFault k w s).nodes = s.nodes := rfl
@[simp] theorem takeFault_treeValid (k : FaultKind) (w : Word) (s : State) : (takeFault k w s).treeValid = s.treeValid := rfl
@[simp] theorem takeFault_codesValid (k : FaultKind) (w : Word) (s : State) : (takeFault k w s).codesValid = s.codesValid := rfl
@[simp] theorem takeFault_code (k : FaultKind) (w : Word) (s : State) : (takeFault k w s).code = s.code := rfl
@[simp] theorem takeFault_bitinQ (k : FaultKind) (w : Word) (s : State) : (takeFault k w s).bitinQ = s.bitinQ := rfl
@[simp] theorem takeFault_eos (k : FaultKind) (w : Word) (s : State) : (takeFault k w s).eos = s.eos := rfl
@[simp] theorem takeFault_bitoutQ (k : FaultKind) (w : Word) (s : State) : (takeFault k w s).bitoutQ = s.bitoutQ := rfl
@[simp] theorem takeFault_eng (k : FaultKind) (w : Word) (s : State) : (takeFault k w s).eng = .idle := rfl
@[simp] theorem takeFault_params (k : FaultKind) (w : Word) (s : State) : (takeFault k w s).params = s.params := rfl
@[simp] theorem takeFault_raised (k : FaultKind) (w : Word) (s : State) : (takeFault k w s).raised = (k, w) :: s.raised := rfl
@[simp] theorem takeFault_host (k : FaultKind) (w : Word) (s : State) : (takeFault k w s).host = s.host := rfl
@[simp] theorem takeFault_turns (k : FaultKind) (w : Word) (s : State) : (takeFault k w s).turns = s.turns := rfl
@[simp] theorem takeFault_freeCtr (k : FaultKind) (w : Word) (s : State) : (takeFault k w s).freeCtr = s.freeCtr := rfl

@[simp] theorem clearRecord_data (s : State) : (clearRecord s).data = s.data := rfl
@[simp] theorem clearRecord_result0 (s : State) : (clearRecord s).result0 = s.result0 := rfl
@[simp] theorem clearRecord_result1 (s : State) : (clearRecord s).result1 = s.result1 := rfl
@[simp] theorem clearRecord_irqEn (s : State) : (clearRecord s).irqEn = s.irqEn := rfl
@[simp] theorem clearRecord_done (s : State) : (clearRecord s).done = s.done := rfl
@[simp] theorem clearRecord_fault (s : State) : (clearRecord s).fault = false := rfl
@[simp] theorem clearRecord_faultCode (s : State) : (clearRecord s).faultCode = 0 := rfl
@[simp] theorem clearRecord_faultInfo (s : State) : (clearRecord s).faultInfo = 0 := rfl
@[simp] theorem clearRecord_freq (s : State) : (clearRecord s).freq = s.freq := rfl
@[simp] theorem clearRecord_node (s : State) : (clearRecord s).node = s.node := rfl
@[simp] theorem clearRecord_root (s : State) : (clearRecord s).root = s.root := rfl
@[simp] theorem clearRecord_nodes (s : State) : (clearRecord s).nodes = s.nodes := rfl
@[simp] theorem clearRecord_treeValid (s : State) : (clearRecord s).treeValid = s.treeValid := rfl
@[simp] theorem clearRecord_codesValid (s : State) : (clearRecord s).codesValid = s.codesValid := rfl
@[simp] theorem clearRecord_code (s : State) : (clearRecord s).code = s.code := rfl
@[simp] theorem clearRecord_bitinQ (s : State) : (clearRecord s).bitinQ = s.bitinQ := rfl
@[simp] theorem clearRecord_eos (s : State) : (clearRecord s).eos = s.eos := rfl
@[simp] theorem clearRecord_bitoutQ (s : State) : (clearRecord s).bitoutQ = s.bitoutQ := rfl
@[simp] theorem clearRecord_eng (s : State) : (clearRecord s).eng = s.eng := rfl
@[simp] theorem clearRecord_params (s : State) : (clearRecord s).params = s.params := rfl
@[simp] theorem clearRecord_raised (s : State) : (clearRecord s).raised = s.raised := rfl
@[simp] theorem clearRecord_host (s : State) : (clearRecord s).host = s.host := rfl
@[simp] theorem clearRecord_turns (s : State) : (clearRecord s).turns = s.turns := rfl
@[simp] theorem clearRecord_freeCtr (s : State) : (clearRecord s).freeCtr = s.freeCtr := rfl

@[simp] theorem invalidate_data (s : State) : (invalidate s).data = s.data := rfl
@[simp] theorem invalidate_result0 (s : State) : (invalidate s).result0 = s.result0 := rfl
@[simp] theorem invalidate_result1 (s : State) : (invalidate s).result1 = s.result1 := rfl
@[simp] theorem invalidate_irqEn (s : State) : (invalidate s).irqEn = s.irqEn := rfl
@[simp] theorem invalidate_done (s : State) : (invalidate s).done = s.done := rfl
@[simp] theorem invalidate_fault (s : State) : (invalidate s).fault = s.fault := rfl
@[simp] theorem invalidate_faultCode (s : State) : (invalidate s).faultCode = s.faultCode := rfl
@[simp] theorem invalidate_faultInfo (s : State) : (invalidate s).faultInfo = s.faultInfo := rfl
@[simp] theorem invalidate_freq (s : State) : (invalidate s).freq = s.freq := rfl
@[simp] theorem invalidate_node (s : State) : (invalidate s).node = s.node := rfl
@[simp] theorem invalidate_root (s : State) : (invalidate s).root = s.root := rfl
@[simp] theorem invalidate_nodes (s : State) : (invalidate s).nodes = s.nodes := rfl
@[simp] theorem invalidate_treeValid (s : State) : (invalidate s).treeValid = false := rfl
@[simp] theorem invalidate_codesValid (s : State) : (invalidate s).codesValid = false := rfl
@[simp] theorem invalidate_code (s : State) : (invalidate s).code = s.code := rfl
@[simp] theorem invalidate_bitinQ (s : State) : (invalidate s).bitinQ = s.bitinQ := rfl
@[simp] theorem invalidate_eos (s : State) : (invalidate s).eos = s.eos := rfl
@[simp] theorem invalidate_bitoutQ (s : State) : (invalidate s).bitoutQ = s.bitoutQ := rfl
@[simp] theorem invalidate_eng (s : State) : (invalidate s).eng = s.eng := rfl
@[simp] theorem invalidate_params (s : State) : (invalidate s).params = s.params := rfl
@[simp] theorem invalidate_raised (s : State) : (invalidate s).raised = s.raised := rfl
@[simp] theorem invalidate_host (s : State) : (invalidate s).host = s.host := rfl
@[simp] theorem invalidate_turns (s : State) : (invalidate s).turns = s.turns := rfl
@[simp] theorem invalidate_freeCtr (s : State) : (invalidate s).freeCtr = s.freeCtr := rfl

@[simp] theorem emptyStreams_data (s : State) : (emptyStreams s).data = s.data := rfl
@[simp] theorem emptyStreams_result0 (s : State) : (emptyStreams s).result0 = s.result0 := rfl
@[simp] theorem emptyStreams_result1 (s : State) : (emptyStreams s).result1 = s.result1 := rfl
@[simp] theorem emptyStreams_irqEn (s : State) : (emptyStreams s).irqEn = s.irqEn := rfl
@[simp] theorem emptyStreams_done (s : State) : (emptyStreams s).done = s.done := rfl
@[simp] theorem emptyStreams_fault (s : State) : (emptyStreams s).fault = s.fault := rfl
@[simp] theorem emptyStreams_faultCode (s : State) : (emptyStreams s).faultCode = s.faultCode := rfl
@[simp] theorem emptyStreams_faultInfo (s : State) : (emptyStreams s).faultInfo = s.faultInfo := rfl
@[simp] theorem emptyStreams_freq (s : State) : (emptyStreams s).freq = s.freq := rfl
@[simp] theorem emptyStreams_node (s : State) : (emptyStreams s).node = s.node := rfl
@[simp] theorem emptyStreams_root (s : State) : (emptyStreams s).root = s.root := rfl
@[simp] theorem emptyStreams_nodes (s : State) : (emptyStreams s).nodes = s.nodes := rfl
@[simp] theorem emptyStreams_treeValid (s : State) : (emptyStreams s).treeValid = s.treeValid := rfl
@[simp] theorem emptyStreams_codesValid (s : State) : (emptyStreams s).codesValid = s.codesValid := rfl
@[simp] theorem emptyStreams_code (s : State) : (emptyStreams s).code = s.code := rfl
@[simp] theorem emptyStreams_bitinQ (s : State) : (emptyStreams s).bitinQ = [] := rfl
@[simp] theorem emptyStreams_eos (s : State) : (emptyStreams s).eos = false := rfl
@[simp] theorem emptyStreams_bitoutQ (s : State) : (emptyStreams s).bitoutQ = [] := rfl
@[simp] theorem emptyStreams_eng (s : State) : (emptyStreams s).eng = s.eng := rfl
@[simp] theorem emptyStreams_params (s : State) : (emptyStreams s).params = s.params := rfl
@[simp] theorem emptyStreams_raised (s : State) : (emptyStreams s).raised = s.raised := rfl
@[simp] theorem emptyStreams_host (s : State) : (emptyStreams s).host = s.host := rfl
@[simp] theorem emptyStreams_turns (s : State) : (emptyStreams s).turns = s.turns := rfl
@[simp] theorem emptyStreams_freeCtr (s : State) : (emptyStreams s).freeCtr = s.freeCtr := rfl

@[simp] theorem blockReset_data (s : State) : (blockReset s).data = 0 := rfl
@[simp] theorem blockReset_result0 (s : State) : (blockReset s).result0 = 0 := rfl
@[simp] theorem blockReset_result1 (s : State) : (blockReset s).result1 = 0 := rfl
@[simp] theorem blockReset_irqEn (s : State) : (blockReset s).irqEn = 0 := rfl
@[simp] theorem blockReset_done (s : State) : (blockReset s).done = false := rfl
@[simp] theorem blockReset_fault (s : State) : (blockReset s).fault = false := rfl
@[simp] theorem blockReset_faultCode (s : State) : (blockReset s).faultCode = 0 := rfl
@[simp] theorem blockReset_faultInfo (s : State) : (blockReset s).faultInfo = 0 := rfl
@[simp] theorem blockReset_freq (s : State) : (blockReset s).freq = [] := rfl
@[simp] theorem blockReset_node (s : State) : (blockReset s).node = [] := rfl
@[simp] theorem blockReset_root (s : State) : (blockReset s).root = 0 := rfl
@[simp] theorem blockReset_nodes (s : State) : (blockReset s).nodes = 0 := rfl
@[simp] theorem blockReset_treeValid (s : State) : (blockReset s).treeValid = false := rfl
@[simp] theorem blockReset_codesValid (s : State) : (blockReset s).codesValid = false := rfl
@[simp] theorem blockReset_code (s : State) : (blockReset s).code = [] := rfl
@[simp] theorem blockReset_bitinQ (s : State) : (blockReset s).bitinQ = [] := rfl
@[simp] theorem blockReset_eos (s : State) : (blockReset s).eos = false := rfl
@[simp] theorem blockReset_bitoutQ (s : State) : (blockReset s).bitoutQ = [] := rfl
@[simp] theorem blockReset_eng (s : State) : (blockReset s).eng = .idle := rfl
@[simp] theorem blockReset_params (s : State) : (blockReset s).params = s.params := rfl
@[simp] theorem blockReset_raised (s : State) : (blockReset s).raised = s.raised := rfl
@[simp] theorem blockReset_host (s : State) : (blockReset s).host = s.host := rfl
@[simp] theorem blockReset_turns (s : State) : (blockReset s).turns = s.turns := rfl
@[simp] theorem blockReset_freeCtr (s : State) : (blockReset s).freeCtr = s.freeCtr := rfl

@[simp] theorem setProg_data (p : List HostOp) (s : State) : (setProg p s).data = s.data := rfl
@[simp] theorem setProg_result0 (p : List HostOp) (s : State) : (setProg p s).result0 = s.result0 := rfl
@[simp] theorem setProg_result1 (p : List HostOp) (s : State) : (setProg p s).result1 = s.result1 := rfl
@[simp] theorem setProg_irqEn (p : List HostOp) (s : State) : (setProg p s).irqEn = s.irqEn := rfl
@[simp] theorem setProg_done (p : List HostOp) (s : State) : (setProg p s).done = s.done := rfl
@[simp] theorem setProg_fault (p : List HostOp) (s : State) : (setProg p s).fault = s.fault := rfl
@[simp] theorem setProg_faultCode (p : List HostOp) (s : State) : (setProg p s).faultCode = s.faultCode := rfl
@[simp] theorem setProg_faultInfo (p : List HostOp) (s : State) : (setProg p s).faultInfo = s.faultInfo := rfl
@[simp] theorem setProg_freq (p : List HostOp) (s : State) : (setProg p s).freq = s.freq := rfl
@[simp] theorem setProg_node (p : List HostOp) (s : State) : (setProg p s).node = s.node := rfl
@[simp] theorem setProg_root (p : List HostOp) (s : State) : (setProg p s).root = s.root := rfl
@[simp] theorem setProg_nodes (p : List HostOp) (s : State) : (setProg p s).nodes = s.nodes := rfl
@[simp] theorem setProg_treeValid (p : List HostOp) (s : State) : (setProg p s).treeValid = s.treeValid := rfl
@[simp] theorem setProg_codesValid (p : List HostOp) (s : State) : (setProg p s).codesValid = s.codesValid := rfl
@[simp] theorem setProg_code (p : List HostOp) (s : State) : (setProg p s).code = s.code := rfl
@[simp] theorem setProg_bitinQ (p : List HostOp) (s : State) : (setProg p s).bitinQ = s.bitinQ := rfl
@[simp] theorem setProg_eos (p : List HostOp) (s : State) : (setProg p s).eos = s.eos := rfl
@[simp] theorem setProg_bitoutQ (p : List HostOp) (s : State) : (setProg p s).bitoutQ = s.bitoutQ := rfl
@[simp] theorem setProg_eng (p : List HostOp) (s : State) : (setProg p s).eng = s.eng := rfl
@[simp] theorem setProg_params (p : List HostOp) (s : State) : (setProg p s).params = s.params := rfl
@[simp] theorem setProg_raised (p : List HostOp) (s : State) : (setProg p s).raised = s.raised := rfl
@[simp] theorem setProg_host (p : List HostOp) (s : State) : (setProg p s).host = { s.host with prog := p } := rfl
@[simp] theorem setProg_turns (p : List HostOp) (s : State) : (setProg p s).turns = s.turns := rfl
@[simp] theorem setProg_freeCtr (p : List HostOp) (s : State) : (setProg p s).freeCtr = s.freeCtr := rfl

@[simp] theorem received_data (w : Word) (v : HostVar) (s : State) : (received w v s).data = s.data := rfl
@[simp] theorem received_result0 (w : Word) (v : HostVar) (s : State) : (received w v s).result0 = s.result0 := rfl
@[simp] theorem received_result1 (w : Word) (v : HostVar) (s : State) : (received w v s).result1 = s.result1 := rfl
@[simp] theorem received_irqEn (w : Word) (v : HostVar) (s : State) : (received w v s).irqEn = s.irqEn := rfl
@[simp] theorem received_done (w : Word) (v : HostVar) (s : State) : (received w v s).done = s.done := rfl
@[simp] theorem received_fault (w : Word) (v : HostVar) (s : State) : (received w v s).fault = s.fault := rfl
@[simp] theorem received_faultCode (w : Word) (v : HostVar) (s : State) : (received w v s).faultCode = s.faultCode := rfl
@[simp] theorem received_faultInfo (w : Word) (v : HostVar) (s : State) : (received w v s).faultInfo = s.faultInfo := rfl
@[simp] theorem received_freq (w : Word) (v : HostVar) (s : State) : (received w v s).freq = s.freq := rfl
@[simp] theorem received_node (w : Word) (v : HostVar) (s : State) : (received w v s).node = s.node := rfl
@[simp] theorem received_root (w : Word) (v : HostVar) (s : State) : (received w v s).root = s.root := rfl
@[simp] theorem received_nodes (w : Word) (v : HostVar) (s : State) : (received w v s).nodes = s.nodes := rfl
@[simp] theorem received_treeValid (w : Word) (v : HostVar) (s : State) : (received w v s).treeValid = s.treeValid := rfl
@[simp] theorem received_codesValid (w : Word) (v : HostVar) (s : State) : (received w v s).codesValid = s.codesValid := rfl
@[simp] theorem received_code (w : Word) (v : HostVar) (s : State) : (received w v s).code = s.code := rfl
@[simp] theorem received_bitinQ (w : Word) (v : HostVar) (s : State) : (received w v s).bitinQ = s.bitinQ := rfl
@[simp] theorem received_eos (w : Word) (v : HostVar) (s : State) : (received w v s).eos = s.eos := rfl
@[simp] theorem received_bitoutQ (w : Word) (v : HostVar) (s : State) : (received w v s).bitoutQ = s.bitoutQ := rfl
@[simp] theorem received_eng (w : Word) (v : HostVar) (s : State) : (received w v s).eng = s.eng := rfl
@[simp] theorem received_params (w : Word) (v : HostVar) (s : State) : (received w v s).params = s.params := rfl
@[simp] theorem received_raised (w : Word) (v : HostVar) (s : State) : (received w v s).raised = s.raised := rfl
@[simp] theorem received_host (w : Word) (v : HostVar) (s : State) : (received w v s).host = v.set w { s.host with reads := w :: s.host.reads } := rfl
@[simp] theorem received_turns (w : Word) (v : HostVar) (s : State) : (received w v s).turns = s.turns := rfl
@[simp] theorem received_freeCtr (w : Word) (v : HostVar) (s : State) : (received w v s).freeCtr = s.freeCtr := rfl

@[simp] theorem dropTurn_data (s : State) : (dropTurn s).data = s.data := rfl
@[simp] theorem dropTurn_result0 (s : State) : (dropTurn s).result0 = s.result0 := rfl
@[simp] theorem dropTurn_result1 (s : State) : (dropTurn s).result1 = s.result1 := rfl
@[simp] theorem dropTurn_irqEn (s : State) : (dropTurn s).irqEn = s.irqEn := rfl
@[simp] theorem dropTurn_done (s : State) : (dropTurn s).done = s.done := rfl
@[simp] theorem dropTurn_fault (s : State) : (dropTurn s).fault = s.fault := rfl
@[simp] theorem dropTurn_faultCode (s : State) : (dropTurn s).faultCode = s.faultCode := rfl
@[simp] theorem dropTurn_faultInfo (s : State) : (dropTurn s).faultInfo = s.faultInfo := rfl
@[simp] theorem dropTurn_freq (s : State) : (dropTurn s).freq = s.freq := rfl
@[simp] theorem dropTurn_node (s : State) : (dropTurn s).node = s.node := rfl
@[simp] theorem dropTurn_root (s : State) : (dropTurn s).root = s.root := rfl
@[simp] theorem dropTurn_nodes (s : State) : (dropTurn s).nodes = s.nodes := rfl
@[simp] theorem dropTurn_treeValid (s : State) : (dropTurn s).treeValid = s.treeValid := rfl
@[simp] theorem dropTurn_codesValid (s : State) : (dropTurn s).codesValid = s.codesValid := rfl
@[simp] theorem dropTurn_code (s : State) : (dropTurn s).code = s.code := rfl
@[simp] theorem dropTurn_bitinQ (s : State) : (dropTurn s).bitinQ = s.bitinQ := rfl
@[simp] theorem dropTurn_eos (s : State) : (dropTurn s).eos = s.eos := rfl
@[simp] theorem dropTurn_bitoutQ (s : State) : (dropTurn s).bitoutQ = s.bitoutQ := rfl
@[simp] theorem dropTurn_eng (s : State) : (dropTurn s).eng = s.eng := rfl
@[simp] theorem dropTurn_params (s : State) : (dropTurn s).params = s.params := rfl
@[simp] theorem dropTurn_raised (s : State) : (dropTurn s).raised = s.raised := rfl
@[simp] theorem dropTurn_host (s : State) : (dropTurn s).host = s.host := rfl
@[simp] theorem dropTurn_turns (s : State) : (dropTurn s).turns = s.turns.tail := rfl
@[simp] theorem dropTurn_freeCtr (s : State) : (dropTurn s).freeCtr = s.freeCtr := rfl

@[simp] theorem resetWith_data (p : Params) : (State.resetWith p).data = 0 := rfl
@[simp] theorem resetWith_result0 (p : Params) : (State.resetWith p).result0 = 0 := rfl
@[simp] theorem resetWith_result1 (p : Params) : (State.resetWith p).result1 = 0 := rfl
@[simp] theorem resetWith_irqEn (p : Params) : (State.resetWith p).irqEn = 0 := rfl
@[simp] theorem resetWith_done (p : Params) : (State.resetWith p).done = false := rfl
@[simp] theorem resetWith_fault (p : Params) : (State.resetWith p).fault = false := rfl
@[simp] theorem resetWith_faultCode (p : Params) : (State.resetWith p).faultCode = 0 := rfl
@[simp] theorem resetWith_faultInfo (p : Params) : (State.resetWith p).faultInfo = 0 := rfl
@[simp] theorem resetWith_freq (p : Params) : (State.resetWith p).freq = [] := rfl
@[simp] theorem resetWith_node (p : Params) : (State.resetWith p).node = [] := rfl
@[simp] theorem resetWith_root (p : Params) : (State.resetWith p).root = 0 := rfl
@[simp] theorem resetWith_nodes (p : Params) : (State.resetWith p).nodes = 0 := rfl
@[simp] theorem resetWith_treeValid (p : Params) : (State.resetWith p).treeValid = false := rfl
@[simp] theorem resetWith_codesValid (p : Params) : (State.resetWith p).codesValid = false := rfl
@[simp] theorem resetWith_code (p : Params) : (State.resetWith p).code = [] := rfl
@[simp] theorem resetWith_bitinQ (p : Params) : (State.resetWith p).bitinQ = [] := rfl
@[simp] theorem resetWith_eos (p : Params) : (State.resetWith p).eos = false := rfl
@[simp] theorem resetWith_bitoutQ (p : Params) : (State.resetWith p).bitoutQ = [] := rfl
@[simp] theorem resetWith_eng (p : Params) : (State.resetWith p).eng = .idle := rfl
@[simp] theorem resetWith_params (p : Params) : (State.resetWith p).params = p := rfl
@[simp] theorem resetWith_raised (p : Params) : (State.resetWith p).raised = [] := rfl
@[simp] theorem resetWith_host (p : Params) : (State.resetWith p).host = .start := rfl
@[simp] theorem resetWith_turns (p : Params) : (State.resetWith p).turns = [] := rfl
@[simp] theorem resetWith_freeCtr (p : Params) : (State.resetWith p).freeCtr = 0 := rfl

@[simp] theorem reset_eq : State.reset = State.resetWith .chosen := rfl

end Sys2Proof.Machine
end

