-- ==== Sys2Proof/Laws/Ops.lean ====
section
/-! SUPPORT. For each shared operation, one lemma that says once everything it can do. -/

namespace Sys2Proof.Machine

/-- Everything a CMD write can do (10_state.md R44). -/
theorem issue_cases (w : Word) (s : State) :
    (s.eng ≠ .idle ∧ issue w s = raise .busyOverrun w s) ∨
    (s.eng = .idle ∧ (s.fault = true ∧ bits w 7 0 ≠ 0x00 ∧ bits w 7 0 ≠ 0x7F) ∧ issue w s = { s with done := true }) ∨
    (s.eng = .idle ∧ ¬(s.fault = true ∧ bits w 7 0 ≠ 0x00 ∧ bits w 7 0 ≠ 0x7F) ∧
      issue w s = { s with done := false, eng := .pend w s.data }) := by
  unfold issue
  split
  · exact .inl ⟨‹_›, rfl⟩
  · rename_i hne
    have hi : s.eng = .idle := not_not.mp hne
    split
    · exact .inr (.inl ⟨hi, ‹_›, rfl⟩)
    · exact .inr (.inr ⟨hi, ‹_›, rfl⟩)

/-- Everything a BITIN write can do (44_stream_codec.md R114). -/
theorem bitinWrite_cases (v : Word) (s : State) :
    (v.getLsbD 1 = true ∧ bitinWrite v s = { s with eos := true }) ∨
    (v.getLsbD 1 = false ∧ s.bitinQ.length < s.params.bitinDepth ∧
      bitinWrite v s = { s with bitinQ := s.bitinQ ++ [v.getLsbD 0] }) ∨
    (v.getLsbD 1 = false ∧ s.params.bitinDepth ≤ s.bitinQ.length ∧ bitinWrite v s = raise .bitinOverflow v s) := by
  unfold bitinWrite
  cases h : v.getLsbD 1
  · by_cases hq : s.bitinQ.length < s.params.bitinDepth
    · exact .inr (.inl ⟨rfl, hq, by simp [hq]⟩)
    · exact .inr (.inr ⟨rfl, by omega, by simp [hq]⟩)
  · exact .inl ⟨rfl, by simp⟩

/-- The state after a BITOUT read: the head is gone, nothing else changes (44_stream_codec.md R115). -/
theorem bitoutRead_snd (s : State) : (bitoutRead s).2 = { s with bitoutQ := s.bitoutQ.tail } := by
  unfold bitoutRead
  split
  · rename_i h
    cases s; cases h; rfl
  · rename_i h
    simp [h]

/-- A register read changes BITOUT_Q alone, and only a BITOUT read does (20_memory.md R55). -/
theorem regRead_snd (r : Reg) (s : State) :
    (regRead r s).2 = if r = .bitout then { s with bitoutQ := s.bitoutQ.tail } else s := by
  cases r <;> simp [regRead, bitoutRead_snd]

/-- Everything a register write can do (20_memory.md R56). -/
theorem regWrite_cases (r : Reg) (v : Word) (s : State) :
    regWrite r v s = s ∨
    (r = .ctrl ∧ v.getLsbD 0 = true ∧ regWrite r v s = blockReset s) ∨
    (r = .cmd ∧ regWrite r v s = issue v s) ∨
    (r = .status ∧ v.getLsbD 1 = true ∧ regWrite r v s = { s with done := false }) ∨
    (r = .data ∧ regWrite r v s = { s with data := v }) ∨
    (r = .bitin ∧ regWrite r v s = bitinWrite v s) ∨
    (r = .irqEn ∧ regWrite r v s = { s with irqEn := v.setWidth 2 }) := by
  cases r <;> simp [regWrite]
  · cases h : v[0] <;> simp
  · cases h : v[1] <;> simp

/-- A register write does not look at the host, and leaves it as it is. -/
theorem regWrite_withHost (r : Reg) (v : Word) (s : State) (h : HostAgent) :
    regWrite r v { s with host := h } = { regWrite r v s with host := h } := by
  cases r <;> simp only [regWrite, issue, bitinWrite] <;> (repeat' split) <;> rfl

@[simp] theorem regWrite_host (r : Reg) (v : Word) (s : State) : (regWrite r v s).host = s.host := by
  cases r <;> simp only [regWrite, issue, bitinWrite] <;> (repeat' split) <;> rfl

@[simp] theorem regWrite_turns (r : Reg) (v : Word) (s : State) : (regWrite r v s).turns = s.turns := by
  cases r <;> simp only [regWrite, issue, bitinWrite] <;> (repeat' split) <;> rfl

@[simp] theorem regWrite_params (r : Reg) (v : Word) (s : State) : (regWrite r v s).params = s.params := by
  cases r <;> simp only [regWrite, issue, bitinWrite] <;> (repeat' split) <;> rfl

@[simp] theorem regWrite_freeCtr (r : Reg) (v : Word) (s : State) : (regWrite r v s).freeCtr = s.freeCtr := by
  cases r <;> simp only [regWrite, issue, bitinWrite] <;> (repeat' split) <;> rfl

/-- What a read returns does not depend on the host, and what it leaves is the host's as it was. -/
theorem regRead_withHost (r : Reg) (s : State) (a : HostAgent) :
    regRead r { s with host := a } = ((regRead r s).1, { (regRead r s).2 with host := a }) := by
  cases r <;> try rfl
  cases h : s.bitoutQ <;> simp [regRead, bitoutRead, h]

/-! The fields of STATUS that the host tests (R26). -/

theorem statusWord_busy (s : State) : (statusWord s).getLsbD 0 = busy s := by
  unfold statusWord
  repeat rw [BitVec.getLsbD_append]
  simp

theorem statusWord_fault (s : State) : (statusWord s).getLsbD 2 = s.fault := by
  unfold statusWord
  repeat rw [BitVec.getLsbD_append]
  simp

theorem statusWord_hold (s : State) : (statusWord s).getLsbD 5 = hold s := by
  unfold statusWord
  repeat rw [BitVec.getLsbD_append]
  simp

theorem statusWord_code (s : State) : (statusWord s).extractLsb' 8 4 = faultCodeShown s := by
  apply BitVec.eq_of_getLsbD_eq
  intro i hi
  unfold statusWord
  rw [BitVec.getLsbD_extractLsb']
  repeat rw [BitVec.getLsbD_append]
  simp [hi]

end Sys2Proof.Machine
end

