-- ==== Sys2Proof/Laws/Host.lean ====
section
/-! SUPPORT. Everything a host turn can do to the block: nothing, a BITOUT read or one register write (00_scope.md
R13). -/

namespace Sys2Proof.Machine

theorem endOutcome_fault {o : HostOutcome} {s : State} (h : s.fault = true) : endOutcome o s = .failed s.faultCode := by
  simp [endOutcome, h]

theorem endOutcome_noFault {o : HostOutcome} {s : State} (h : s.fault = false) : endOutcome o s = o := by
  simp [endOutcome, h]

/-- A host read and the rest of the program are set in either order. -/
theorem hostRead_setProg (r : Reg) (v : HostVar) (p : List HostOp) (s : State) :
    hostRead r v (setProg p s) = setProg p (hostRead r v s) := by
  simp only [hostRead, setProg, regRead_withHost, received]
  cases v <;> cases r <;>
    first | rfl | (cases h : s.bitoutQ <;> simp [regRead, bitoutRead, h, HostVar.set])

/-- What one register access can leave: nothing changed, BITOUT_Q without its head, or one register written. -/
def HostEffect (s u : State) : Prop := u = s ∨ u = { s with bitoutQ := s.bitoutQ.tail } ∨ ∃ r v, u = regWrite r v s

/-- The state `t` is `u` but for the host and the counter of free values. -/
def SameBlock (u t : State) : Prop := ∃ h c, t = { u with host := h, freeCtr := c }

theorem hostEffect_read (r : Reg) (s : State) : HostEffect s (regRead r s).2 := by
  rw [regRead_snd]
  split
  · exact .inr (.inl rfl)
  · exact .inl rfl

/-- A host turn's effect on the block is one register access or none. -/
def TurnEffect (s t : State) : Prop := ∃ u, HostEffect s u ∧ SameBlock u t

theorem turnEffect_same {s t : State} (h : ∃ a c, t = { s with host := a, freeCtr := c }) : TurnEffect s t :=
  ⟨s, .inl rfl, h⟩

theorem turnEffect_read (r : Reg) (v : HostVar) (s : State) (a : HostAgent) : TurnEffect s { hostRead r v s with host := a } :=
  ⟨_, hostEffect_read r s, a, (regRead r s).2.freeCtr, rfl⟩

theorem turnEffect_read_prog (r : Reg) (v : HostVar) (p : List HostOp) (s : State) (a : HostAgent) :
    TurnEffect s { hostRead r v (setProg p s) with host := a } := by
  refine ⟨_, hostEffect_read r s, a, s.freeCtr, ?_⟩
  simp only [hostRead, received, regRead_snd, setProg]
  split <;> rfl

theorem turnEffect_write (r : Reg) (v : Word) (s : State) (a : HostAgent) : TurnEffect s (regWrite r v { s with host := a }) :=
  ⟨_, .inr (.inr ⟨r, v, rfl⟩), a, (regWrite r v s).freeCtr, regWrite_withHost r v s a⟩

/-- A bus access is one register access, or none of the block's. -/
theorem busAccess_effect {a : Access} {p : List HostOp} {s t : State} (h : busAccess a (setProg p s) = .next t) :
    TurnEffect s t := by
  cases a with
  | read addr width =>
    simp only [busAccess] at h
    repeat' split at h
    all_goals first | (cases h; done) | skip
    · cases h; exact turnEffect_read_prog _ .x p s _
    · cases h; exact turnEffect_same ⟨_, _, rfl⟩
  | write addr width v =>
    simp only [busAccess] at h
    repeat' split at h
    all_goals first | (cases h; done) | skip
    · cases h; exact turnEffect_write _ v s _
    · cases h; exact turnEffect_same ⟨_, s.freeCtr, rfl⟩

/-- Everything a line of a host program can do to the block. -/
theorem hostLine_effect {op : HostOp} {rest : List HostOp} {s t : State} (h : hostLine op rest s = .next t) :
    TurnEffect s t := by
  cases op with
  | access a => exact busAccess_effect h
  | wr r v => cases h; exact turnEffect_write r v s _
  | rd r v => cases h; exact turnEffect_read_prog r v rest s _
  | setData v =>
    simp only [hostLine] at h
    split at h
    · cases h; exact turnEffect_write _ _ s _
    · cases h
  | cmd i =>
    simp only [hostLine] at h
    split at h
    · cases h; exact turnEffect_write _ _ s _
    · cases h
  | poll =>
    simp only [hostLine] at h
    split at h <;> cases h
    · exact turnEffect_read .status .st s _
    · exact turnEffect_read .status .st s _
  | waitIrq =>
    simp only [hostLine] at h
    split at h <;> cases h <;> exact turnEffect_same ⟨_, s.freeCtr, rfl⟩
  | check =>
    simp only [hostLine] at h
    split at h <;> cases h <;> exact turnEffect_read .status .st s _
  | emitStatus => cases h; exact turnEffect_read_prog .status .st (.emitDrain :: rest) s _
  | emitDrain =>
    simp only [hostLine] at h
    repeat' split at h
    all_goals cases h; exact turnEffect_read .bitout .x s _
  | decFeed =>
    simp only [hostLine] at h
    repeat' split at h
    all_goals cases h; exact turnEffect_read .status .st s _
  | decSupply =>
    simp only [hostLine] at h
    split at h <;> cases h <;> exact turnEffect_write _ _ s _
  | decTest => cases h; exact turnEffect_same ⟨_, s.freeCtr, rfl⟩
  | readPair sym =>
    simp only [hostLine] at h
    split at h <;> cases h <;> exact turnEffect_read_prog .result0 .c rest s _
  | renderHeader => cases h; exact turnEffect_same ⟨_, s.freeCtr, rfl⟩
  | serialize => cases h; exact turnEffect_same ⟨_, s.freeCtr, rfl⟩
  | clearOut => cases h; exact turnEffect_same ⟨_, s.freeCtr, rfl⟩
  | compress input => cases h; exact turnEffect_same ⟨_, s.freeCtr, rfl⟩
  | decompress b ins =>
    simp only [hostLine] at h
    split at h <;> cases h
    exact turnEffect_same ⟨_, s.freeCtr, rfl⟩
  | finish => cases h; exact turnEffect_same ⟨_, s.freeCtr, rfl⟩

/-- Everything a host turn can do to the block. -/
theorem hostTurn_effect {s t : State} (h : hostTurn s = .next t) : TurnEffect s t := by
  unfold hostTurn at h
  split at h
  · cases h
  · split at h
    · cases h; exact turnEffect_same ⟨_, s.freeCtr, rfl⟩
    · exact hostLine_effect h

/-- A host turn never stops with a fault of the model. -/
theorem hostTurn_ne_fault (s : State) (f : Fault) : hostTurn s ≠ .fault f := by
  unfold hostTurn
  split
  · simp
  · split
    · simp
    · rename_i op rest _
      cases op <;> simp only [hostLine, busAccess] <;> (repeat' split) <;> simp

end Sys2Proof.Machine
end

