-- ==== Sys2Proof/Laws/Commands.lean ====
section
/-! SUPPORT. Everything a command can do: it takes a fault, or it has the one effect its rule gives it; and the same for
the bit steps of ENCODE and DECODE and for an engine step. -/

namespace Sys2Proof.Machine

/-- The effect of a command that takes no fault, from `s` to `t`, with what it has checked. -/
def Effect (i : Instr) (s t : State) : Prop :=
  match i with
  | .nop => t = complete s
  | .clearFreq => t = complete (invalidate { s with freq := [] })
  | .count sym => sym ≤ 256 ∧ (freqAt s.freq sym).toNat ≠ Config.countMax ∧
      t = completeWith (freqAt s.freq sym + 1) 0 (invalidate { s with freq := freqPut s.freq sym (freqAt s.freq sym + 1) })
  | .writeFreq sym => sym ≤ 256 ∧ t = complete (invalidate { s with freq := freqPut s.freq sym (latched s) })
  | .readFreq sym => sym ≤ 256 ∧ t = completeWith (freqAt s.freq sym) 0 s
  | .buildTree => s.freq ≠ [] ∧ totalCount s.freq ≤ Config.countMax ∧ ∃ total,
      t = completeWith total
        (treeWord (BitVec.ofNat 10 (arena s.freq).length) (BitVec.ofNat 10 ((arena s.freq).length - 1)))
        { s with
          node := arena s.freq
          root := BitVec.ofNat 10 ((arena s.freq).length - 1)
          nodes := BitVec.ofNat 10 (arena s.freq).length
          treeValid := true
          codesValid := false }
  | .readNode idx => s.treeValid = true ∧ idx < s.nodes.toNat ∧ ∃ x, nodeAt s idx = some x ∧
      t = completeWith x.count (nodeWord x) s
  | .genCodes => s.treeValid = true ∧ ∃ c, codeTable s = some c ∧
      t = completeWith (BitVec.ofNat 32 (codeCount c)) (BitVec.ofNat 32 (longestCode c)) { s with code := c, codesValid := true }
  | .readCode sym word => sym ≤ 256 ∧ s.codesValid = true ∧ ∃ c, codeAt s sym = some c ∧
      t = completeWith (codeWord c) (pathWord c.path word) s
  | .encode sym => sym ≤ 256 ∧ s.codesValid = true ∧ ∃ c, codeAt s sym = some c ∧ c.valid = true ∧
      ((c.len = 0 ∧ t = completeWith 0 0 s) ∨ (c.len ≠ 0 ∧ t = { s with eng := .enc sym 0 }))
  | .decode => s.treeValid = true ∧ t = { s with eng := .dec s.root 0 }
  | .streamReset => t = complete (emptyStreams s)
  | .clearFault => t = complete (clearRecord s)

/-- Everything a command can do. -/
theorem exec_cases {i : Instr} {s t : State} (h : exec i s = .next t) :
    (∃ k, t = takeFault k (encode i) s) ∨ Effect i s t := by
  cases i <;> simp only [exec, execNop, execClearFreq, execCount, execWriteFreq, execReadFreq, execBuildTree, execReadNode,
    execGenCodes, execReadCode, execEncode, execDecode, execStreamReset, execClearFault, commandFault] at h
  case nop => exact .inr (by cases h; rfl)
  case clearFreq => exact .inr (by cases h; rfl)
  case count sym =>
    split at h
    · exact .inl ⟨_, by cases h; rfl⟩
    · split at h
      · exact .inl ⟨_, by cases h; rfl⟩
      · exact .inr ⟨Nat.le_of_not_gt ‹¬sym > _›, ‹_›, by cases h; rfl⟩
  case writeFreq sym =>
    split at h
    · exact .inl ⟨_, by cases h; rfl⟩
    · split at h
      · exact .inl ⟨_, by cases h; rfl⟩
      · exact .inr ⟨Nat.le_of_not_gt ‹_›, by cases h; rfl⟩
  case readFreq sym =>
    split at h
    · exact .inl ⟨_, by cases h; rfl⟩
    · exact .inr ⟨Nat.le_of_not_gt ‹_›, by cases h; rfl⟩
  case buildTree =>
    split at h
    · exact .inl ⟨_, by cases h; rfl⟩
    · split at h
      · exact .inl ⟨_, by cases h; rfl⟩
      · refine .inr ⟨fun e => ?_, by omega, _, by cases h; rfl⟩
        simp_all [keys]
  case readNode idx =>
    split at h
    · exact .inl ⟨_, by cases h; rfl⟩
    · split at h
      · exact .inl ⟨_, by cases h; rfl⟩
      · split at h
        · exact .inr ⟨by simpa using ‹¬s.treeValid = false›, by omega, _, ‹_›, by cases h; rfl⟩
        · cases h
  case genCodes =>
    split at h
    · exact .inl ⟨_, by cases h; rfl⟩
    · split at h
      · cases h
      · exact .inr ⟨by simpa using ‹¬s.treeValid = false›, _, ‹_›, by cases h; rfl⟩
  case readCode sym word =>
    split at h
    · exact .inl ⟨_, by cases h; rfl⟩
    · split at h
      · exact .inl ⟨_, by cases h; rfl⟩
      · split at h
        · exact .inr ⟨Nat.le_of_not_gt ‹¬sym > _›, by simpa using ‹¬s.codesValid = false›, _, ‹_›, by cases h; rfl⟩
        · cases h
  case encode sym =>
    split at h
    · exact .inl ⟨_, by cases h; rfl⟩
    · split at h
      · exact .inl ⟨_, by cases h; rfl⟩
      · split at h
        · cases h
        · split at h
          · exact .inl ⟨_, by cases h; rfl⟩
          · split at h
            · exact .inr ⟨Nat.le_of_not_gt ‹¬sym > _›, by simpa using ‹¬s.codesValid = false›, _, ‹_›, by simpa using ‹¬_ = false›,
                .inl ⟨‹_›, by cases h; rfl⟩⟩
            · exact .inr ⟨Nat.le_of_not_gt ‹¬sym > _›, by simpa using ‹¬s.codesValid = false›, _, ‹_›, by simpa using ‹¬_ = false›,
                .inr ⟨‹_›, by cases h; rfl⟩⟩
  case decode =>
    split at h
    · exact .inl ⟨_, by cases h; rfl⟩
    · exact .inr ⟨by simpa using ‹¬s.treeValid = false›, by cases h; rfl⟩
  case streamReset => exact .inr (by cases h; rfl)
  case clearFault => exact .inr (by cases h; rfl)

/-- Everything the ENCODE bit step can do (44_stream_codec.md R107). -/
theorem encodeBit_cases {sym k : Nat} {s t : State} (h : encodeBit sym k s = .next t) :
    t = s ∨ ∃ c, codeAt s sym = some c ∧ s.bitoutQ.length < s.params.bitoutDepth ∧
      ((k + 1 = c.len.toNat ∧
          t = completeWith (c.len.setWidth 32) 0 { s with bitoutQ := s.bitoutQ ++ [c.path.getLsbD k] }) ∨
        (k + 1 ≠ c.len.toNat ∧ t = { s with bitoutQ := s.bitoutQ ++ [c.path.getLsbD k], eng := .enc sym (k + 1) })) := by
  unfold encodeBit at h
  split at h
  · cases h
  · split at h
    · simp only at h
      split at h
      · exact .inr ⟨_, ‹_›, ‹_›, .inl ⟨‹_›, by cases h; rfl⟩⟩
      · exact .inr ⟨_, ‹_›, ‹_›, .inr ⟨‹_›, by cases h; rfl⟩⟩
    · exact .inl (by cases h; rfl)

/-- Everything the DECODE cursor step can do (44_stream_codec.md R111). -/
theorem decodeBit_cases {c : BitVec 10} {n : Nat} {s t : State} (h : decodeBit c n s = .next t) :
    ∃ x, nodeAt s c.toNat = some x ∧
      ((x.leaf = true ∧ t = completeWith (decodeWord (kindOf x.sym) x.sym) (BitVec.ofNat 32 n) s) ∨
        (x.leaf = false ∧ ∃ b rest, s.bitinQ = b :: rest ∧
          t = { s with bitinQ := rest, eng := .dec (if b then x.one else x.zero) (n + 1) }) ∨
        (x.leaf = false ∧ s.bitinQ = [] ∧ s.eos = true ∧
          t = completeWith (decodeWord .trunc 0) (BitVec.ofNat 32 n) s) ∨
        (x.leaf = false ∧ s.bitinQ = [] ∧ s.eos = false ∧ t = s)) := by
  unfold decodeBit at h
  split at h
  · cases h
  · refine ⟨_, ‹_›, ?_⟩
    split at h
    · exact .inl ⟨‹_›, by cases h; rfl⟩
    · have hl := eq_false_of_ne_true ‹¬_ = true›
      split at h
      · exact .inr (.inl ⟨hl, _, _, ‹_›, by cases h; rfl⟩)
      · split at h
        · exact .inr (.inr (.inl ⟨hl, ‹_›, ‹_›, by cases h; rfl⟩))
        · exact .inr (.inr (.inr ⟨hl, ‹_›, eq_false_of_ne_true ‹_›, by cases h; rfl⟩))

/-- Everything an engine step can do (10_state.md R45). -/
theorem engineStep_cases {s t : State} (h : engineStep s = .next t) :
    (s.eng = .idle ∧ t = s) ∨
    (∃ w d, s.eng = .pend w d ∧ (∃ e, decode w = .error e) ∧ t = takeFault .illegalCmd w s) ∨
    (∃ w d i, s.eng = .pend w d ∧ decode w = .ok i ∧ exec i s = .next t) ∨
    (∃ sym k, s.eng = .enc sym k ∧ encodeBit sym k s = .next t) ∨
    (∃ c n, s.eng = .dec c n ∧ decodeBit c n s = .next t) := by
  unfold engineStep at h
  split at h
  · exact .inl ⟨‹_›, by cases h; rfl⟩
  · unfold decodeStep at h
    split at h
    · exact .inr (.inr (.inl ⟨_, _, _, ‹_›, ‹_›, h⟩))
    · exact .inr (.inl ⟨_, _, ‹_›, ⟨_, ‹_›⟩, by cases h; rfl⟩)
  · exact .inr (.inr (.inr (.inl ⟨_, _, ‹_›, h⟩)))
  · exact .inr (.inr (.inr (.inr ⟨_, _, ‹_›, h⟩)))

/-- Everything a step can do: an engine step or a host turn, from the state with the turn taken. -/
theorem step_cases {s t : State} (h : step s = .next t) :
    (nextAgent s = .engine ∧ engineStep (dropTurn s) = .next t) ∨ (nextAgent s = .host ∧ hostTurn (dropTurn s) = .next t) := by
  unfold step at h
  split at h
  · exact .inl ⟨‹_›, h⟩
  · exact .inr ⟨‹_›, h⟩

end Sys2Proof.Machine
end

