-- ==== Sys2Proof/Laws/PerInstr.lean ====
section
/-! SUPPORT. A statement about every command as syntax, constructor by constructor. -/

namespace Sys2Proof.Laws.EncodeFits

/-- The word of a well-formed command holds its OPCODE and its operand bits, and nothing of them is cut off: OPCODE in the
low byte, the operands above it, below bit 20 (30_encoding.md R67, R68). -/
def Statement (i : Instr) : Prop :=
  i.wellFormed = true →
    (encode i).toNat = i.opcode + i.operandBits ∧ i.opcode < 256 ∧ i.operandBits % 256 = 0 ∧ i.operandBits < 2 ^ 20

theorem nop : Statement .nop := by unfold Statement; decide

theorem clearFreq : Statement .clearFreq := by unfold Statement; decide

theorem count (sym : Nat) : Statement (.count sym) := by
  intro h; simp [Instr.wellFormed, symFits, encode, Instr.opcode, Instr.operandBits] at h ⊢; omega

theorem writeFreq (sym : Nat) : Statement (.writeFreq sym) := by
  intro h; simp [Instr.wellFormed, symFits, encode, Instr.opcode, Instr.operandBits] at h ⊢; omega

theorem readFreq (sym : Nat) : Statement (.readFreq sym) := by
  intro h; simp [Instr.wellFormed, symFits, encode, Instr.opcode, Instr.operandBits] at h ⊢; omega

theorem buildTree : Statement .buildTree := by unfold Statement; decide

theorem readNode (idx : Nat) : Statement (.readNode idx) := by
  intro h; simp [Instr.wellFormed, idxFits, encode, Instr.opcode, Instr.operandBits] at h ⊢; omega

theorem genCodes : Statement .genCodes := by unfold Statement; decide

theorem readCode (sym word : Nat) : Statement (.readCode sym word) := by
  intro h; simp [Instr.wellFormed, symFits, wordFits, encode, Instr.opcode, Instr.operandBits] at h ⊢; omega

theorem encode (sym : Nat) : Statement (.encode sym) := by
  intro h; simp [Instr.wellFormed, symFits, Sys2Proof.encode, Instr.opcode, Instr.operandBits] at h ⊢; omega

theorem decode : Statement .decode := by unfold Statement; decide

theorem streamReset : Statement .streamReset := by unfold Statement; decide

theorem clearFault : Statement .clearFault := by unfold Statement; decide

end Sys2Proof.Laws.EncodeFits
end

