-- ==== Sys2Proof/Laws/Runs.lean ====
section
/-! SUPPORT. Runs, and everything the observation of a run can be (70_reset_and_hazards.md R176). -/

namespace Sys2Proof.Machine

@[simp] theorem runFor_zero (f : State → Host.Outcome State Fault Refusal) (s : State) : runFor f 0 s = .next s := rfl

theorem runFor_succ {f : State → Host.Outcome State Fault Refusal} {s t : State} (k : Nat) (h : f s = .next t) :
    runFor f (k + 1) s = runFor f k t := by
  simp [runFor, h]

/-- A run of `j + k` steps is a run of `k` steps from where `j` steps lead. -/
theorem runFor_add {f : State → Host.Outcome State Fault Refusal} {j : Nat} (k : Nat) {s t : State}
    (h : runFor f j s = .next t) : runFor f (j + k) s = runFor f k t := by
  induction j generalizing s with
  | zero => cases h; simp
  | succ j ih =>
    cases hs : f s with
    | next u =>
      rw [runFor_succ j hs] at h
      rw [Nat.add_right_comm, runFor_succ _ hs, ih h]
    | fault e => simp [runFor, hs] at h
    | refused r => simp [runFor, hs] at h

/-- Taking a turn changes nothing that a run shows. -/
@[simp] theorem dropTurn_observation (s : State) : (dropTurn s).observation = s.observation := rfl

/-- Everything the observation can be: it says which, and so does the state. -/
theorem observation_cases (s : State) :
    (¬ s.Quiescent ∧ s.observation = none) ∨
    (s.Quiescent ∧ s.fault = true ∧ s.observation = some (.failed s.faultCode)) ∨
    (s.Quiescent ∧ s.fault = false ∧ ∃ c, s.host.outcome = .failed c ∧ s.observation = some (.failed c)) ∨
    (s.Quiescent ∧ s.fault = false ∧ (∀ c, s.host.outcome ≠ .failed c) ∧
      s.observation = some (.ended s.host.outcome s.host.header s.host.outBits s.host.outBytes s.observedBlock)) := by
  unfold State.observation
  by_cases hq : s.Quiescent
  · rw [if_pos hq]
    cases hf : s.fault with
    | true => exact .inr (.inl ⟨hq, rfl, by rw [endOutcome_fault hf]⟩)
    | false =>
      rw [endOutcome_noFault hf]
      cases s.host.outcome with
      | failed c => exact .inr (.inr (.inl ⟨hq, rfl, c, rfl, rfl⟩))
      | _ => exact .inr (.inr (.inr ⟨hq, rfl, nofun, rfl⟩))
  · exact .inl ⟨hq, if_neg hq⟩

/-- Only an ended run has an observation. -/
theorem quiescent_of_observation {s : State} {o : Observation} (h : s.observation = some o) : s.Quiescent :=
  Classical.byContradiction fun hq => by simp only [State.observation, if_neg hq] at h; cases h

/-- Once a run has ended, a step takes at most a turn. -/
theorem step_quiescent {s t : State} (hq : s.Quiescent) (h : step s = .next t) : t = dropTurn s := by
  have he : (dropTurn s).eng = .idle := hq.2
  have hp : (dropTurn s).host.prog = [] := hq.1
  rcases step_cases h with ⟨-, h⟩ | ⟨-, h⟩
  · simp only [engineStep, he] at h
    cases h; rfl
  · simp only [hostTurn, hp] at h
    split at h <;> cases h
    rfl

end Sys2Proof.Machine
end

