-- ==== Sys2Proof/Tests/Slice0.lean ====
section
/-! SUPPORT. Tests on fixed values, every expected value taken from spec/ (95_test_vectors.md and the examples of the
rules), and one witness for every obligation that has hypotheses. -/

open Sys2Proof Sys2Proof.Machine Sys2Proof.Claims

namespace Sys2Proof.Tests

/-! ## Operands that do not fit are refused (46_host_sequences.md R124) -/

theorem test_sym_too_large : (Instr.count 512).wellFormed = false ∧ assemble (.count 512) = none := by decide
theorem test_writeFreq_sym_too_large : (Instr.writeFreq 512).wellFormed = false := by decide
theorem test_readFreq_sym_too_large : (Instr.readFreq 512).wellFormed = false := by decide
theorem test_encode_sym_too_large : (Instr.encode 512).wellFormed = false := by decide
theorem test_idx_too_large : (Instr.readNode 1024).wellFormed = false ∧ assemble (.readNode 1024) = none := by decide
theorem test_readCode_sym_too_large : (Instr.readCode 512 0).wellFormed = false := by decide
theorem test_word_too_large : (Instr.readCode 0 8).wellFormed = false ∧ assemble (.readCode 0 8) = none := by decide
theorem test_sym_not_a_char_fits : (Instr.count 257).wellFormed = true ∧ (Instr.readNode 1023).wellFormed = true := by decide

/-! ## Decoding: words written out from R67 and R68 (30_encoding.md R76, 95_test_vectors.md V-E) -/

theorem test_decode_nop : decode 0b00000000000000000000000000000000 = .ok .nop := by decide
theorem test_decode_clearFreq : decode 0b00000000000000000000000000000001 = .ok .clearFreq := by decide
theorem test_decode_count : decode 0b00000000000000000110000100000010 = .ok (.count 97) := by decide
theorem test_decode_writeFreq : decode 0b00000000000000000110001000000011 = .ok (.writeFreq 98) := by decide
theorem test_decode_readFreq : decode 0b00000000000000010000000000000100 = .ok (.readFreq 256) := by decide
theorem test_decode_buildTree : decode 0b00000000000000000000000000010000 = .ok .buildTree := by decide
theorem test_decode_readNode : decode 0b00000000000000110000000100010001 = .ok (.readNode 769) := by decide
theorem test_decode_genCodes : decode 0b00000000000000000000000000100000 = .ok .genCodes := by decide
theorem test_decode_readCode : decode 0b00000000000011000100000100100001 = .ok (.readCode 0x41 6) := by decide
theorem test_decode_encode : decode 0b00000000000000000110001100110000 = .ok (.encode 99) := by decide
theorem test_decode_decode : decode 0b00000000000000000000000000110001 = .ok .decode := by decide
theorem test_decode_streamReset : decode 0b00000000000000000000000000110010 = .ok .streamReset := by decide
theorem test_decode_clearFault : decode 0b00000000000000000000000001111111 = .ok .clearFault := by decide

theorem test_decode_reserved_bits :
    [0x00000100, 0x00020002, 0x80006102, 0x00040011, 0x00100021, 0x0000017F].map decode =
      List.replicate 6 (.error .reservedBits) := by decide

theorem test_decode_unassigned :
    [0x05, 0x0F, 0x12, 0x1F, 0x22, 0x33, 0x7E, 0x80, 0xFF].map decode = List.replicate 9 (.error .unassignedOpcode) := by decide

theorem test_encode_readCode : encode (.readCode 0x41 7) = 0x000E4121 := by decide

theorem test_table_word : decodeTableWord 32 0x00000611 = some (.readNode 6) ∧ decodeTableWord 32 5 = none := by decide

/-! ## Small states -/

/-- The state a step leaves; the state itself where there is none. -/
def after (o : Host.Outcome State Fault Refusal) (s : State) : State :=
  match o with
  | .next t => t
  | _ => s

/-- One command from `s`. -/
def run (i : Instr) (s : State) : State := after (exec i s) s

/-- FREQ of "aaabbc" (V-T1). -/
def abc : List (Nat × Count) := [(97, 3), (98, 2), (99, 1), (256, 1)]

def counted : State := { State.reset with freq := abc }
def built : State := run .buildTree counted
def coded : State := run .genCodes built

/-- The state with FREQ[0] at its maximum (V-F10). -/
def maxed : State := { State.reset with freq := [(0, 0xFFFFFFFF)] }

/-- ENCODE 'c' with no bit pushed yet. -/
def encoding : State := { coded with eng := .enc 99 0 }

/-- DECODE with its cursor at the root and two bits to read (44_stream_codec.md R110). -/
def decoding : State := { coded with eng := .dec 6 0, bitinQ := [true, false] }

/-- A recorded fault (V-F8). -/
def faultedState : State := { State.reset with fault := true, faultCode := 2, faultInfo := 0x00010102 }

/-- A pending word. -/
def pending (w d : Word) : State := { State.reset with eng := .pend w d }

/-! ## One command each (95_test_vectors.md) -/

theorem test_nop : (run .nop faultedState).done = true ∧ (run .nop faultedState).fault = true := by decide

theorem test_clearFreq : statusWord (run .clearFreq coded) = 0x02 ∧ freqAt (run .clearFreq coded).freq 97 = 0 := by decide

theorem test_count : (run (.count 97) coded).result0 = 4 ∧ statusWord (run (.count 97) coded) = 0x02 ∧
    treeInfo (run (.count 97) coded) = 0 := by decide

theorem test_count_overflow : statusWord (run (.count 0) maxed) = 0x406 ∧ (run (.count 0) maxed).faultInfo = 0x00000002 ∧
    freqAt (run (.count 0) maxed).freq 0 = 0xFFFFFFFF := by decide

theorem test_writeFreq_latched : freqAt (run (.writeFreq 97) { pending 0x00006103 5 with data := 9 }).freq 97 = 5 ∧
    (run (.writeFreq 97) { pending 0x00006103 5 with result0 := 7 }).result0 = 7 := by decide

theorem test_writeFreq_zero : (run (.writeFreq 97) { pending 0x00006103 0 with freq := [(97, 3)] }).freq = [] := by decide

theorem test_readFreq : (run (.readFreq 97) built).result0 = 3 ∧ statusWord (run (.readFreq 97) built) = 0x0A := by decide

theorem test_readFreq_absent : (run (.readFreq 122) State.reset).result0 = 0 ∧
    statusWord (run (.readFreq 122) State.reset) = 0x02 := by decide

theorem test_buildTree : built.result0 = 7 ∧ built.result1 = 0x00070006 ∧ statusWord built = 0x0A ∧
    built.node.map nodeWord = [0x9FFFFE61, 0x9FFFFE62, 0x9FFFFE63, 0x9FFFFF00, 0x00180501, 0x00200301, 0x00280101] := by decide

theorem test_buildTree_ties :
    (run .buildTree { State.reset with freq := [(65, 1), (66, 1), (67, 1), (256, 1)] }).node.map nodeWord =
      [0x9FFFFE41, 0x9FFFFE42, 0x9FFFFE43, 0x9FFFFF00, 0x00080101, 0x00180501, 0x00280901] := by decide

theorem test_readNode : (run (.readNode 6) built).result0 = 7 ∧ (run (.readNode 6) built).result1 = 0x00280101 := by decide

theorem test_readNode_bad : statusWord (run (.readNode 7) built) = 0x30E ∧ (run (.readNode 7) built).faultInfo = 0x711 ∧
    statusWord (run (.readNode 600) State.reset) = 0x606 := by decide

theorem test_genCodes : coded.result0 = 4 ∧ coded.result1 = 3 ∧ statusWord coded = 0x1A := by decide

theorem test_readCode : (run (.readCode 99 0) coded).result0 = 0x80000003 ∧ (run (.readCode 99 0) coded).result1 = 3 ∧
    (run (.readCode 256 0) coded).result1 = 7 ∧ (run (.readCode 99 1) coded).result1 = 0 := by decide

theorem test_readCode_absent : (run (.readCode 100 0) coded).result0 = 0 ∧ statusWord (run (.readCode 100 0) coded) = 0x1A := by
  decide

theorem test_encode_first_bit : (after (engineStep encoding) encoding).bitoutQ = [true] ∧
    (after (engineStep encoding) encoding).eng = .enc 99 1 := by decide

theorem test_encode_last_bit :
    (after (engineStep { encoding with eng := .enc 99 2 }) encoding).bitoutQ = [false] ∧
    (after (engineStep { encoding with eng := .enc 99 2 }) encoding).result0 = 3 ∧
    (after (engineStep { encoding with eng := .enc 99 2 }) encoding).eng = .idle := by decide

theorem test_decode_root : (run .decode built).eng = .dec 6 0 ∧ (after (engineStep decoding) decoding).eng = .dec 5 1 := by decide

theorem test_decode_leaf :
    (after (engineStep { decoding with eng := .dec 1 2 }) decoding).result0 = 0x00000062 ∧
    (after (engineStep { decoding with eng := .dec 3 3 }) decoding).result0 = 0x00010100 ∧
    (after (engineStep { decoding with eng := .dec 5 1, bitinQ := [], eos := true }) decoding).result0 = 0x00020000 := by decide

theorem test_streamReset :
    fifoStat { State.reset with bitinQ := [true, true, false], eos := true } = 0x80000003 ∧
    fifoStat (run .streamReset { State.reset with bitinQ := [true, true, false], eos := true }) = 0 := by decide

theorem test_clearFault : statusWord (run (.count 300) State.reset) = 0x206 ∧
    statusWord (run .clearFault (run (.count 300) State.reset)) = 0x02 := by decide

/-- An illegal word, from reset (V-E): STATUS and FAULT_INFO. -/
theorem test_illegal_word : statusWord (after (step (pending 5 0)) State.reset) = 0x106 ∧
    (after (step (pending 5 0)) State.reset).faultInfo = 5 := by decide

theorem test_withFetchWord :
    (after (step (State.reset.withFetchWord 32 0x00006102)) State.reset).freq = [(97, 1)] := by decide

/-- The header of "aaabbc" (R132), in ASCII, written and read. -/
theorem test_header :
    renderHeader [(97, 3), (256, 1)] = [0x7B, 0x39, 0x37, 0x3A, 0x33, 0x2C, 0x20, 0x32, 0x35, 0x36, 0x3A, 0x31, 0x7D] ∧
    parseHeader [0x7B, 0x39, 0x37, 0x3A, 0x33, 0x2C, 0x20, 0x32, 0x35, 0x36, 0x3A, 0x31, 0x7D] = some [(97, 3), (256, 1)] ∧
    parseHeader [0x7B, 0x7D] = some [] ∧ parseHeader [0x7B, 0x30, 0x31, 0x3A, 0x31, 0x7D] = none := by decide

/-- A run that ends with FAULT = 1 has failed, and shows FAULT_CODE alone (R176). -/
theorem test_finish_faulted :
    (after (hostLine .finish [] faultedState) faultedState).host.outcome = .failed 2 ∧
    (after (hostLine .finish [] faultedState) faultedState).observation = some (.failed 2) := by decide

/-- A run that ends without a fault (R176): the observation is H, OUT and the block; none while a command is in flight. -/
theorem test_observation :
    (after (hostLine .finish [] coded) coded).observation = some (.ended .complete [] [] [] coded.blockPart) ∧
    encoding.observation = none := by decide

/-- A 32-bit access at BASE-2 (log entry 7), and at the last byte of the window, which is refused (R52). -/
theorem test_window_edges :
    busAccess (.write 0x3E 32 5) { State.reset with params := { Params.chosen with base := 0x40 } } =
      .next { State.reset with params := { Params.chosen with base := 0x40 } } ∧
    busAccess (.write 0x3F 32 5) State.reset = .refused (.accessMisaligned 0x3F) := ⟨rfl, rfl⟩

/-! ## Witnesses: a concrete state and operands that meet the hypotheses of each obligation -/

/-- An idle engine meets the clauses of the invariant on ENG. -/
theorem idle_inv {s : State} (h : s.eng = .idle) (hp : s.params.valid) (hf : Table.wf (0 : Count) Config.nsym s.freq = true)
    (hc : s.codesValid = true → s.treeValid = true) (ht : s.treeValid = true → s.TreeBuilt)
    (hk : s.codesValid = true → codeTable s = some s.code) (hi : s.bitinQ.length ≤ s.params.bitinDepth)
    (ho : s.bitoutQ.length ≤ s.params.bitoutDepth) (hz : s.fault = false → s.faultCode = 0 ∧ s.faultInfo = 0) : s.Inv :=
  ⟨hp, hf, hc, ht, hk, hi, ho, hz, fun _ _ e => by simp [h] at e, fun _ _ e => by simp [h] at e⟩

theorem reset_inv : State.reset.Inv :=
  idle_inv (by decide) (by decide) (by decide) (by decide) (fun h => by simp [State.reset, State.resetWith] at h) (by decide)
    (by decide) (by decide) (by decide)

theorem coded_tree : coded.TreeBuilt := ⟨by decide, by decide, by decide, by decide, by decide⟩

theorem coded_inv : coded.Inv :=
  idle_inv (by decide) (by decide) (by decide) (by decide) (fun _ => coded_tree) (by decide) (by decide) (by decide) (by decide)

theorem built_inv : built.Inv :=
  idle_inv (by decide) (by decide) (by decide) (by decide) (fun _ => ⟨by decide, by decide, by decide, by decide, by decide⟩)
    (by decide) (by decide) (by decide) (by decide)

theorem decoding_inv : decoding.Inv where
  params := by decide
  freq := by decide
  codesNeedTree := by decide
  tree := fun _ => ⟨by decide, by decide, by decide, by decide, by decide⟩
  codes := by decide
  bitin := by decide
  bitout := by decide
  noFault := by decide
  dec := fun c n e => by cases e; decide
  enc := fun _ _ e => by cases e

theorem encoding_inv : encoding.Inv where
  params := by decide
  freq := by decide
  codesNeedTree := by decide
  tree := fun _ => ⟨by decide, by decide, by decide, by decide, by decide⟩
  codes := by decide
  bitin := by decide
  bitout := by decide
  noFault := by decide
  dec := fun _ _ e => by cases e
  enc := fun sym k e => by cases e; exact ⟨by decide, ⟨true, 3, 3⟩, by decide, rfl, by decide⟩

theorem witness_ResetLeavesTheSpecValues : (512 : Nat) < 513 ∧ (256 : Nat) < 257 ∧ (0x00000001 : Word).getLsbD 0 = true := by decide

theorem witness_ResetMeetsTheInvariant : Params.chosen.valid ∧ (⟨0x40, 1, 4095, 1⟩ : Params).valid ∧
    (⟨0, 4095, 1, 1⟩ : Params).valid := by decide

theorem witness_StepKeepsTheInvariant : decoding.Inv ∧ ∃ t, step decoding = .next t := ⟨decoding_inv, _, rfl⟩

theorem witness_EngineNeverStops : encoding.Inv ∧ coded.Inv := ⟨encoding_inv, coded_inv⟩

theorem witness_HoldIsNoEnabledStep : encoding.Inv ∧ engineEnabled encoding = true ∧ coded.Inv ∧
    engineEnabled coded = false := ⟨encoding_inv, by decide, coded_inv, by decide⟩

theorem witness_DecodeOfEncodeIsTheCommand : (Instr.readCode 511 7).wellFormed = true ∧ (Instr.readNode 1023).wellFormed = true ∧
    (Instr.count 0).wellFormed = true := by decide

theorem witness_EncodeOfDecodeIsTheWord : decode 0x000FFF21 = .ok (.readCode 511 7) ∧
    decode 0x0003FF11 = .ok (.readNode 1023) := by decide

theorem witness_LegalWordSelectsOneRow : decode 0x0001FF02 = .ok (.count 511) ∧
    (⟨0x02, 0xFFFE00FF, 0x00000002⟩ : OpcodeRow) ∈ opcodeMap ∧ (0x0001FF02 : Word) &&& 0xFFFE00FF = 0x00000002 := by decide

theorem witness_EngineDecodesThePendingWord :
    (pending 0x00006102 0).eng = .pend 0x00006102 0 ∧ (0x00006102 : Word) &&& 0xFFFE00FF = 0x00000002 ∧
    (pending 5 0).eng = .pend 5 0 ∧ (∀ r ∈ opcodeMap, (5 : Word) &&& r.mask ≠ r.matched) ∧
    (∃ t, engineStep (pending 0x00006102 0) = .next t) := ⟨rfl, by decide, rfl, by decide, _, rfl⟩

theorem witness_StepRunsTheDecodedCommand :
    nextAgent (pending 0x00006102 0) = .engine ∧ decode 0x00006102 = .ok (.count 97) ∧
    nextAgent (pending 5 0) = .engine ∧ decode 5 = .error .unassignedOpcode ∧
    nextAgent encoding = .engine ∧ encoding.eng = .enc 99 0 ∧ nextAgent decoding = .engine ∧ decoding.eng = .dec 6 0 ∧
    nextAgent { coded with turns := [.engine] } = .engine ∧ coded.eng = .idle ∧ nextAgent coded = .host ∧
    ({ coded with turns := [.host, .engine] } : State).turns = .host :: [.engine] ∧
    encoding.turns = [] ∧ engineEnabled encoding = true ∧ coded.turns = [] ∧ engineEnabled coded = false := by decide

theorem witness_CmdWriteIssues : encoding.eng ≠ .idle ∧ faultedState.eng = .idle ∧ faultedState.fault = true ∧
    (0x00006102 : Word).extractLsb' 0 8 ≠ 0x00#8 ∧ (0x00006102 : Word).extractLsb' 0 8 ≠ 0x7F#8 ∧
    (0x0000017F : Word).extractLsb' 0 8 = 0x7F#8 ∧ (0x00000100 : Word).extractLsb' 0 8 = 0x00#8 ∧
    State.reset.fault = false := by decide

theorem witness_ClearFreqEmptiesTheTable : (0x00000101 : Word).extractLsb' 0 8 = 0x01#8 ∧ 2 ^ 8 ≤ (0x00000101 : Word).toNat := by
  decide

theorem witness_CountAddsOne : (256 : Nat) < 257 ∧ (freqAt maxed.freq 0).toNat = maxCount ∧
    (freqAt coded.freq 256).toNat ≠ maxCount ∧ (freqAt maxed.freq 256).toNat ≠ maxCount ∧ (256 : Nat) ≠ 97 ∧
    (0x00020002 : Word).extractLsb' 0 8 = 0x02#8 ∧ 2 ^ 17 ≤ (0x00020002 : Word).toNat := by decide

theorem witness_WriteFreqStoresLatchedData : (pending 0x00010003 0).eng = .pend 0x00010003 0 ∧ (256 : Nat) < 257 ∧
    (256 : Nat) ≤ 256 ∧ (0x00020003 : Word).extractLsb' 0 8 = 0x03#8 ∧ 2 ^ 17 ≤ (0x00020003 : Word).toNat := by decide

theorem witness_ReadFreqReturnsTheCount : (256 : Nat) < 257 ∧ (256 : Nat) ≤ 256 ∧
    (0x00020004 : Word).extractLsb' 0 8 = 0x04#8 ∧ 2 ^ 17 ≤ (0x00020004 : Word).toNat := by decide

theorem witness_KeysAreThePresentSymbolsAscending : Table.wf (0 : Count) 257 abc = true ∧ (keys abc)[3]? = some 256 ∧
    freqAt abc 256 ≠ 0 := by decide

theorem witness_CountingPassCountsOccurrences : (∀ x ∈ [97, 98, 97, 256], x ≤ 256) ∧
    ∀ b, (freqAt State.reset.freq b).toNat + [97, 98, 97, 256].count b ≤ maxCount :=
  ⟨by decide, fun b => by
    have h : [97, 98, 97, 256].count b ≤ 4 := List.count_le_length
    have : (freqAt State.reset.freq b).toNat = 0 := rfl
    simp only [maxCount]; omega⟩

theorem witness_CountsChangeOnlyByTheirCommands : ∃ t, step (pending 0x00006102 0) = .next t ∧
    freqAt t.freq 97 ≠ freqAt (pending 0x00006102 0).freq 97 := ⟨_, rfl, by decide⟩

theorem witness_BuildTreeFollowsItsRule : Table.wf (0 : Count) 257 State.reset.freq = true ∧
    (∀ sym, freqAt State.reset.freq sym = 0) ∧ Table.wf (0 : Count) 257 [(0, 0xFFFFFFFF), (256, 1)] = true ∧
    freqAt [(0, 0xFFFFFFFF), (256, 1)] 0 ≠ 0 ∧ maxCount < totalCount [(0, 0xFFFFFFFF), (256, 1)] ∧
    Table.wf (0 : Count) 257 [(0, 0xFFFFFFFE), (256, 1)] = true ∧ totalCount [(0, 0xFFFFFFFE), (256, 1)] ≤ maxCount :=
  ⟨by decide, fun _ => rfl, by decide, by decide, by decide, by decide, by decide⟩

theorem witness_ValidTreeHasTheShapeOfR93 : built.Inv ∧ built.treeValid = true := ⟨built_inv, by decide⟩

theorem witness_ZeroChildIsDequeuedFirst : built.Inv ∧ built.treeValid = true ∧ 6 < built.nodes.toNat ∧
    nodeAt built 6 = some ⟨false, 257, 7, 0, 5⟩ ∧ nodeAt built 0 = some ⟨true, 97, 3, 0x3FF, 0x3FF⟩ ∧
    nodeAt built 5 = some ⟨false, 257, 4, 1, 4⟩ := ⟨built_inv, by decide⟩

/-- The first merge, node 4 over 2 and 3: node 1 waits in the queue. -/
theorem witness_ZeroChildIsDequeuedFirst_waiting : nodeAt built 4 = some ⟨false, 257, 2, 2, 3⟩ ∧
    nodeAt built 1 = some ⟨true, 98, 2, 0x3FF, 0x3FF⟩ ∧ (∀ m' x', m' < 4 → nodeAt built m' = some x' → x'.leaf = false →
      x'.zero.toNat ≠ 1 ∧ x'.one.toNat ≠ 1) := by
  refine ⟨by decide, by decide, fun m' x' hm hx hl => ?_⟩
  have h : ∀ m' < 4, ∃ y, nodeAt built m' = some y ∧ y.leaf = true := fun m' h => by
    match m', h with
    | 0, _ | 1, _ | 2, _ | 3, _ => exact ⟨_, rfl, by decide⟩
  obtain ⟨y, hy, hly⟩ := h m' hm
  rw [hx] at hy
  cases hy
  rw [hly] at hl
  cases hl

theorem witness_MergeCountsAreExactSums : built.Inv ∧ built.treeValid = true ∧ 4 < built.nodes.toNat ∧
    nodeAt built 4 = some ⟨false, 257, 2, 2, 3⟩ ∧ built.freq ≠ [] ∧
    0xFFFFFFFF < totalCount [(0, 0xFFFFFFFF), (256, 1)] := ⟨built_inv, by decide⟩

theorem witness_ExtractMinTakesTheLeastKey : extractMin [(3, 0), (2, 1), (2, 4)] = some ((2, 1), [(3, 0), (2, 4)]) := by decide

theorem witness_TreeAndCodesDependOnFreqAlone : counted.freq = coded.freq ∧ counted.freq ≠ [] ∧
    totalCount counted.freq ≤ maxCount ∧ (∃ t, exec .genCodes (run .buildTree counted) = .next t) ∧
    ∃ t, exec .genCodes (run .buildTree coded) = .next t := ⟨by decide, by decide, by decide, ⟨_, rfl⟩, _, rfl⟩

theorem witness_ReadNodeReturnsTheEntry : State.reset.Inv ∧ State.reset.treeValid = false ∧ built.Inv ∧
    built.treeValid = true ∧ built.nodes.toNat ≤ 7 ∧ 6 < built.nodes.toNat ∧
    (0x00040011 : Word).extractLsb' 0 8 = 0x11#8 ∧ 2 ^ 18 ≤ (0x00040011 : Word).toNat :=
  ⟨reset_inv, by decide, built_inv, by decide⟩

theorem witness_ResultWordLayouts : leafNode (97, 3) = ⟨true, 97, 3, 0x3FF, 0x3FF⟩ ∧
    nodeWord (leafNode (97, 3)) = 0x9FFFFE61 ∧ decodeWord .byte 98 = 0x00000062 := by decide

theorem witness_GenCodesFollowsItsRule : State.reset.Inv ∧ State.reset.treeValid = false ∧ built.Inv ∧
    built.treeValid = true ∧ freqAt built.freq 100 = 0 ∧ freqAt built.freq 256 ≠ 0 :=
  ⟨reset_inv, by decide, built_inv, by decide⟩

theorem witness_CodesArePrefixFree : coded.Inv ∧ coded.codesValid = true ∧ codeAt coded 99 = some ⟨true, 3, 3⟩ ∧
    codeAt coded 256 = some ⟨true, 3, 7⟩ := ⟨coded_inv, by decide⟩

theorem witness_KraftSumIsOne : coded.Inv ∧ coded.codesValid = true ∧ 2 ≤ coded.freq.length := ⟨coded_inv, by decide⟩

theorem witness_CodeLengthBounds : coded.Inv ∧ coded.codesValid = true ∧ codeAt coded 97 = some ⟨true, 1, 0⟩ :=
  ⟨coded_inv, by decide⟩

theorem witness_ReadCodeReturnsTheEntry : coded.Inv ∧ (7 : Nat) < 8 ∧ (256 : Nat) < 257 ∧ built.Inv ∧
    built.codesValid = false ∧ coded.codesValid = true ∧ freqAt coded.freq 100 = 0 ∧
    codeAt coded 99 = some ⟨true, 3, 3⟩ ∧ (0x00100021 : Word).extractLsb' 0 8 = 0x21#8 ∧ 2 ^ 20 ≤ (0x00100021 : Word).toNat :=
  ⟨coded_inv, by decide, by decide, built_inv, by decide⟩

theorem witness_EncodeFollowsItsRule : (256 : Nat) < 257 ∧ built.codesValid = false ∧ coded.codesValid = true ∧
    codeAt coded 100 = some ⟨false, 0, 0⟩ ∧ codeAt coded 256 = some ⟨true, 3, 7⟩ ∧
    codeAt (run .genCodes (run .buildTree { State.reset with freq := [(256, 1)] })) 256 = some ⟨true, 0, 0⟩ ∧
    (run .genCodes (run .buildTree { State.reset with freq := [(256, 1)] })).codesValid = true := by decide

/-- BITOUT_Q of depth 1, full. -/
def fullOut : State := { encoding with params := { Params.chosen with bitoutDepth := 1 }, bitoutQ := [true] }

theorem witness_EncodeBitPushesOneBit : encoding.eng = .enc 99 0 ∧ codeAt encoding 99 = some ⟨true, 3, 3⟩ ∧
    encoding.bitoutQ.length < encoding.params.bitoutDepth ∧ ({ encoding with eng := .enc 99 2 } : State).eng = .enc 99 2 ∧
    fullOut.eng = .enc 99 0 ∧ codeAt fullOut 99 = some ⟨true, 3, 3⟩ ∧ fullOut.bitoutQ.length = fullOut.params.bitoutDepth := by
  decide

theorem coded_codes : HasCode coded 97 ∧ HasCode coded 256 :=
  ⟨⟨⟨true, 1, 0⟩, by decide, rfl⟩, ⟨⟨true, 3, 7⟩, by decide, rfl⟩⟩

theorem witness_EncodesConcatenateTheirCodes : coded.Inv ∧ coded.codesValid = true ∧ (∀ x ∈ [97, 256], HasCode coded x) ∧
    coded.bitoutQ.length + ([97, 256].flatMap (bitsOf coded)).length ≤ coded.params.bitoutDepth ∧ coded.eng = .idle := by
  refine ⟨coded_inv, by decide, fun x hx => ?_, by decide, by decide⟩
  simp only [List.mem_cons, List.not_mem_nil, or_false] at hx
  rcases hx with rfl | rfl
  · exact coded_codes.1
  · exact coded_codes.2

theorem witness_DecodeStartsAtTheRoot : State.reset.treeValid = false ∧ built.treeValid = true ∧
    (0x00000131 : Word).extractLsb' 0 8 = 0x31#8 ∧ 2 ^ 8 ≤ (0x00000131 : Word).toNat := by decide

theorem witness_DecodeCursorStep : decoding.eng = .dec 6 0 ∧ nodeAt decoding 6 = some ⟨false, 257, 7, 0, 5⟩ ∧
    decoding.bitinQ = true :: [false] ∧ nodeAt decoding 3 = some ⟨true, 256, 1, 0x3FF, 0x3FF⟩ ∧
    nodeAt decoding 0 = some ⟨true, 97, 3, 0x3FF, 0x3FF⟩ ∧
    ({ decoding with bitinQ := [], eos := true } : State).bitinQ = [] ∧
    ({ decoding with bitinQ := [], eos := true } : State).eos = true ∧ decoding.eos = false := by decide

theorem witness_DecodeUndoesEncode : coded.Inv ∧ built.Inv ∧ coded.codesValid = true ∧ built.treeValid = true ∧
    coded.freq = built.freq ∧ (∀ x ∈ [97, 97, 99], x < 256 ∧ freqAt coded.freq x ≠ 0) ∧ freqAt coded.freq 256 ≠ 0 ∧
    coded.eng = .idle ∧ coded.bitoutQ = [] ∧
    (([97, 97, 99] ++ [256]).flatMap (bitsOf coded)).length ≤ coded.params.bitoutDepth :=
  ⟨coded_inv, built_inv, by decide, by decide, by decide, by decide, by decide, by decide, by decide, by decide⟩

theorem witness_StreamResetEmptiesTheStreams : (0x00000132 : Word).extractLsb' 0 8 = 0x32#8 ∧
    2 ^ 8 ≤ (0x00000132 : Word).toNat := by decide

theorem witness_BitinWritePushesOrSetsEos : (0x00000003 : Word).getLsbD 1 = true ∧ (0x00000001 : Word).getLsbD 1 = false ∧
    decoding.bitinQ.length < decoding.params.bitinDepth ∧
    ({ decoding with params := { Params.chosen with bitinDepth := 2 } } : State).params.bitinDepth ≤ decoding.bitinQ.length := by
  decide

theorem witness_BitoutReadPops : coded.bitoutQ = [] ∧ fullOut.bitoutQ = true :: [] ∧
    ({ coded with bitoutQ := [false, true] } : State).bitoutQ = false :: [true] := by decide

theorem witness_CommandsComplete_one_step : built.Inv ∧ (∀ sym, Instr.genCodes ≠ .encode sym) ∧ Instr.genCodes ≠ .decode :=
  ⟨built_inv, nofun, nofun⟩

theorem witness_CommandsComplete : (∃ t, exec .buildTree counted = .next t) ∧ encoding.Inv ∧ encoding.eng = .enc 99 0 ∧
    codeAt encoding 99 = some ⟨true, 3, 3⟩ ∧ encoding.bitoutQ.length + 3 ≤ encoding.params.bitoutDepth ∧
    ({ decoding with eos := true } : State).eng = .dec 6 0 ∧ ({ decoding with eos := true } : State).eos = true ∧
    ({ decoding with eos := true } : State).Inv :=
  ⟨⟨_, rfl⟩, encoding_inv, by decide, by decide, by decide, by decide, by decide,
    { decoding_inv with tree := fun h => ⟨by decide, by decide, by decide, by decide, by decide⟩ }⟩

theorem witness_NopOnlyCompletes : ({ faultedState with eng := .pend 0x100 0 } : State).eng = .pend 0x100 0 ∧
    ({ faultedState with eng := .pend 0x100 0 } : State).fault = true ∧ (0x00000100 : Word).extractLsb' 0 8 = 0#8 ∧
    (0x00000100 : Word) ≠ 0 ∧ 2 ^ 8 ≤ (0x00000100 : Word).toNat ∧ State.reset.eng = .idle := by decide

theorem witness_ClearFaultClearsTheRecord : ({ faultedState with eng := .pend 0x17F 0 } : State).eng = .pend 0x17F 0 ∧
    ({ faultedState with eng := .pend 0x17F 0 } : State).fault = true ∧ (0x0000017F : Word).extractLsb' 0 8 = 0x7F#8 ∧
    (0x0000017F : Word) ≠ 0x0000007F ∧ 2 ^ 8 ≤ (0x0000017F : Word).toNat ∧ coded.fault = false ∧ coded.Inv :=
  ⟨by decide, by decide, by decide, by decide, by decide, by decide, coded_inv⟩

theorem witness_FirstFaultIsKept : ∃ t, step { faultedState with eng := .pend 0x7F 0 } = .next t ∧
    ({ faultedState with eng := .pend 0x7F 0 } : State).fault = true ∧ t.fault = false := ⟨_, rfl, by decide⟩

theorem witness_FaultsArePrecise : (∃ t, engineStep (pending 5 0) = .next t ∧ t.raised ≠ (pending 5 0).raised) ∧
    (regWrite .cmd 0 encoding).raised ≠ encoding.raised := ⟨⟨_, rfl, by decide⟩, by decide⟩

theorem witness_ResultsChangeOnlyAtCompletion :
    (∃ t, step (pending 0x00006102 0) = .next t ∧ t.result0 ≠ (pending 0x00006102 0).result0) ∧
    ∃ t, exec .nop coded = .next t := ⟨⟨_, rfl, by decide⟩, _, rfl⟩

theorem witness_ValidBitsChangeOnlyAsR39Says :
    (∃ t, step { counted with eng := .pend 0x10 0 } = .next t ∧ counted.treeValid = false ∧ t.treeValid = true) ∧
    (∃ t, step { built with eng := .pend 0x20 0 } = .next t ∧ built.codesValid = false ∧ t.codesValid = true) ∧
    (∃ t, step { coded with eng := .pend 0x01 0 } = .next t ∧ coded.treeValid = true ∧ t.treeValid = false) ∧
    ∃ t, step { coded with eng := .pend 0x10 0 } = .next t ∧ coded.codesValid = true ∧ t.codesValid = false :=
  ⟨⟨_, rfl, by decide⟩, ⟨_, rfl, by decide⟩, ⟨_, rfl, by decide⟩, _, rfl, by decide⟩

theorem witness_StreamsKeepTheirOrder :
    (∃ t, step { coded with host := { coded.host with prog := [.wr .bitin 2] } } = .next t ∧ coded.eos = false ∧ t.eos = true) ∧
    ∃ t, step { coded with eos := true, eng := .pend 0x32 0 } = .next t ∧
      ({ coded with eos := true, eng := .pend 0x32 0 } : State).eos = true ∧ t.eos = false :=
  ⟨⟨_, rfl, by decide⟩, _, rfl, by decide⟩

theorem witness_HostLeavesTheCommandAlone :
    ∃ t, hostTurn { encoding with host := { encoding.host with prog := [.wr .data 5] } } = .next t ∧ encoding.eng ≠ .idle :=
  ⟨_, rfl, by decide⟩

theorem witness_SrstResetsTheBlock : (0x00000001 : Word).getLsbD 0 = true ∧ (0xFFFFFFFE : Word).getLsbD 0 = false ∧
    encoding.params.valid := by decide

theorem witness_RegisterReads : Reg.status ≠ .bitout ∧ coded.fault = false ∧ faultedState.fault = true := by decide

theorem witness_FifoStatFields : decoding.Inv ∧ fifoStat decoding = 2 := ⟨decoding_inv, by decide⟩

theorem witness_RegisterWrites : (0x00000002 : Word).getLsbD 1 = true ∧ (0xFFFFFFFD : Word).getLsbD 1 = false ∧
    Reg.faultInfo ∈ [Reg.id, .result0, .result1, .bitout, .fifoStat, .treeInfo, .faultInfo] := by decide

theorem witness_WindowAccess_below :
    (0x3E : Nat) < ({ State.reset with params := { Params.chosen with base := 0x40 } } : State).params.base := by decide

theorem witness_WindowAccess : (0x3F : Nat) < 0x40 ∧ (8 : Nat) ≠ 32 ∧ (0x3D : Nat) % 4 ≠ 0 ∧ (0x40 : Nat) ≤ 0x40 ∧
    (∃ t, busAccess (.read (State.reset.params.base + 0x3C) 32) State.reset = .next t) := ⟨by decide, by decide, by decide, by decide, _, rfl⟩

theorem witness_HostActsThroughRegisters :
    ∃ t, hostTurn { coded with host := { coded.host with prog := [.rd .bitout .x] } } = .next t := ⟨_, rfl⟩

theorem witness_CommandsLeaveTheHostSideAlone : (∃ t, exec .genCodes built = .next t) ∧ ∃ t, step decoding = .next t :=
  ⟨⟨_, rfl⟩, _, rfl⟩

theorem witness_HostLinesFollowTheirRules : (Instr.count 511).wellFormed = true ∧ (Instr.count 512).wellFormed = false ∧
    encoding.eng ≠ .idle ∧ coded.eng = .idle ∧ faultedState.fault = true ∧ coded.fault = false ∧
    irq coded = false ∧ irq { coded with irqEn := 1 } = true ∧
    1 < ({ coded with params := { Params.chosen with hosts := 2 } } : State).params.hosts := by decide

/-- The loops: BITOUT_Q with a bit and without, STATUS read with BUSY = 1 and 0, a decoder that holds and one that does not,
IN with a bit and without. -/
theorem witness_HostLinesFollowTheirRules_loops : fullOut.bitoutQ = true :: [] ∧ coded.bitoutQ = [] ∧
    ({ coded.host with st := 1 } : HostAgent).st.getLsbD 0 = true ∧ coded.host.st.getLsbD 0 = false ∧
    hold { decoding with bitinQ := [] } = true ∧ hold decoding = false ∧ decoding.eng ≠ .idle ∧
    ({ coded.host with inBits := [true] } : HostAgent).inBits = true :: [] ∧ coded.host.inBits = [] := by decide

/-- A program with a line and one without, of the one host. -/
theorem witness_HostLinesFollowTheirRules_turns : coded.params.hosts ≤ 1 ∧ coded.host.prog = [] ∧
    ({ coded with host := { coded.host with prog := [.rd .bitout .x, .poll] } } : State).host.prog =
      .rd .bitout .x :: [.poll] := by decide

/-- KIND BYTE, EOF and TRUNC; a header that parses; RESULT0 of an absent symbol and of a present one. -/
theorem witness_HostLinesFollowTheirRules_results : (0x00000061 : Word).extractLsb' 16 2 = 0 ∧
    (0x00010100 : Word).extractLsb' 16 2 = 1 ∧ 2 ≤ ((0x00020000 : Word).extractLsb' 16 2).toNat ∧
    parseHeader [0x7B, 0x7D] = some [] ∧ State.reset.result0 = 0 ∧ coded.result0 ≠ 0 := by decide

/-- Runs that have ended: without a fault, failed by a CHECK, with FAULT = 1; and one that has not. -/
theorem witness_HostLinesFollowTheirRules_runs : coded.host.prog = [] ∧ coded.eng = .idle ∧ coded.fault = false ∧
    coded.host.outcome = .running ∧ ({ coded.host with outcome := .failed 6 } : HostAgent).outcome = .failed 6 ∧
    faultedState.observation = some (.failed 2) ∧ encoding.observation = none ∧
    (∃ t, step faultedState = .next t) ∧ faultedState.params.hosts ≤ 1 :=
  ⟨by decide, by decide, by decide, by decide, by decide, by decide, by decide, ⟨_, rfl⟩, by decide⟩

theorem witness_HeaderRoundTrip : parseHeader [0x7B, 0x30, 0x31, 0x3A, 0x31, 0x7D] = none := by decide

theorem witness_ParsedHeadersAreOfTheGrammar :
    parseHeader [0x7B, 0x32, 0x35, 0x36, 0x3A, 0x31, 0x7D] = some [(256, 1)] := by decide

end Sys2Proof.Tests
end

section
/-! A row of the opcode map keeps, of a word, the low byte and the bits its format reserves (30_encoding.md R72): a word
selects it exactly when its OPCODE is the row's and its reserved bits are 0. So the opcode map and the decoder agree, row
by row and command by command. -/

namespace Sys2Proof

/-- A field read as a number is the slice of the word. -/
theorem bits_eq_toNat_extractLsb' (w : Word) (hi lo : Nat) : bits w hi lo = (w.extractLsb' lo (hi + 1 - lo)).toNat := by
  rw [BitVec.extractLsb'_toNat, Nat.shiftRight_eq_div_pow, bits]

/-- OPCODE read as a number and as a slice. -/
theorem bits_opcode_eq_iff (w : Word) (op : BitVec 8) : bits w 7 0 = op.toNat ↔ w.extractLsb' 0 8 = op := by
  rw [bits_eq_toNat_extractLsb', BitVec.toNat_inj]

theorem bits_opcode_lt (w : Word) : bits w 7 0 < 2 ^ 8 := Nat.mod_lt _ (by decide)

/-- A field that reaches up to bit 31 is what is left of the word above it. -/
theorem bits_top (w : Word) (lo : Nat) : bits w 31 lo = w.toNat / 2 ^ lo := by
  have hword : w.toNat < 2 ^ lo * 2 ^ (32 - lo) := by
    rw [← Nat.pow_add]
    exact w.isLt.trans_le (Nat.pow_le_pow_right (by decide) (by omega))
  exact Nat.mod_eq_of_lt (Nat.div_lt_of_lt_mul hword)

/-- The mask of a format whose reserved bits start at `lo`: OPCODE and the reserved bits. -/
def formatMask (lo : Nat) : Word := BitVec.allOnes 32 <<< lo ||| 0xFF

/-- What a format's mask keeps of a word: OPCODE, and the reserved bits in their place. -/
theorem toNat_and_formatMask (w : Word) {lo : Nat} (hlo : 8 ≤ lo) :
    (w &&& formatMask lo).toNat = bits w 31 lo * 2 ^ lo + bits w 7 0 := by
  have hhigh : ((w >>> lo) <<< lo).toNat = bits w 31 lo * 2 ^ lo := by
    rw [BitVec.toNat_shiftLeft, BitVec.toNat_ushiftRight, Nat.shiftRight_eq_div_pow, Nat.shiftLeft_eq, bits_top,
      Nat.mod_eq_of_lt ((Nat.div_mul_le_self _ _).trans_lt w.isLt)]
  have hlow : (w &&& (0xFF : Word)).toNat = bits w 7 0 := by
    simpa [bits] using Nat.and_two_pow_sub_one_eq_mod w.toNat 8
  have hbyte : bits w 7 0 < 2 ^ lo := (bits_opcode_lt w).trans_le (Nat.pow_le_pow_right (by decide) hlo)
  rw [formatMask, BitVec.and_or_distrib_left, ← BitVec.shiftLeft_ushiftRight, BitVec.toNat_or, hhigh, hlow,
    ← Nat.shiftLeft_eq, ← Nat.shiftLeft_add_eq_or_of_lt hbyte]

/-- The row of the opcode map with OPCODE `op` whose reserved bits start at `lo` (30_encoding.md R70, R72). -/
def formatRow (op lo : Nat) : OpcodeRow := ⟨op, formatMask lo, BitVec.ofNat 32 op⟩

/-- A word selects a row exactly when its OPCODE is the row's and its reserved bits are 0. -/
theorem selects_formatRow_iff (w : Word) {op lo : Nat} (hop : op < 2 ^ 8) (hlo : 8 ≤ lo) :
    w &&& (formatRow op lo).mask = (formatRow op lo).matched ↔ bits w 7 0 = op ∧ bits w 31 lo = 0 := by
  have hbyte := bits_opcode_lt w
  have hpow : 2 ^ 8 ≤ 2 ^ lo := Nat.pow_le_pow_right (by decide) hlo
  rw [formatRow, ← BitVec.toNat_inj, toNat_and_formatMask w hlo, BitVec.toNat_ofNat, Nat.mod_eq_of_lt (by omega)]
  rcases Nat.eq_zero_or_pos (bits w 31 lo) with hz | hpos
  · simp [hz]
  · have := Nat.le_mul_of_pos_left (2 ^ lo) hpos
    omega

theorem opcodeMap_eq_formatRows : opcodeMap =
    [formatRow 0x00 8, formatRow 0x01 8, formatRow 0x02 17, formatRow 0x03 17, formatRow 0x04 17, formatRow 0x10 8,
      formatRow 0x11 18, formatRow 0x20 8, formatRow 0x21 20, formatRow 0x30 17, formatRow 0x31 8, formatRow 0x32 8,
      formatRow 0x7F 8] := by decide

/-- The lowest bit a command's format reserves (30_encoding.md R68). -/
def Instr.reservedLo : Instr → Nat
  | .count _ | .writeFreq _ | .readFreq _ | .encode _ => 17
  | .readNode _ => 18
  | .readCode _ _ => 20
  | .nop | .clearFreq | .buildTree | .genCodes | .decode | .streamReset | .clearFault => 8

/-- A command's row of the opcode map. -/
def Instr.row (i : Instr) : OpcodeRow := formatRow i.opcode i.reservedLo

theorem Instr.row_mem_opcodeMap (i : Instr) : i.row ∈ opcodeMap := by
  rw [opcodeMap_eq_formatRows]
  cases i <;> simp [Instr.row, Instr.opcode, Instr.reservedLo]

theorem Instr.selects_row_iff (i : Instr) (w : Word) :
    w &&& i.row.mask = i.row.matched ↔ bits w 7 0 = i.opcode ∧ bits w 31 i.reservedLo = 0 :=
  selects_formatRow_iff w (by cases i <;> simp [Instr.opcode]) (by cases i <;> simp [Instr.reservedLo])

theorem reservedFrom_eq_ok_iff {w : Word} {lo : Nat} {i j : Instr} :
    reservedFrom w lo i = .ok j ↔ bits w 31 lo = 0 ∧ i = j := by
  unfold reservedFrom
  split <;> simp_all

/-- A word that decodes selects the row of the command it decodes to. -/
theorem selects_row_of_decode {w : Word} {i : Instr} (h : decode w = .ok i) : w &&& i.row.mask = i.row.matched := by
  rw [Instr.selects_row_iff]
  unfold decode at h
  split at h
  case h_14 => cases h
  all_goals
    obtain ⟨hres, rfl⟩ := reservedFrom_eq_ok_iff.mp h
    exact ⟨‹_›, hres⟩

/-- A word that selects a row decodes to a command of that row. -/
theorem decode_of_selects {w : Word} {r : OpcodeRow} (hr : r ∈ opcodeMap) (h : w &&& r.mask = r.matched) :
    ∃ i, decode w = .ok i ∧ i.row = r := by
  simp only [opcodeMap_eq_formatRows, List.mem_cons, List.not_mem_nil, or_false] at hr
  rcases hr with rfl | rfl | rfl | rfl | rfl | rfl | rfl | rfl | rfl | rfl | rfl | rfl | rfl
  all_goals
    obtain ⟨hop, hres⟩ := (selects_formatRow_iff w (by decide) (by decide)).mp h
    simp only [decode, hop, reservedFrom, hres, if_true]
    exact ⟨_, rfl, rfl⟩

/-- A word that selects no row is no command. -/
theorem decode_error_of_selects_none {w : Word} (h : ∀ r ∈ opcodeMap, w &&& r.mask ≠ r.matched) :
    ∃ e, decode w = .error e := by
  cases hd : decode w with
  | error e => exact ⟨e, rfl⟩
  | ok i => exact absurd (selects_row_of_decode hd) (h i.row i.row_mem_opcodeMap)

end Sys2Proof
end

section
/-! The step of a pending word (10_state.md R45). -/

namespace Sys2Proof.Machine

theorem engineStep_pend {s : State} {w d : Word} (h : s.eng = .pend w d) : engineStep s = decodeStep w s := by
  simp only [engineStep, h]

theorem engineEnabled_pend {s : State} {w d : Word} (h : s.eng = .pend w d) : engineEnabled s = true := by
  simp only [engineEnabled, h]

theorem decodeStep_of_ok {w : Word} {i : Instr} (h : decode w = .ok i) (s : State) : decodeStep w s = exec i s := by
  simp only [decodeStep, h]

theorem decodeStep_of_error {w : Word} {e : Illegal} (h : decode w = .error e) (s : State) :
    decodeStep w s = .next (takeFault .illegalCmd w s) := by
  simp only [decodeStep, h]

/-- The effect of every command but ENCODE and DECODE includes completion. -/
theorem Effect.eng_idle {i : Instr} {s t : State} (h : Effect i s t) (henc : ∀ sym, i ≠ .encode sym) (hdec : i ≠ .decode) :
    t.eng = .idle := by
  cases i with
  | nop | clearFreq | streamReset | clearFault => rw [show t = complete _ from h, complete_eng]
  | count => obtain ⟨-, -, rfl⟩ := h; rfl
  | buildTree => obtain ⟨-, -, _, rfl⟩ := h; rfl
  | writeFreq | readFreq => obtain ⟨-, rfl⟩ := h; rfl
  | readNode | readCode => obtain ⟨-, -, _, -, rfl⟩ := h; rfl
  | genCodes => obtain ⟨-, _, -, rfl⟩ := h; rfl
  | encode sym => exact absurd rfl (henc sym)
  | decode => exact absurd rfl hdec

/-- Every command but ENCODE and DECODE finishes in its decode step, with a fault or without. -/
theorem exec_eng_idle {i : Instr} {s t : State} (h : exec i s = .next t) (henc : ∀ sym, i ≠ .encode sym)
    (hdec : i ≠ .decode) : t.eng = .idle := by
  rcases exec_cases h with ⟨k, rfl⟩ | he
  · exact takeFault_eng k _ s
  · exact he.eng_idle henc hdec

/-- Settles O10: a word selects a row exactly when it decodes to a command of that row (`decode_of_selects`,
`decode_error_of_selects_none`), and a command either takes a fault or has its one effect, and both complete unless the
command is ENCODE or DECODE. -/
theorem engineDecodesThePendingWord : Obligations.EngineDecodesThePendingWord := by
  intro s w d hs
  refine ⟨engineEnabled_pend hs, fun r hr hsel => ?_, fun hnone => ?_⟩
  · obtain ⟨i, hi, rfl⟩ := decode_of_selects hr hsel
    have hstep : engineStep s = exec i s := (engineStep_pend hs).trans (decodeStep_of_ok hi s)
    exact ⟨i, hi, rfl, hstep, fun henc hdec t ht => exec_eng_idle (hstep ▸ ht) henc hdec⟩
  · obtain ⟨e, he⟩ := decode_error_of_selects_none hnone
    rw [engineStep_pend hs, decodeStep_of_error he]
    rfl

/-- Settles O12: the three cases of `issue_cases`, with the opcode test read on the slice. -/
theorem cmdWriteIssues : Obligations.CmdWriteIssues := by
  intro s w
  have hnop : bits w 7 0 = 0x00 ↔ w.extractLsb' 0 8 = 0x00#8 := bits_opcode_eq_iff w 0x00
  have hclear : bits w 7 0 = 0x7F ↔ w.extractLsb' 0 8 = 0x7F#8 := bits_opcode_eq_iff w 0x7F
  have hcases := issue_cases w s
  simp only [ne_eq, hnop, hclear] at hcases
  rcases hcases with ⟨hbusy, he⟩ | ⟨hidle, ⟨hfault, hop0, hop7F⟩, he⟩ | ⟨hidle, haccept, he⟩
  · exact ⟨fun _ => he, fun hidle => absurd hidle hbusy, fun hidle => absurd hidle hbusy⟩
  · refine ⟨fun hbusy => absurd hidle hbusy, fun _ _ _ _ => he, fun _ haccept => ?_⟩
    simp [hfault, hop0, hop7F] at haccept
  · exact ⟨fun hbusy => absurd hidle hbusy, fun _ hf h0 h7F => absurd ⟨hf, h0, h7F⟩ haccept, fun _ _ => he⟩

end Sys2Proof.Machine
end

section
/-! The fields of FIFO_STAT (10_state.md R31). -/

namespace Sys2Proof.Machine

theorem fifoStat_bitinLevel (s : State) : (fifoStat s).extractLsb' 0 12 = BitVec.ofNat 12 s.bitinQ.length :=
  BitVec.extractLsb'_append_eq_right

theorem fifoStat_reservedLow (s : State) : (fifoStat s).extractLsb' 12 4 = 0 := by
  rw [fifoStat, BitVec.extractLsb'_append_eq_of_le (by decide)]
  exact BitVec.extractLsb'_append_eq_right

theorem fifoStat_bitoutLevel (s : State) : (fifoStat s).extractLsb' 16 12 = BitVec.ofNat 12 s.bitoutQ.length := by
  rw [fifoStat, BitVec.extractLsb'_append_eq_of_le (by decide), BitVec.extractLsb'_append_eq_of_le (by decide)]
  exact BitVec.extractLsb'_append_eq_right

theorem fifoStat_reservedHigh (s : State) : (fifoStat s).extractLsb' 28 3 = 0 := by
  rw [fifoStat, BitVec.extractLsb'_append_eq_of_le (by decide), BitVec.extractLsb'_append_eq_of_le (by decide),
    BitVec.extractLsb'_append_eq_of_le (by decide)]
  exact BitVec.extractLsb'_append_eq_right

theorem fifoStat_eos (s : State) : (fifoStat s).getLsbD 31 = s.eos := by
  simp only [fifoStat, BitVec.getLsbD_append]
  simp

/-- A level of at most 4095 bits is read back whole from its 12-bit field (00_scope.md R10, 10_state.md R31). -/
theorem toNat_level {n depth : Nat} (hn : n ≤ depth) (hdepth : depth ≤ 4095) : (BitVec.ofNat 12 n).toNat = n :=
  Nat.mod_eq_of_lt (by omega)

/-- Settles O53: the fields of `fifoStat`; the levels fit because the invariant bounds each queue by its depth. -/
theorem fifoStatFields : Obligations.FifoStatFields := by
  intro s hinv
  obtain ⟨-, -, hbitin, -, hbitout, -⟩ := hinv.params
  refine ⟨rfl, ?_, fifoStat_reservedLow s, ?_, fifoStat_reservedHigh s, fifoStat_eos s⟩
  · exact (congrArg BitVec.toNat (fifoStat_bitinLevel s)).trans (toNat_level hinv.bitin hbitin)
  · exact (congrArg BitVec.toNat (fifoStat_bitoutLevel s)).trans (toNat_level hinv.bitout hbitout)

end Sys2Proof.Machine
end

section
/-! The encoded examples of 30_encoding.md R76. -/

namespace Sys2Proof.Machine

/-- COUNT of a symbol above the pseudo-EOF takes BAD_SYMBOL with its own word as info (41_frequency.md R83). -/
theorem exec_count_of_pseudoEof_lt {sym : Nat} (h : Config.pseudoEof < sym) (s : State) :
    exec (.count sym) s = .next (takeFault .badSymbol (encode (.count sym)) s) :=
  if_pos h

/-- Settles O9: the words are fixed, so the decoder is run on each; COUNT 257 is past the last symbol, in every state. -/
theorem specExamplesDecode : Obligations.SpecExamplesDecode := by
  have hword : encode (.count 257) = 0x00010102 := by decide
  have hfault (s : State) : exec (.count 257) s = .next (Claims.faulted 2 .badSymbol 0x00010102 s) :=
    (exec_count_of_pseudoEof_lt (by decide) s).trans (by rw [hword]; rfl)
  refine ⟨?nop, ?clearFreq, ?count97, ?count256, ?writeFreq98, ?readFreq256, ?buildTree, ?readNode6, ?readNode512,
    ?genCodes, ?readCode256, ?readCode65, ?encode99, ?encode256, ?decode, ?streamReset, ?clearFault, ?count257,
    ?reservedBit17, ?unassigned5, hfault⟩
  all_goals decide

end Sys2Proof.Machine
end

section
/-! A command's word and the words its format reserves, for every command at once (30_encoding.md R67, R68, R70). -/

namespace Sys2Proof

theorem Instr.opcode_lt (i : Instr) : i.opcode < 2 ^ 8 := by
  cases i <;> simp [Instr.opcode]

/-- The word of a command whose one operand starts at bit 8 (R67): OPCODE and the operand do not overlap. -/
theorem encode_eq_wordS {i : Instr} {operand : Nat} (h : i.operandBits = 2 ^ 8 * operand) :
    encode i = Claims.wordS (BitVec.ofNat 32 i.opcode) operand := by
  have hop := i.opcode_lt
  have hshift : (BitVec.ofNat 32 operand <<< 8).toNat = (operand % 2 ^ 24) <<< 8 := by
    simp only [BitVec.toNat_shiftLeft, BitVec.toNat_ofNat, Nat.shiftLeft_eq]
    omega
  apply BitVec.eq_of_toNat_eq
  rw [encode, h, Claims.wordS, BitVec.toNat_or, hshift, BitVec.toNat_ofNat, BitVec.toNat_ofNat,
    Nat.mod_eq_of_lt (a := i.opcode) (by omega), Nat.or_comm, ← Nat.shiftLeft_add_eq_or_of_lt hop, Nat.shiftLeft_eq]
  omega

/-- A word with a command's OPCODE and a bit set that its format reserves is illegal (30_encoding.md R70). -/
theorem reservedAbove_opcode (i : Instr) : Claims.ReservedAbove (BitVec.ofNat 8 i.opcode) i.reservedLo := by
  intro w hop hset
  have hbyte : bits w 7 0 = i.opcode := by
    rw [(bits_opcode_eq_iff w _).mpr hop]
    cases i <;> rfl
  have hreserved : bits w 31 i.reservedLo ≠ 0 := by
    rw [bits_top]
    exact (Nat.div_pos hset (Nat.two_pow_pos _)).ne'
  cases i
  all_goals
    simp only [decode, hbyte, Instr.opcode]
    exact if_neg hreserved

end Sys2Proof
end

section
/-! The frequency counter commands (41_frequency.md R82 to R86). -/

namespace Sys2Proof.Machine

/-- WRITE_FREQ of a symbol above the pseudo-EOF takes BAD_SYMBOL with its own word as info (R84). -/
theorem exec_writeFreq_of_pseudoEof_lt {sym : Nat} (h : Config.pseudoEof < sym) (s : State) :
    exec (.writeFreq sym) s = .next (takeFault .badSymbol (encode (.writeFreq sym)) s) :=
  if_pos h

/-- READ_FREQ of a symbol above the pseudo-EOF takes BAD_SYMBOL with its own word as info (R85). -/
theorem exec_readFreq_of_pseudoEof_lt {sym : Nat} (h : Config.pseudoEof < sym) (s : State) :
    exec (.readFreq sym) s = .next (takeFault .badSymbol (encode (.readFreq sym)) s) :=
  if_pos h

/-- COUNT of a symbol whose count is the largest takes COUNT_OVERFLOW (R83). -/
theorem exec_count_of_countMax {sym : Nat} {s : State} (h : sym ≤ Config.pseudoEof)
    (hmax : (freqAt s.freq sym).toNat = Config.countMax) :
    exec (.count sym) s = .next (takeFault .countOverflow (encode (.count sym)) s) :=
  (if_neg h.not_gt).trans (if_pos hmax)

/-- COUNT with room for one more occurrence (R83). -/
theorem exec_count_of_ne_countMax {sym : Nat} {s : State} (h : sym ≤ Config.pseudoEof)
    (hroom : (freqAt s.freq sym).toNat ≠ Config.countMax) :
    exec (.count sym) s = .next (completeWith (freqAt s.freq sym + 1) 0
      (invalidate { s with freq := freqPut s.freq sym (freqAt s.freq sym + 1) })) :=
  (if_neg h.not_gt).trans (if_neg hroom)

/-- WRITE_FREQ never overflows: the latched DATA is a count, as COUNT_W = 32 (R84). -/
theorem exec_writeFreq_of_le {sym : Nat} (h : sym ≤ Config.pseudoEof) (s : State) :
    exec (.writeFreq sym) s =
      .next (complete (invalidate { s with freq := freqPut s.freq sym (latched s) })) :=
  (if_neg h.not_gt).trans (if_neg (Nat.le_pred_of_lt (latched s).isLt).not_gt)

/-- READ_FREQ (R85). -/
theorem exec_readFreq_of_le {sym : Nat} (h : sym ≤ Config.pseudoEof) (s : State) :
    exec (.readFreq sym) s = .next (completeWith (freqAt s.freq sym) 0 s) :=
  if_neg h.not_gt

/-- With a command pending, the latched DATA is the one it was issued with (10_state.md R44). -/
theorem latched_pend {s : State} {w d : Word} (h : s.eng = .pend w d) : latched s = d := by
  simp only [latched, h]

theorem freqAt_freqPut_same (f : List (Nat × Count)) (sym : Nat) (v : Count) : freqAt (freqPut f sym v) sym = v := by
  rw [freqAt_freqPut, if_pos rfl]

theorem freqAt_freqPut_of_ne {sym u : Nat} (h : u ≠ sym) (f : List (Nat × Count)) (v : Count) :
    freqAt (freqPut f sym v) u = freqAt f u := by
  rw [freqAt_freqPut, if_neg h]

/-- A count below the largest is incremented without wrapping (R83). -/
theorem toNat_add_one_of_ne_countMax {c : Count} (h : c.toNat ≠ Config.countMax) : (c + 1).toNat = c.toNat + 1 := by
  have hne : c.toNat ≠ 2 ^ 32 - 1 := h
  have hlt := c.isLt
  rw [BitVec.toNat_add, show (1 : Count).toNat = 1 from rfl]
  omega

/-- Settles O13: an empty table reads 0 at every symbol. -/
theorem clearFreqEmptiesTheTable : Obligations.ClearFreqEmptiesTheTable :=
  ⟨rfl, reservedAbove_opcode .clearFreq, fun _ => ⟨_, rfl, fun _ => rfl, rfl⟩⟩

/-- Settles O14: the three outcomes of COUNT, and read after write for the one that counts. -/
theorem countAddsOne : Obligations.CountAddsOne := by
  refine ⟨fun sym _ => encode_eq_wordS (i := .count sym) rfl, reservedAbove_opcode (.count 0), fun s sym => ?_⟩
  refine ⟨fun hsym => exec_count_of_pseudoEof_lt hsym s, fun hsym hmax => exec_count_of_countMax hsym hmax, ?counts⟩
  intro hsym hroom
  refine ⟨_, exec_count_of_ne_countMax hsym hroom, ?grows, fun u hu => freqAt_freqPut_of_ne hu _ _, ?frame⟩
  case grows => exact (congrArg _ (freqAt_freqPut_same ..)).trans (toNat_add_one_of_ne_countMax hroom)
  case frame =>
    rw [completeWith_freq, invalidate_freq, freqAt_freqPut_same]
    rfl

/-- Settles O15: the latched DATA is `d` while the command is pending, and read after write. -/
theorem writeFreqStoresLatchedData : Obligations.WriteFreqStoresLatchedData := by
  refine ⟨fun sym _ => encode_eq_wordS (i := .writeFreq sym) rfl, reservedAbove_opcode (.writeFreq 0),
    fun s sym w d hpend => ⟨fun hsym => exec_writeFreq_of_pseudoEof_lt hsym s, fun hsym => ?_⟩⟩
  refine ⟨_, exec_writeFreq_of_le hsym s, ?_, fun u hu => freqAt_freqPut_of_ne hu _ _, rfl⟩
  exact (freqAt_freqPut_same ..).trans (latched_pend hpend)

/-- Settles O16: the two outcomes of READ_FREQ. -/
theorem readFreqReturnsTheCount : Obligations.ReadFreqReturnsTheCount :=
  ⟨fun sym _ => encode_eq_wordS (i := .readFreq sym) rfl, reservedAbove_opcode (.readFreq 0), fun s _ =>
    ⟨fun hsym => exec_readFreq_of_pseudoEof_lt hsym s, fun hsym => exec_readFreq_of_le hsym s⟩⟩

/-- The arena begins with the leaves, in the order in which FREQ lists its symbols (R86, 42_tree_builder.md R93). -/
theorem arena_getElem?_of_keys {f : List (Nat × Count)} {i sym : Nat} (h : (keys f)[i]? = some sym) :
    ∃ c, (arena f)[i]? = some (leafNode (sym, c)) := by
  rw [keys, List.getElem?_map] at h
  obtain ⟨⟨_, c⟩, hi, rfl⟩ := Option.map_eq_some_iff.mp h
  refine ⟨c, ?_⟩
  have hlen : i < f.length := (List.getElem?_eq_some_iff.mp hi).1
  rw [arena, List.getElem?_append_left (by rwa [List.length_map]), List.getElem?_map, hi]
  rfl

/-- A symbol of FREQ fits the SYM field of its leaf. -/
theorem leafNode_sym_toNat {sym : Nat} (h : sym < 257) (c : Count) : (leafNode (sym, c)).sym.toNat = sym :=
  Nat.mod_eq_of_lt (by omega)

/-- Two strictly rising lists with the same elements are equal: the keys of a canonical FREQ, and the scan of all symbols
for those present (R86). -/
theorem keys_eq_filter_range {n : Nat} {f : List (Nat × Count)} (h : Table.wf (0 : Count) n f = true) :
    keys f = (List.range n).filter fun s => decide (freqAt f s ≠ 0) := by
  obtain ⟨hsorted, hbound⟩ := Table.keys_sorted h
  refine hsorted.eq_of_mem_iff (List.pairwise_lt_range.filter _) fun sym => ?_
  rw [List.mem_filter, List.mem_range, decide_eq_true_iff, Table.mem_keys_iff h, freqAt]
  exact ⟨fun hpresent => ⟨hbound sym ((Table.mem_keys_iff h).mpr hpresent), hpresent⟩, And.right⟩

/-- The last of the numbers scanned comes last where it is kept. -/
theorem getLast?_filter_range_succ {p : Nat → Bool} {n : Nat} (h : p n = true) :
    ((List.range (n + 1)).filter p).getLast? = some n := by
  rw [List.range_succ, List.filter_append, List.filter_singleton, h, cond_true, List.getLast?_concat]

/-- Settles O17: `keys` is the scan of the symbols for those present, the arena begins with their leaves, and the sentinel is
the last symbol scanned. -/
theorem keysAreThePresentSymbolsAscending : Obligations.KeysAreThePresentSymbolsAscending := by
  intro f hf
  have hkeys := keys_eq_filter_range hf
  refine ⟨fun i sym hi => ?_, hkeys, fun hsentinel => ?_⟩
  · obtain ⟨c, hc⟩ := arena_getElem?_of_keys hi
    have hsym : sym < 257 := (Table.keys_sorted hf).2 sym (List.mem_of_getElem? hi)
    exact ⟨_, hc, rfl, leafNode_sym_toNat hsym c⟩
  · rw [hkeys]
    exact getLast?_filter_range_succ (decide_eq_true hsentinel)

end Sys2Proof.Machine
end

section
/-! The tree builder commands: READ_NODE, what BUILD_TREE depends on, and the counts of the tree (42_tree_builder.md R94,
R95, R97). -/

namespace Sys2Proof.Machine

/-- READ_NODE with no valid tree takes NO_TREE, whatever the index (R95). -/
theorem exec_readNode_of_noTree {s : State} (h : s.treeValid = false) (idx : Nat) :
    exec (.readNode idx) s = .next (takeFault .noTree (encode (.readNode idx)) s) :=
  if_pos h

/-- READ_NODE of an index past the tree takes BAD_INDEX (R95). -/
theorem exec_readNode_of_nodes_le {s : State} {idx : Nat} (h : s.treeValid = true) (hidx : s.nodes.toNat ≤ idx) :
    exec (.readNode idx) s = .next (takeFault .badIndex (encode (.readNode idx)) s) :=
  (if_neg (by simp [h])).trans (if_pos hidx)

/-- READ_NODE of a node of the tree (R95). -/
theorem exec_readNode_of_nodeAt {s : State} {idx : Nat} {x : Node} (h : s.treeValid = true) (hidx : idx < s.nodes.toNat)
    (hx : nodeAt s idx = some x) : exec (.readNode idx) s = .next (completeWith x.count (nodeWord x) s) := by
  simp [exec, execReadNode, h, hidx, hx]

/-- BUILD_TREE of counts whose total does not fit takes COUNT_OVERFLOW (R91). -/
theorem exec_buildTree_of_overflow {s : State} (hne : s.freq ≠ []) (h : Config.countMax < totalCount s.freq) :
    exec .buildTree s = .next (takeFault .countOverflow (encode .buildTree) s) :=
  (if_neg (by simpa [keys] using hne)).trans (if_pos h)

/-- BUILD_TREE of counts whose total fits has its effect (R91). -/
theorem exec_buildTree_of_fits {s : State} (hne : s.freq ≠ []) (h : totalCount s.freq ≤ Config.countMax) :
    ∃ t, exec .buildTree s = .next t ∧ Effect .buildTree s t :=
  ⟨_, (if_neg (by simpa [keys] using hne)).trans (if_neg h.not_gt), hne, h, _, rfl⟩

/-- The tree that BUILD_TREE writes, field by field (R91). -/
theorem Effect.buildTree_fields {s t : State} (h : Effect .buildTree s t) :
    t.treeValid = true ∧ t.node = arena s.freq ∧ t.root = BitVec.ofNat 10 ((arena s.freq).length - 1) ∧
      t.nodes = BitVec.ofNat 10 (arena s.freq).length := by
  obtain ⟨-, -, _, rfl⟩ := h
  exact ⟨rfl, rfl, rfl, rfl⟩

/-- With a valid tree, GEN_CODES answers only by writing the table of its walk (43_code_table.md R99). -/
theorem codeTable_of_exec_genCodes {s t : State} (hv : s.treeValid = true) (h : exec .genCodes s = .next t) :
    codeTable s = some t.code := by
  simp only [exec, execGenCodes, hv] at h
  cases hc : codeTable s with
  | none => simp [hc] at h
  | some c =>
    simp only [hc] at h
    cases h
    rfl

/-- The code table is read off the tree's fields alone (R94). -/
theorem codeTable_congr {s u : State} (hv : s.treeValid = u.treeValid) (hnode : s.node = u.node) (hroot : s.root = u.root)
    (hnodes : s.nodes = u.nodes) : codeTable s = codeTable u := by
  have hlook : nodeAt s = nodeAt u := funext fun i => by rw [nodeAt, nodeAt, hv, hnode, hnodes]
  rw [codeTable, codeTable, hlook, hroot]

/-- Every index below NODES names an entry. -/
theorem State.TreeReads.exists_nodeAt {s : State} (h : s.TreeReads) {m : Nat} (hm : m < s.nodes.toNat) :
    ∃ x, nodeAt s m = some x := by
  have hroot := h.root
  obtain ⟨x, hx, -⟩ := h.below m (by omega)
  exact ⟨x, hx⟩

/-- One listed count is at most the sum of all. -/
theorem listed_count_le_totalCount {f : List (Nat × Count)} {e : Nat × Count} (h : e ∈ f) : e.2.toNat ≤ totalCount f :=
  List.le_sum_of_mem (List.mem_map_of_mem h)

/-- The entries below the number of symbols are their leaves. -/
theorem Forest.eq_leafNode {f : List (Nat × Count)} {ns : List Node} {pq : List Key} (h : Forest f ns pq) {m : Nat} {x : Node}
    (hm : m < f.length) (hx : ns[m]? = some x) : ∃ e ∈ f, x = leafNode e := by
  rw [h.leaves m hm, List.getElem?_map] at hx
  obtain ⟨e, he, rfl⟩ := Option.map_eq_some_iff.mp hx
  exact ⟨e, List.mem_of_getElem? he, rfl⟩

/-- No node's count exceeds the total (R97). -/
theorem Forest.count_le_totalCount {f : List (Nat × Count)} {ns : List Node} {pq : List Key} (h : Forest f ns pq) {m : Nat}
    {x : Node} (hx : ns[m]? = some x) : x.count.toNat ≤ totalCount f := by
  by_cases hm : m < f.length
  · obtain ⟨e, he, rfl⟩ := h.eq_leafNode hm hx
    exact listed_count_le_totalCount he
  · exact (h.inner m x (by omega) hx).total

/-- The entries with LEAF = 0 are the internal nodes. -/
theorem Forest.inner_of_not_leaf {f : List (Nat × Count)} {ns : List Node} {pq : List Key} (h : Forest f ns pq) {m : Nat}
    {x : Node} (hx : ns[m]? = some x) (hl : x.leaf = false) : Inner f ns m x := by
  by_cases hm : m < f.length
  · obtain ⟨e, -, rfl⟩ := h.eq_leafNode hm hx
    cases hl
  · exact h.inner m x (by omega) hx

/-- The root is the one element left in the queue, whose counts always sum to the total (R93). -/
theorem State.TreeReads.root_count {s : State} (h : s.TreeReads) :
    ∃ r, nodeAt s s.root.toNat = some r ∧ r.count.toNat = totalCount s.freq := by
  obtain ⟨k, hforest, hk⟩ := h.forest
  obtain ⟨r, hr, hcount⟩ := hforest.queue k (by simp)
  have hsum : k.1 = totalCount s.freq := by simpa using hforest.sum
  have hroot := h.root
  refine ⟨r, ?_, hcount.trans hsum⟩
  rw [h.entry _ (by omega), ← hk, hr]

/-- The count of a node with LEAF = 0 is the exact sum of its children's (R97). -/
theorem State.TreeReads.count_eq_add {s : State} (h : s.TreeReads) {m : Nat} {x : Node} (hm : m < s.nodes.toNat)
    (hx : nodeAt s m = some x) (hl : x.leaf = false) :
    ∃ a b, nodeAt s x.zero.toNat = some a ∧ nodeAt s x.one.toNat = some b ∧
      x.count.toNat = a.count.toNat + b.count.toNat := by
  obtain ⟨_, hforest, -⟩ := h.forest
  obtain ⟨hzero, hone⟩ := h.children hm hx hl
  obtain ⟨a, b, ha, hb, hcount, -⟩ := (hforest.inner_of_not_leaf ((h.entry m hm).symm.trans hx) hl).children
  exact ⟨a, b, (h.entry _ (hzero.trans hm)).trans ha, (h.entry _ (hone.trans hm)).trans hb, hcount⟩

/-- No node's count exceeds the root's, the total (R97). -/
theorem State.TreeReads.count_le_totalCount {s : State} (h : s.TreeReads) {m : Nat} {x : Node} (hm : m < s.nodes.toNat)
    (hx : nodeAt s m = some x) : x.count.toNat ≤ totalCount s.freq := by
  obtain ⟨_, hforest, -⟩ := h.forest
  exact hforest.count_le_totalCount ((h.entry m hm).symm.trans hx)

/-- Settles O23: the counts are those of the forest that the merges end in; a build that fits records no fault, so it is
told from the overflow by the record. -/
theorem mergeCountsAreExactSums : Obligations.MergeCountsAreExactSums := by
  refine ⟨fun s hinv hv => ?counts, fun s hne => ⟨fun h => exec_buildTree_of_overflow hne h, fun hfault => ?fits⟩⟩
  case counts =>
    have hreads := hinv.reads hv
    exact ⟨hreads.root_count, fun m x hm hx => ⟨hreads.count_le_totalCount hm hx, hreads.count_eq_add hm hx⟩⟩
  case fits =>
    by_contra hle
    obtain ⟨t, ht, -, -, _, rfl⟩ := exec_buildTree_of_fits hne (Nat.le_of_not_gt hle)
    have hraised := congrArg State.raised (Host.Outcome.next.inj (ht.symm.trans hfault))
    exact absurd hraised.symm (List.cons_ne_self _ _)

/-- Settles O25: the tree's fields that BUILD_TREE writes are functions of FREQ, and GEN_CODES walks nothing else. -/
theorem treeAndCodesDependOnFreqAlone : Obligations.TreeAndCodesDependOnFreqAlone := by
  intro s u hfreq hne hfits
  obtain ⟨s1, hs1, hsEffect⟩ := exec_buildTree_of_fits hne hfits
  obtain ⟨u1, hu1, huEffect⟩ := exec_buildTree_of_fits (hfreq ▸ hne) (hfreq ▸ hfits)
  obtain ⟨hsv, hsnode, hsroot, hsnodes⟩ := hsEffect.buildTree_fields
  obtain ⟨huv, hunode, huroot, hunodes⟩ := huEffect.buildTree_fields
  have hnode : s1.node = u1.node := by rw [hsnode, hunode, hfreq]
  have hroot : s1.root = u1.root := by rw [hsroot, huroot, hfreq]
  have hnodes : s1.nodes = u1.nodes := by rw [hsnodes, hunodes, hfreq]
  refine ⟨s1, u1, hs1, hu1, hnode, hroot, hnodes, fun s2 u2 hs2 hu2 => Option.some.inj ?_⟩
  calc some s2.code = codeTable s1 := (codeTable_of_exec_genCodes hsv hs2).symm
    _ = codeTable u1 := codeTable_congr (hsv.trans huv.symm) hnode hroot hnodes
    _ = some u2.code := codeTable_of_exec_genCodes huv hu2

/-- Settles O26: the three outcomes of READ_NODE; under the invariant every index below NODES names an entry. -/
theorem readNodeReturnsTheEntry : Obligations.ReadNodeReturnsTheEntry := by
  refine ⟨fun idx _ => encode_eq_wordS (i := .readNode idx) rfl, reservedAbove_opcode (.readNode 0), fun s idx hinv => ?_⟩
  refine ⟨fun hv => exec_readNode_of_noTree hv idx, fun hv hidx => exec_readNode_of_nodes_le hv hidx,
    fun hv => (hinv.reads hv).small, fun hv hidx => ?entry⟩
  case entry =>
    obtain ⟨x, hx⟩ := (hinv.reads hv).exists_nodeAt hidx
    exact ⟨x, ((hinv.reads hv).entry idx hidx).symm.trans hx, exec_readNode_of_nodeAt hv hidx hx⟩

end Sys2Proof.Machine
end

section
/-! The entries of the code table under the invariant, and READ_CODE (43_code_table.md R99, R101, R102). -/

namespace Sys2Proof.Machine

/-- With CODES_VALID = 1 an entry is read off the table (10_state.md R40). -/
theorem codeAt_of_codesValid {s : State} (hv : s.codesValid = true) {sym : Nat} (hsym : sym < Config.nsym) :
    codeAt s sym = some (Table.get Code.cleared s.code sym) := by
  rw [codeAt, if_pos hsym, if_pos hv]

/-- With CODES_VALID = 1 the cleared entry stands for an absent symbol, and the code of its leaf for a present one (R99). -/
theorem State.Inv.code_cases {s : State} (h : s.Inv) (hv : s.codesValid = true) {sym : Nat} {c : Code}
    (hc : codeAt s sym = some c) :
    (freqAt s.freq sym = 0 ∧ c = Code.cleared) ∨
      (freqAt s.freq sym ≠ 0 ∧ ∃ bs, (sym, bs) ∈ s.leaves ∧ c = codeBelow 0 0 bs) := by
  have hsym : sym < Config.nsym := by
    by_contra hge
    simp [codeAt, hge] at hc
  have hget : Table.get Code.cleared s.code sym = c := Option.some.inj ((codeAt_of_codesValid hv hsym).symm.trans hc)
  have hreads := h.reads (h.codesNeedTree hv)
  obtain ⟨t, ht, -, hleaf, habsent⟩ := codeTable_entries h.freq hreads
  obtain rfl : s.code = t := Option.some.inj ((h.codes hv).symm.trans ht)
  by_cases hfreq : freqAt s.freq sym = 0
  · exact .inl ⟨hfreq, hget.symm.trans (habsent sym hfreq)⟩
  · obtain ⟨bs, hbs⟩ := leaf_of_present h.freq hreads hfreq
    exact .inr ⟨hfreq, bs, hbs, hget.symm.trans (hleaf _ hbs)⟩

/-- No bit of PATH is set at LEN or above (R99). -/
theorem State.Inv.path_getLsbD_of_len_le {s : State} (h : s.Inv) (hv : s.codesValid = true) {sym : Nat} {c : Code}
    (hc : codeAt s sym = some c) {j : Nat} (hj : c.len.toNat ≤ j) : c.path.getLsbD j = false := by
  obtain ⟨-, rfl⟩ | ⟨-, bs, hbs, rfl⟩ := h.code_cases hv hc
  · exact BitVec.getLsbD_zero
  · obtain ⟨-, -, hdepth, -⟩ := (leaves_bound h.freq (h.reads (h.codesNeedTree hv))).2 _ hbs
    obtain ⟨hlen, -, hclear⟩ := codeBelow_root hdepth
    exact hclear j (hlen ▸ hj)

/-- Settles O31: a valid entry is the code of a leaf, and an edge sequence is shorter than the number of leaves. -/
theorem codeLengthBounds : Obligations.CodeLengthBounds := by
  intro s hinv hv sym c hc hvalid
  obtain ⟨-, rfl⟩ | ⟨-, bs, hbs, rfl⟩ := hinv.code_cases hv hc
  · cases hvalid
  · obtain ⟨-, hlt, hdepth, hnil⟩ := (leaves_bound hinv.freq (hinv.reads (hinv.codesNeedTree hv))).2 _ hbs
    rw [(codeBelow_root hdepth).1]
    exact ⟨hlt, Table.length_le hinv.freq, List.length_eq_zero_iff.trans hnil⟩

theorem codeWord_valid (c : Code) : (codeWord c).getLsbD 31 = c.valid := by
  simp only [codeWord, BitVec.getLsbD_append]
  simp

theorem codeWord_reserved (c : Code) : (codeWord c).extractLsb' 9 22 = 0 := by
  rw [codeWord, BitVec.extractLsb'_append_eq_of_le (by decide)]
  exact BitVec.extractLsb'_append_eq_right

theorem codeWord_len (c : Code) : (codeWord c).extractLsb' 0 9 = c.len :=
  BitVec.extractLsb'_append_eq_right

theorem pathWord_getLsbD {j : Nat} (hj : j < 32) (path : BitVec 256) (k : Nat) :
    (pathWord path k).getLsbD j = path.getLsbD (32 * k + j) := by
  simp [pathWord, hj]

/-- A word of PATH with no bit set reads 0. -/
theorem pathWord_eq_zero {path : BitVec 256} {k : Nat} (h : ∀ j, 32 * k ≤ j → path.getLsbD j = false) :
    pathWord path k = 0 := by
  apply BitVec.eq_of_getLsbD_eq
  intro j hj
  calc (pathWord path k).getLsbD j = path.getLsbD (32 * k + j) := pathWord_getLsbD hj path k
    _ = false := h _ (Nat.le_add_right ..)
    _ = (0 : Word).getLsbD j := BitVec.getLsbD_zero.symm

/-- The word of READ_CODE: WORD stands above OPCODE and SYM (R67). -/
theorem encode_readCode {sym : Nat} (hsym : sym < 512) {k : Nat} (hk : k < 8) :
    encode (.readCode sym k) = Claims.wordS 0x21 sym ||| (BitVec.ofNat 32 k <<< 17) := by
  have hword0 : encode (.readCode sym 0) = Claims.wordS 0x21 sym := encode_eq_wordS (operand := sym) rfl
  have hshift : (BitVec.ofNat 32 k <<< 17).toNat = k <<< 17 := by
    simp only [BitVec.toNat_shiftLeft, BitVec.toNat_ofNat, Nat.shiftLeft_eq]
    omega
  have hlow : (encode (.readCode sym 0)).toNat = 0x21 + 2 ^ 8 * sym := by
    simp only [encode, Instr.opcode, Instr.operandBits, BitVec.toNat_ofNat]
    omega
  apply BitVec.eq_of_toNat_eq
  rw [← hword0, BitVec.toNat_or, hshift, hlow, Nat.or_comm, ← Nat.shiftLeft_add_eq_or_of_lt (by omega), Nat.shiftLeft_eq]
  simp only [encode, Instr.opcode, Instr.operandBits, BitVec.toNat_ofNat]
  omega

/-- READ_CODE of a symbol above the pseudo-EOF takes BAD_SYMBOL, whether or not there are codes (R101). -/
theorem exec_readCode_of_pseudoEof_lt {sym : Nat} (h : Config.pseudoEof < sym) (k : Nat) (s : State) :
    exec (.readCode sym k) s = .next (takeFault .badSymbol (encode (.readCode sym k)) s) :=
  if_pos h

/-- READ_CODE with no valid code table takes NO_CODES (R101). -/
theorem exec_readCode_of_noCodes {sym : Nat} (h : sym ≤ Config.pseudoEof) {s : State} (hv : s.codesValid = false) (k : Nat) :
    exec (.readCode sym k) s = .next (takeFault .noCodes (encode (.readCode sym k)) s) :=
  (if_neg h.not_gt).trans (if_pos hv)

/-- READ_CODE of an entry of the code table (R101). -/
theorem exec_readCode_of_codeAt {sym : Nat} (h : sym ≤ Config.pseudoEof) {s : State} (hv : s.codesValid = true) {c : Code}
    (hc : codeAt s sym = some c) (k : Nat) :
    exec (.readCode sym k) s = .next (completeWith (codeWord c) (pathWord c.path k) s) := by
  simp [exec, execReadCode, h.not_gt, hv, hc]

/-- Settles O32: the three outcomes of READ_CODE; an absent symbol reads the cleared entry, and PATH is clear at LEN and
above. -/
theorem readCodeReturnsTheEntry : Obligations.ReadCodeReturnsTheEntry := by
  refine ⟨fun sym k hsym hk => encode_readCode hsym hk, reservedAbove_opcode (.readCode 0 0), fun s sym k hinv _ => ?_⟩
  refine ⟨fun hsym => exec_readCode_of_pseudoEof_lt hsym k s, fun hsym hv => exec_readCode_of_noCodes hsym hv k,
    fun hsym hv => ?entry⟩
  case entry =>
    have hc := codeAt_of_codesValid hv (Nat.lt_succ_of_le hsym)
    refine ⟨_, _, _, hc, exec_readCode_of_codeAt hsym hv hc k, codeWord_valid _, codeWord_reserved _, codeWord_len _,
      fun j hj => pathWord_getLsbD hj _ k, fun habsent => ?absent, fun hlen => ?beyond⟩
    case absent =>
      obtain ⟨-, hcleared⟩ | ⟨hpresent, -⟩ := hinv.code_cases hv hc
      · rw [hcleared]
        exact ⟨rfl, pathWord_eq_zero fun _ _ => BitVec.getLsbD_zero⟩
      · exact absurd habsent hpresent
    case beyond => exact pathWord_eq_zero fun j hj => hinv.path_getLsbD_of_len_le hv hc (hlen.trans hj)

end Sys2Proof.Machine
end

section
/-! The streams: the decode step of DECODE, STREAM_RESET, a BITIN write and a BITOUT read (44_stream_codec.md R110, R113 to
R115). -/

namespace Sys2Proof.Machine

/-- DECODE with no valid tree takes NO_TREE with its own word as info (R110). -/
theorem exec_decode_of_noTree {s : State} (hv : s.treeValid = false) :
    exec .decode s = .next (takeFault .noTree (encode .decode) s) :=
  if_pos hv

/-- DECODE with a valid tree puts the cursor at ROOT with no bit consumed (R110). -/
theorem exec_decode_of_treeValid {s : State} (hv : s.treeValid = true) :
    exec .decode s = .next { s with eng := .dec s.root 0 } :=
  if_neg (ne_false_of_eq_true hv)

/-- A BITOUT read of an empty queue (R115). -/
theorem bitoutRead_nil {s : State} (h : s.bitoutQ = []) : bitoutRead s = (0, s) := by
  simp only [bitoutRead, h]

/-- A BITOUT read returns the head of the queue with VALID = 1, and pops it (R115). -/
theorem bitoutRead_cons {s : State} {b : Bool} {rest : List Bool} (h : s.bitoutQ = b :: rest) :
    bitoutRead s = (1#1 ++ 0#30 ++ BitVec.ofBool b, { s with bitoutQ := rest }) := by
  simp only [bitoutRead, h]

/-- Settles O36: the two outcomes of DECODE's decode step. -/
theorem decodeStartsAtTheRoot : Obligations.DecodeStartsAtTheRoot :=
  ⟨rfl, reservedAbove_opcode .decode, fun _ => ⟨exec_decode_of_noTree, exec_decode_of_treeValid⟩⟩

/-- Settles O39: STREAM_RESET has one outcome, `emptyStreams` and completion. -/
theorem streamResetEmptiesTheStreams : Obligations.StreamResetEmptiesTheStreams :=
  ⟨rfl, reservedAbove_opcode .streamReset, fun _ => rfl⟩

/-- Settles O40: the three cases of `bitinWrite_cases` exclude one another. -/
theorem bitinWritePushesOrSetsEos : Obligations.BitinWritePushesOrSetsEos := by
  intro s v
  rcases bitinWrite_cases v s with ⟨heos, he⟩ | ⟨hbit, hroom, he⟩ | ⟨hbit, hfull, he⟩
  · have hne : v.getLsbD 1 ≠ false := ne_false_of_eq_true heos
    exact ⟨fun _ => he, fun hbit => absurd hbit hne, fun hbit => absurd hbit hne⟩
  · have hne : v.getLsbD 1 ≠ true := ne_true_of_eq_false hbit
    exact ⟨fun heos => absurd heos hne, fun _ _ => he, fun _ hfull => absurd hroom hfull.not_gt⟩
  · have hne : v.getLsbD 1 ≠ true := ne_true_of_eq_false hbit
    exact ⟨fun heos => absurd heos hne, fun _ hroom => absurd hroom hfull.not_gt, fun _ _ => he⟩

/-- Settles O41: the queue is empty, or its head is returned as bit 0 below VALID. -/
theorem bitoutReadPops : Obligations.BitoutReadPops :=
  fun _ => ⟨bitoutRead_nil, fun _ hzero => bitoutRead_cons hzero, fun _ hone => bitoutRead_cons hone⟩

end Sys2Proof.Machine
end

section
/-! The control commands: NOP and CLEAR_FAULT, and what the words of their opcodes do while a fault is recorded
(45_control.md R118, R119). -/

namespace Sys2Proof.Machine

/-- A word that is not its own OPCODE has a bit set above it. -/
theorem two_pow_le_toNat_of_ne_opcode {w : Word} {op : BitVec 8} (hop : w.extractLsb' 0 8 = op) (hne : w ≠ op.setWidth 32) :
    2 ^ 8 ≤ w.toNat := by
  have hbyte : w.toNat % 2 ^ 8 = op.toNat := by simpa [bits] using (bits_opcode_eq_iff w op).mpr hop
  by_contra hlt
  refine hne (BitVec.eq_of_toNat_eq ?_)
  rw [BitVec.toNat_setWidth_of_le (by decide), ← hbyte, Nat.mod_eq_of_lt (not_le.mp hlt)]

/-- A word with the OPCODE of a command without operands, and not that command's own word, sets a reserved bit; decoded
while FAULT = 1 it completes with the first fault's record kept (10_state.md R45, 60_exceptions.md R140). -/
theorem engineStep_reservedBits_keeps_record {i : Instr} (hlo : i.reservedLo = 8) {s : State} {w d : Word}
    (hpend : s.eng = .pend w d) (hfault : s.fault = true) (hop : w.extractLsb' 0 8 = BitVec.ofNat 8 i.opcode)
    (hne : w ≠ (BitVec.ofNat 8 i.opcode).setWidth 32) :
    ∃ t, engineStep s = .next t ∧ t.fault = true ∧ t.faultCode = s.faultCode ∧ t.faultInfo = s.faultInfo := by
  have hreserved : 2 ^ i.reservedLo ≤ w.toNat := hlo ▸ two_pow_le_toNat_of_ne_opcode hop hne
  have hstep : engineStep s = .next (takeFault .illegalCmd w s) :=
    (engineStep_pend hpend).trans (decodeStep_of_error (reservedAbove_opcode i w hop hreserved) s)
  exact ⟨_, hstep, takeFault_fault .., if_pos hfault, if_pos hfault⟩

/-- With no fault recorded the record is clear already, so that clearing it changes nothing (10_state.md R48). -/
theorem State.Inv.clearRecord_eq {s : State} (h : s.Inv) (hfault : s.fault = false) : clearRecord s = s := by
  obtain ⟨hcode, hinfo⟩ := h.noFault hfault
  rw [clearRecord, ← hfault, ← hcode, ← hinfo]

/-- Settles O43: any other word of opcode 0x00 has a reserved bit set; and a CMD write of NOP's word falls in the accepting
case of `cmdWriteIssues` whatever FAULT is. -/
theorem nopOnlyCompletes : Obligations.NopOnlyCompletes := by
  refine ⟨rfl, fun _ => rfl, reservedAbove_opcode .nop, fun _ _ _ => engineStep_reservedBits_keeps_record (i := .nop) rfl,
    fun s hidle => ?_⟩
  obtain ⟨-, -, haccept⟩ := cmdWriteIssues s 0
  exact haccept hidle (.inr (.inl (by decide)))

/-- Settles O44: CLEAR_FAULT is `clearRecord` and completion, and the record is clear already where FAULT = 0; any other
word of opcode 0x7F has a reserved bit set. -/
theorem clearFaultClearsTheRecord : Obligations.ClearFaultClearsTheRecord := by
  refine ⟨rfl, fun _ => rfl, fun s hinv hfault => ?_, reservedAbove_opcode .clearFault,
    fun _ _ _ => engineStep_reservedBits_keeps_record (i := .clearFault) rfl⟩
  have hexec : exec .clearFault s = .next (complete (clearRecord s)) := rfl
  rw [hexec, hinv.clearRecord_eq hfault]
  rfl

end Sys2Proof.Machine
end

section
/-! The fault record (60_exceptions.md R140): one turn of either agent leaves FAULT and the model's record of raised faults
as they are, or raises one fault, but for CLEAR_FAULT and the reset action, which leave the model's record and clear FAULT. -/

namespace Sys2Proof.Machine

/-- FAULT and the model's record of raised faults are as they were, or one more fault has been raised (R140, log entry 14). -/
def KeepsOrRaises (s t : State) : Prop :=
  (t.fault = s.fault ∧ t.raised = s.raised) ∨ (t.fault = true ∧ ∃ e, t.raised = e :: s.raised)

theorem keepsOrRaises_raise (k : FaultKind) (w : Word) (s : State) : KeepsOrRaises s (raise k w s) :=
  .inr ⟨raise_fault .., _, raise_raised ..⟩

theorem keepsOrRaises_takeFault (k : FaultKind) (w : Word) (s : State) : KeepsOrRaises s (takeFault k w s) :=
  .inr ⟨takeFault_fault .., _, takeFault_raised ..⟩

theorem KeepsOrRaises.fault_eq_true {s t : State} (h : KeepsOrRaises s t) (hfault : s.fault = true) : t.fault = true := by
  rcases h with ⟨hkept, -⟩ | ⟨hraised, -⟩
  · exact hkept.trans hfault
  · exact hraised

theorem KeepsOrRaises.raised_grows {s t : State} (h : KeepsOrRaises s t) : t.raised = s.raised ∨ ∃ e, t.raised = e :: s.raised :=
  h.imp And.right And.right

/-- A command that takes no fault leaves the model's record, and only CLEAR_FAULT does not leave FAULT (45_control.md
R119). -/
theorem Effect.raised_fault {i : Instr} {s t : State} (h : Effect i s t) :
    t.raised = s.raised ∧ (i ≠ .clearFault → t.fault = s.fault) := by
  cases i with
  | nop | clearFreq | streamReset => cases h; exact ⟨rfl, fun _ => rfl⟩
  | clearFault => cases h; exact ⟨rfl, absurd rfl⟩
  | writeFreq | readFreq | decode => obtain ⟨-, rfl⟩ := h; exact ⟨rfl, fun _ => rfl⟩
  | count => obtain ⟨-, -, rfl⟩ := h; exact ⟨rfl, fun _ => rfl⟩
  | genCodes => obtain ⟨-, _, -, rfl⟩ := h; exact ⟨rfl, fun _ => rfl⟩
  | buildTree => obtain ⟨-, -, _, rfl⟩ := h; exact ⟨rfl, fun _ => rfl⟩
  | readNode | readCode => obtain ⟨-, -, _, -, rfl⟩ := h; exact ⟨rfl, fun _ => rfl⟩
  | encode => obtain ⟨-, -, _, -, -, ⟨-, rfl⟩ | ⟨-, rfl⟩⟩ := h <;> exact ⟨rfl, fun _ => rfl⟩

theorem encodeBit_fault_raised {sym k : Nat} {s t : State} (h : encodeBit sym k s = .next t) :
    t.fault = s.fault ∧ t.raised = s.raised := by
  rcases encodeBit_cases h with rfl | ⟨_, -, -, ⟨-, rfl⟩ | ⟨-, rfl⟩⟩ <;> exact ⟨rfl, rfl⟩

theorem decodeBit_fault_raised {c : BitVec 10} {n : Nat} {s t : State} (h : decodeBit c n s = .next t) :
    t.fault = s.fault ∧ t.raised = s.raised := by
  obtain ⟨_, -, ⟨-, rfl⟩ | ⟨-, _, _, -, rfl⟩ | ⟨-, -, -, rfl⟩ | ⟨-, -, -, rfl⟩⟩ := decodeBit_cases h <;> exact ⟨rfl, rfl⟩

/-- An engine step keeps or raises, but for the decode step of CLEAR_FAULT (R140, 45_control.md R119). -/
theorem engineStep_keepsOrRaises {s t : State} (h : engineStep s = .next t) :
    KeepsOrRaises s t ∨ (Claims.Decoding s .clearFault ∧ t.raised = s.raised) := by
  rcases engineStep_cases h with ⟨-, rfl⟩ | ⟨w, _, -, -, rfl⟩ | ⟨w, d, i, hpend, hdecode, hexec⟩ | ⟨_, _, -, hbit⟩ | ⟨_, _, -, hbit⟩
  case inl => exact .inl (.inl ⟨rfl, rfl⟩)
  case inr.inl => exact .inl (keepsOrRaises_takeFault .illegalCmd w s)
  case inr.inr.inl =>
    rcases exec_cases hexec with ⟨k, rfl⟩ | heffect
    · exact .inl (keepsOrRaises_takeFault k _ s)
    · obtain ⟨hraised, hfault⟩ := heffect.raised_fault
      by_cases hclear : i = .clearFault
      · exact .inr ⟨⟨w, d, hpend, hclear ▸ hdecode⟩, hraised⟩
      · exact .inl (.inl ⟨hfault hclear, hraised⟩)
  case inr.inr.inr.inl => exact .inl (.inl (encodeBit_fault_raised hbit))
  case inr.inr.inr.inr => exact .inl (.inl (decodeBit_fault_raised hbit))

theorem keepsOrRaises_issue (w : Word) (s : State) : KeepsOrRaises s (issue w s) := by
  rcases issue_cases w s with ⟨-, he⟩ | ⟨-, -, he⟩ | ⟨-, -, he⟩ <;> rw [he]
  · exact keepsOrRaises_raise .busyOverrun w s
  · exact .inl ⟨rfl, rfl⟩
  · exact .inl ⟨rfl, rfl⟩

theorem keepsOrRaises_bitinWrite (v : Word) (s : State) : KeepsOrRaises s (bitinWrite v s) := by
  rcases bitinWrite_cases v s with ⟨-, he⟩ | ⟨-, -, he⟩ | ⟨-, -, he⟩ <;> rw [he]
  · exact .inl ⟨rfl, rfl⟩
  · exact .inl ⟨rfl, rfl⟩
  · exact keepsOrRaises_raise .bitinOverflow v s

/-- A register write keeps or raises, unless it is the write to CTRL that resets the block (70_reset_and_hazards.md R159). -/
theorem regWrite_keepsOrRaises (r : Reg) (v : Word) (s : State) :
    KeepsOrRaises s (regWrite r v s) ∨ regWrite r v s = blockReset s := by
  rcases regWrite_cases r v s with he | ⟨-, -, he⟩ | ⟨-, he⟩ | ⟨-, -, he⟩ | ⟨-, he⟩ | ⟨-, he⟩ | ⟨-, he⟩
  case inr.inl => exact .inr he
  all_goals rw [he]; left
  case inr.inr.inl => exact keepsOrRaises_issue v s
  case inr.inr.inr.inr.inr.inl => exact keepsOrRaises_bitinWrite v s
  all_goals exact .inl ⟨rfl, rfl⟩

/-- One register access keeps or raises, or is the reset action. -/
theorem HostEffect.keepsOrRaises {s u : State} (h : HostEffect s u) : KeepsOrRaises s u ∨ u = blockReset s := by
  rcases h with rfl | rfl | ⟨r, v, rfl⟩
  · exact .inl (.inl ⟨rfl, rfl⟩)
  · exact .inl (.inl ⟨rfl, rfl⟩)
  · exact regWrite_keepsOrRaises r v s

/-- A host turn keeps or raises, or it resets the block (R140, 70_reset_and_hazards.md R159). -/
theorem hostTurn_keepsOrRaises {s t : State} (h : hostTurn s = .next t) :
    KeepsOrRaises s t ∨ (Claims.BlockIsReset t ∧ t.raised = s.raised) := by
  obtain ⟨u, haccess, _, _, rfl⟩ := hostTurn_effect h
  rcases haccess.keepsOrRaises with hkeep | rfl
  · exact .inl hkeep
  · exact .inr ⟨rfl, rfl⟩

/-- A step of the machine keeps or raises, but for CLEAR_FAULT and reset, which leave the model's record (R140). -/
theorem step_keepsOrRaises {s t : State} (h : step s = .next t) :
    KeepsOrRaises s t ∨ ((Claims.Decoding s .clearFault ∨ Claims.BlockIsReset t) ∧ t.raised = s.raised) := by
  rcases step_cases h with ⟨-, hengine⟩ | ⟨-, hhost⟩
  · exact (engineStep_keepsOrRaises hengine).imp id fun ⟨hclear, hraised⟩ => ⟨.inl hclear, hraised⟩
  · exact (hostTurn_keepsOrRaises hhost).imp id fun ⟨hreset, hraised⟩ => ⟨.inr hreset, hraised⟩

/-- Settles O45: a step that keeps or raises cannot take FAULT from 1 to 0, and in every case of `step_keepsOrRaises` the
model's record stays or grows by one. -/
theorem firstFaultIsKept : Obligations.FirstFaultIsKept := by
  refine ⟨fun _ _ _ => rfl, fun s t hstep hset hcleared => ?_, fun s t hstep => ?_⟩
  · rcases step_keepsOrRaises hstep with hkeep | ⟨hcause, -⟩
    · exact absurd (hkeep.fault_eq_true hset) (ne_true_of_eq_false hcleared)
    · exact hcause
  · rcases step_keepsOrRaises hstep with hkeep | ⟨-, hraised⟩
    · exact hkeep.raised_grows
    · exact .inl hraised

end Sys2Proof.Machine
end

section
/-! The encoder and the decoder undo each other (30_encoding.md R75), and a word selects at most one row of the opcode map
(R72). -/

namespace Sys2Proof

/-- The words of the well-formed commands, for all commands at once (30_encoding.md R67, R68). -/
theorem encode_fits (i : Instr) : Laws.EncodeFits.Statement i :=
  match i with
  | .nop => Laws.EncodeFits.nop
  | .clearFreq => Laws.EncodeFits.clearFreq
  | .count sym => Laws.EncodeFits.count sym
  | .writeFreq sym => Laws.EncodeFits.writeFreq sym
  | .readFreq sym => Laws.EncodeFits.readFreq sym
  | .buildTree => Laws.EncodeFits.buildTree
  | .readNode idx => Laws.EncodeFits.readNode idx
  | .genCodes => Laws.EncodeFits.genCodes
  | .readCode sym word => Laws.EncodeFits.readCode sym word
  | .encode sym => Laws.EncodeFits.encode sym
  | .decode => Laws.EncodeFits.decode
  | .streamReset => Laws.EncodeFits.streamReset
  | .clearFault => Laws.EncodeFits.clearFault

/-- Operands that fit their fields leave the reserved bits clear (R68). -/
theorem Instr.operandBits_lt {i : Instr} (h : i.wellFormed = true) : i.operandBits < 2 ^ i.reservedLo := by
  cases i <;> simp [Instr.wellFormed, symFits, idxFits, wordFits, Instr.operandBits, Instr.reservedLo] at h ⊢ <;> omega

theorem bits_opcode_encode {i : Instr} (h : i.wellFormed = true) : bits (encode i) 7 0 = i.opcode := by
  obtain ⟨hword, hop, haligned, -⟩ := encode_fits i h
  rw [bits, hword]
  omega

theorem bits_reserved_encode {i : Instr} (h : i.wellFormed = true) : bits (encode i) 31 i.reservedLo = 0 := by
  obtain ⟨hword, hop, haligned, -⟩ := encode_fits i h
  have hlt := i.operandBits_lt h
  rw [bits_top, hword, Nat.div_eq_zero_iff]
  cases i <;> simp only [Instr.reservedLo] at hlt ⊢ <;> omega

/-- SYM is read back from the word of a command that holds it at bit 8 (R67, R69). -/
theorem fieldSym_encode {i : Instr} (h : i.wellFormed = true) {sym : Nat} (hsym : i.operandBits % 2 ^ 17 = 2 ^ 8 * sym) :
    fieldSym (encode i) = sym := by
  obtain ⟨hword, hop, -, -⟩ := encode_fits i h
  rw [fieldSym, bits, hword]
  omega

theorem fieldIdx_encode {idx : Nat} (h : idx < 1024) : fieldIdx (encode (.readNode idx)) = idx := by
  obtain ⟨hword, -⟩ := encode_fits (.readNode idx) (by simpa [Instr.wellFormed, idxFits] using h)
  rw [fieldIdx, bits, hword, Instr.opcode, Instr.operandBits]
  omega

theorem fieldWord_encode {sym word : Nat} (hsym : sym < 512) (hword : word < 8) :
    fieldWord (encode (.readCode sym word)) = word := by
  obtain ⟨htoNat, -⟩ := encode_fits (.readCode sym word) (by simp [Instr.wellFormed, symFits, wordFits, hsym, hword])
  rw [fieldWord, bits, htoNat, Instr.opcode, Instr.operandBits]
  omega

/-- Settles O6: the word's opcode and reserved bits select the command's arm of `decode`, and the arm's fields read the
operands back. -/
theorem decodeOfEncodeIsTheCommand : Obligations.DecodeOfEncodeIsTheCommand := by
  intro i h
  have hop := bits_opcode_encode h
  have hres := bits_reserved_encode h
  cases i
  case count sym | writeFreq sym | readFreq sym | encode sym =>
    have hsym : fieldSym _ = sym := fieldSym_encode h (by
      simp only [Instr.wellFormed, symFits, decide_eq_true_eq] at h
      rw [Instr.operandBits]
      omega)
    simp only [decode, hop, Instr.opcode, hsym]
    exact if_pos hres
  case readNode idx =>
    have hidx : fieldIdx _ = idx := fieldIdx_encode (by simpa [Instr.wellFormed, idxFits] using h)
    simp only [decode, hop, Instr.opcode, hidx]
    exact if_pos hres
  case readCode sym word =>
    obtain ⟨hs, hw⟩ : sym < 512 ∧ word < 8 := by simpa [Instr.wellFormed, symFits, wordFits] using h
    have hsym : fieldSym _ = sym := fieldSym_encode h (by rw [Instr.operandBits]; omega)
    simp only [decode, hop, Instr.opcode, hsym, fieldWord_encode hs hw]
    exact if_pos hres
  all_goals
    simp only [decode, hop, Instr.opcode]
    exact if_pos hres

theorem fieldSym_lt (w : Word) : fieldSym w < 512 := Nat.mod_lt _ (by decide)

theorem fieldIdx_lt (w : Word) : fieldIdx w < 1024 := Nat.mod_lt _ (by decide)

theorem fieldWord_lt (w : Word) : fieldWord w < 8 := Nat.mod_lt _ (by decide)

/-- The operands that a decoded command carries are the word's bits between OPCODE and the reserved ones, and fit their
fields (R69). -/
theorem operandBits_of_decode {w : Word} {i : Instr} (h : decode w = .ok i) :
    i.operandBits = w.toNat / 2 ^ 8 * 2 ^ 8 ∧ i.wellFormed = true := by
  obtain ⟨hop, hres⟩ := (i.selects_row_iff w).mp (selects_row_of_decode h)
  rw [bits_top] at hres
  unfold decode at h
  split at h
  case h_14 => cases h
  all_goals
    obtain ⟨-, rfl⟩ := reservedFrom_eq_ok_iff.mp h
    simp only [Instr.reservedLo, Nat.div_eq_zero_iff] at hres
    refine ⟨?_, by simp [Instr.wellFormed, symFits, idxFits, wordFits, fieldSym_lt, fieldIdx_lt, fieldWord_lt]⟩
    simp only [Instr.operandBits, fieldSym, fieldIdx, fieldWord, bits]
    omega

/-- Settles O7: OPCODE and the operands make up the word, as its reserved bits are 0. -/
theorem encodeOfDecodeIsTheWord : Obligations.EncodeOfDecodeIsTheWord := by
  intro w i h
  obtain ⟨hop, -⟩ := (i.selects_row_iff w).mp (selects_row_of_decode h)
  obtain ⟨hbits, hfits⟩ := operandBits_of_decode h
  refine ⟨BitVec.eq_of_toNat_eq ?_, hfits⟩
  obtain ⟨hword, -⟩ := encode_fits i hfits
  rw [hword, hbits, ← hop, bits]
  omega

/-- Settles O8: the row of the decoded command is the one selected, both ways, so two selected rows are rows of one
command. -/
theorem legalWordSelectsOneRow : Obligations.LegalWordSelectsOneRow := by
  refine ⟨fun w i h => ⟨i.row, i.row_mem_opcodeMap, selects_row_of_decode h, rfl⟩, fun w r hr hsel => ?_,
    fun w r q hr hq hselr hselq => ?_⟩
  · obtain ⟨i, hi, rfl⟩ := decode_of_selects hr hsel
    exact ⟨i, hi, rfl⟩
  · obtain ⟨i, hi, rfl⟩ := decode_of_selects hr hselr
    obtain ⟨j, hj, rfl⟩ := decode_of_selects hq hselq
    obtain rfl : i = j := Except.ok.inj (hi.symm.trans hj)
    rfl

end Sys2Proof
end

section
/-! The invariant of 10_state.md R48: it holds at reset, every step of the engine and of the host keeps it, and under it the
engine never stops. -/

namespace Sys2Proof.Machine

/-! ### What a step leaves of the tables -/

/-- FREQ, NODE with ROOT and NODES, the valid bits and CODE (10_state.md R36 to R40). -/
def State.tables (s : State) :
    List (Nat × Count) × List Node × BitVec 10 × BitVec 10 × Bool × Bool × List (Nat × Code) :=
  (s.freq, s.node, s.root, s.nodes, s.treeValid, s.codesValid, s.code)

/-- The tables and the valid bits are those of `s`. -/
def SameTables (s t : State) : Prop := t.tables = s.tables

section
variable {s t : State} (h : SameTables s t)
include h

theorem SameTables.freq : t.freq = s.freq := congrArg (·.1) h
theorem SameTables.node : t.node = s.node := congrArg (·.2.1) h
theorem SameTables.root : t.root = s.root := congrArg (·.2.2.1) h
theorem SameTables.nodes : t.nodes = s.nodes := congrArg (·.2.2.2.1) h
theorem SameTables.treeValid : t.treeValid = s.treeValid := congrArg (·.2.2.2.2.1) h
theorem SameTables.codesValid : t.codesValid = s.codesValid := congrArg (·.2.2.2.2.2.1) h
theorem SameTables.code : t.code = s.code := congrArg (·.2.2.2.2.2.2) h

end

theorem SameTables.nodeAt {s t : State} (h : SameTables s t) : nodeAt t = nodeAt s :=
  funext fun i => by rw [Machine.nodeAt, Machine.nodeAt, h.treeValid, h.nodes, h.node]

theorem SameTables.codeAt {s t : State} (h : SameTables s t) : codeAt t = codeAt s :=
  funext fun i => by rw [Machine.codeAt, Machine.codeAt, h.codesValid, h.code]

theorem SameTables.codeTable {s t : State} (h : SameTables s t) : codeTable t = codeTable s :=
  codeTable_congr h.treeValid h.node h.root h.nodes

/-- The tree built from FREQ is read off FREQ and the tree's fields alone. -/
theorem State.TreeBuilt.congr {s t : State} (h : s.TreeBuilt) (hfreq : t.freq = s.freq) (hnode : t.node = s.node)
    (hroot : t.root = s.root) (hnodes : t.nodes = s.nodes) : t.TreeBuilt where
  nonempty := hfreq ▸ h.nonempty
  fits := hfreq ▸ h.fits
  node := by rw [hnode, hfreq, h.node]
  nodes := by rw [hnodes, hfreq, h.nodes]
  root := by rw [hroot, hnodes, h.root]

/-- A state with the tables of `s` meets the invariant if what it has of its own does: its FIFO levels, its fault record and
its ENG. -/
theorem State.Inv.of_sameTables {s t : State} (h : s.Inv) (ht : SameTables s t) (hparams : t.params = s.params)
    (hbitin : t.bitinQ.length ≤ s.params.bitinDepth) (hbitout : t.bitoutQ.length ≤ s.params.bitoutDepth)
    (hfault : t.fault = false → t.faultCode = 0 ∧ t.faultInfo = 0)
    (hdec : ∀ c n, t.eng = .dec c n → s.treeValid = true ∧ c.toNat < s.nodes.toNat)
    (henc : ∀ sym k, t.eng = .enc sym k →
      s.codesValid = true ∧ ∃ c, Machine.codeAt s sym = some c ∧ c.valid = true ∧ k < c.len.toNat) : t.Inv where
  params := hparams ▸ h.params
  freq := ht.freq ▸ h.freq
  codesNeedTree := by rw [ht.codesValid, ht.treeValid]; exact h.codesNeedTree
  tree := fun hv => (h.tree (ht.treeValid ▸ hv)).congr ht.freq ht.node ht.root ht.nodes
  codes := by rw [ht.codesValid, ht.codeTable, ht.code]; exact h.codes
  bitin := hparams ▸ hbitin
  bitout := hparams ▸ hbitout
  noFault := hfault
  dec := by rw [ht.treeValid, ht.nodes]; exact hdec
  enc := by rw [ht.codesValid, ht.codeAt]; exact henc

/-- A completed command that keeps the tables. -/
theorem State.Inv.of_idle {s t : State} (h : s.Inv) (ht : SameTables s t) (hparams : t.params = s.params)
    (hbitin : t.bitinQ.length ≤ s.params.bitinDepth) (hbitout : t.bitoutQ.length ≤ s.params.bitoutDepth)
    (hfault : t.fault = false → t.faultCode = 0 ∧ t.faultInfo = 0) (heng : t.eng = .idle) : t.Inv :=
  h.of_sameTables ht hparams hbitin hbitout hfault (fun c n e => by simp [heng] at e) (fun sym k e => by simp [heng] at e)

/-- A completed command that invalidates the tree and the codes (R39): only FREQ's canonical form is left to check. -/
theorem State.Inv.of_invalidated {s t : State} (h : s.Inv) (hfreq : Table.wf (0 : Count) Config.nsym t.freq = true)
    (htree : t.treeValid = false) (hcodes : t.codesValid = false) (hparams : t.params = s.params)
    (hbitin : t.bitinQ = s.bitinQ) (hbitout : t.bitoutQ = s.bitoutQ)
    (hfault : t.fault = false → t.faultCode = 0 ∧ t.faultInfo = 0) (heng : t.eng = .idle) : t.Inv where
  params := hparams ▸ h.params
  freq := hfreq
  codesNeedTree := by simp [hcodes]
  tree := by simp [htree]
  codes := by simp [hcodes]
  bitin := by rw [hbitin, hparams]; exact h.bitin
  bitout := by rw [hbitout, hparams]; exact h.bitout
  noFault := hfault
  dec := by simp [heng]
  enc := by simp [heng]

/-! ### Reset -/

/-- Settles O2: nothing is valid at reset, the FIFOs are empty and no command is pending. -/
theorem resetMeetsTheInvariant : Obligations.ResetMeetsTheInvariant := fun _ hp =>
  { params := hp, freq := freq_wf_empty, codesNeedTree := nofun, tree := nofun, codes := nofun, bitin := Nat.zero_le _,
    bitout := Nat.zero_le _, noFault := fun _ => ⟨rfl, rfl⟩, dec := nofun, enc := nofun }

/-! ### The engine keeps the invariant -/

theorem State.Inv.takeFault {s : State} (h : s.Inv) (k : FaultKind) (w : Word) : (takeFault k w s).Inv :=
  h.of_idle rfl rfl h.bitin h.bitout nofun rfl

theorem State.Inv.complete {s : State} (h : s.Inv) : (complete s).Inv :=
  h.of_idle rfl rfl h.bitin h.bitout h.noFault rfl

theorem State.Inv.completeWith {s : State} (h : s.Inv) (r0 r1 : Word) : (completeWith r0 r1 s).Inv :=
  h.of_idle rfl rfl h.bitin h.bitout h.noFault rfl

/-- A symbol's count may be written to any value (R36). -/
theorem State.Inv.freqPut_invalidated {s : State} (h : s.Inv) {sym : Nat} (hsym : sym ≤ 256) (v : Count) :
    (Machine.complete (invalidate { s with freq := freqPut s.freq sym v })).Inv :=
  h.of_invalidated (freqPut_wf h.freq (Nat.lt_succ_of_le hsym) v) rfl rfl rfl rfl rfl h.noFault rfl

/-- The size of the arena: one node per symbol and one per merge, so that NODES holds it (42_tree_builder.md R93). -/
theorem arena_length {f : List (Nat × Count)} (hne : f ≠ []) (hw : Table.wf (0 : Count) Config.nsym f = true)
    (ht : totalCount f ≤ Config.countMax) : (arena f).length + 1 = 2 * f.length ∧ f.length ≤ 257 := by
  obtain ⟨k, hforest⟩ := arena_forest hne (Table.length_le hw) ht
  exact ⟨hforest.size, Table.length_le hw⟩

/-- BUILD_TREE leaves the tree of FREQ. -/
theorem Effect.treeBuilt {s t : State} (hw : Table.wf (0 : Count) Config.nsym s.freq = true) (he : Effect .buildTree s t) :
    t.TreeBuilt := by
  obtain ⟨hne, hfits, _, rfl⟩ := he
  obtain ⟨hsize, hsyms⟩ := arena_length hne hw hfits
  have hpos := List.length_pos_iff.mpr hne
  exact
    { nonempty := hne, fits := hfits, node := rfl
      nodes := (BitVec.toNat_ofNat ..).trans (Nat.mod_eq_of_lt (by omega))
      root := by rw [completeWith_nodes, completeWith_root, BitVec.toNat_ofNat, BitVec.toNat_ofNat]; omega }

theorem State.Inv.buildTree {s t : State} (h : s.Inv) (he : Effect .buildTree s t) : t.Inv := by
  have hbuilt := he.treeBuilt h.freq
  obtain ⟨-, -, _, rfl⟩ := he
  exact { params := h.params, freq := h.freq, codesNeedTree := nofun, tree := fun _ => hbuilt, codes := nofun,
          bitin := h.bitin, bitout := h.bitout, noFault := h.noFault, dec := nofun, enc := nofun }

/-- GEN_CODES leaves the code table of the current tree. -/
theorem State.Inv.genCodes {s t : State} (h : s.Inv) (he : Effect .genCodes s t) : t.Inv := by
  obtain ⟨hv, c, hc, rfl⟩ := he
  exact { params := h.params, freq := h.freq, codesNeedTree := fun _ => hv
          tree := fun _ => (h.tree hv).congr rfl rfl rfl rfl
          codes := fun _ => (codeTable_congr rfl rfl rfl rfl).trans hc
          bitin := h.bitin, bitout := h.bitout, noFault := h.noFault, dec := nofun, enc := nofun }

/-- With a valid tree ROOT is one of its nodes. -/
theorem State.Inv.root_lt {s : State} (h : s.Inv) (hv : s.treeValid = true) : s.root.toNat < s.nodes.toNat :=
  (h.tree hv).root ▸ Nat.lt_succ_self _

theorem Effect.inv {i : Instr} {s t : State} (h : s.Inv) (he : Effect i s t) : t.Inv := by
  cases i with
  | nop => rw [show t = Machine.complete s from he]; exact h.complete
  | clearFreq =>
    rw [show t = Machine.complete (invalidate { s with freq := [] }) from he]
    exact h.of_invalidated freq_wf_empty rfl rfl rfl rfl rfl h.noFault rfl
  | count sym => obtain ⟨hsym, -, rfl⟩ := he; exact (h.freqPut_invalidated hsym _).completeWith _ _
  | writeFreq sym => obtain ⟨hsym, rfl⟩ := he; exact h.freqPut_invalidated hsym _
  | readFreq sym => obtain ⟨-, rfl⟩ := he; exact h.completeWith _ _
  | buildTree => exact h.buildTree he
  | readNode | readCode => obtain ⟨-, -, _, -, rfl⟩ := he; exact h.completeWith _ _
  | genCodes => exact h.genCodes he
  | encode sym =>
    obtain ⟨-, hv, c, hc, hvalid, ⟨-, rfl⟩ | ⟨hlen, rfl⟩⟩ := he
    · exact h.completeWith _ _
    · have hpos : 0 < c.len.toNat := Nat.pos_of_ne_zero fun h0 => hlen (BitVec.eq_of_toNat_eq h0)
      refine h.of_sameTables rfl rfl h.bitin h.bitout h.noFault nofun fun sym k e => ?_
      cases e
      exact ⟨hv, c, hc, hvalid, hpos⟩
  | decode =>
    obtain ⟨hv, rfl⟩ := he
    refine h.of_sameTables rfl rfl h.bitin h.bitout h.noFault (fun c n e => ?_) nofun
    cases e
    exact ⟨hv, h.root_lt hv⟩
  | streamReset =>
    rw [show t = Machine.complete (emptyStreams s) from he]
    exact h.of_idle rfl rfl (Nat.zero_le _) (Nat.zero_le _) h.noFault rfl
  | clearFault =>
    rw [show t = Machine.complete (clearRecord s) from he]
    exact h.of_idle rfl rfl h.bitin h.bitout (fun _ => ⟨rfl, rfl⟩) rfl

theorem exec_inv {i : Instr} {s t : State} (h : s.Inv) (he : exec i s = .next t) : t.Inv := by
  rcases exec_cases he with ⟨k, rfl⟩ | heffect
  · exact h.takeFault k _
  · exact heffect.inv h

/-- A bit is pushed only with room for it, and only while more bits of the code are left. -/
theorem encodeBit_inv {sym k : Nat} {s t : State} (h : s.Inv) (heng : s.eng = .enc sym k)
    (he : encodeBit sym k s = .next t) : t.Inv := by
  rcases encodeBit_cases he with rfl | ⟨c, hc, hroom, hpush⟩
  · exact h
  · obtain ⟨hv, c', hc', hvalid, hk⟩ := h.enc sym k heng
    obtain rfl : c = c' := Option.some.inj (hc.symm.trans hc')
    have hlevel : (s.bitoutQ ++ [c.path.getLsbD k]).length ≤ s.params.bitoutDepth := by simpa using hroom
    rcases hpush with ⟨-, rfl⟩ | ⟨hmore, rfl⟩
    · exact h.of_idle rfl rfl h.bitin hlevel h.noFault rfl
    · refine h.of_sameTables rfl rfl h.bitin hlevel h.noFault nofun fun sym k e => ?_
      cases e
      exact ⟨hv, c, hc, hvalid, by omega⟩

/-- The cursor moves from a node of the tree to one of its children (44_stream_codec.md R111). -/
theorem decodeBit_inv {c : BitVec 10} {n : Nat} {s t : State} (h : s.Inv) (heng : s.eng = .dec c n)
    (he : decodeBit c n s = .next t) : t.Inv := by
  obtain ⟨x, hx, hstep⟩ := decodeBit_cases he
  rcases hstep with ⟨-, rfl⟩ | ⟨hl, b, rest, hq, rfl⟩ | ⟨-, -, -, rfl⟩ | ⟨-, -, -, rfl⟩
  · exact h.completeWith _ _
  · obtain ⟨hv, hc⟩ := h.dec c n heng
    obtain ⟨hzero, hone⟩ := (h.reads hv).children hc hx hl
    have hlevel : rest.length ≤ s.params.bitinDepth := by
      have := h.bitin
      rw [hq, List.length_cons] at this
      omega
    refine h.of_sameTables rfl rfl hlevel h.bitout h.noFault (fun c n e => ?_) nofun
    cases e
    refine ⟨hv, ?_⟩
    split <;> omega
  · exact h.completeWith _ _
  · exact h

theorem engineStep_inv {s t : State} (h : s.Inv) (he : engineStep s = .next t) : t.Inv := by
  rcases engineStep_cases he with ⟨-, rfl⟩ | ⟨w, _, -, -, rfl⟩ | ⟨_, _, _, -, -, hexec⟩ | ⟨_, _, heng, hbit⟩ | ⟨_, _, heng, hbit⟩
  · exact h
  · exact h.takeFault .illegalCmd w
  · exact exec_inv h hexec
  · exact encodeBit_inv h heng hbit
  · exact decodeBit_inv h heng hbit

/-! ### The host keeps the invariant -/

/-- A state with the tables and ENG of `s`, as a host turn leaves it while it issues nothing. -/
theorem State.Inv.of_sameEng {s t : State} (h : s.Inv) (ht : SameTables s t) (hparams : t.params = s.params)
    (hbitin : t.bitinQ.length ≤ s.params.bitinDepth) (hbitout : t.bitoutQ.length ≤ s.params.bitoutDepth)
    (hfault : t.fault = false → t.faultCode = 0 ∧ t.faultInfo = 0) (heng : t.eng = s.eng) : t.Inv :=
  h.of_sameTables ht hparams hbitin hbitout hfault (fun c n e => h.dec c n (heng ▸ e)) (fun sym k e => h.enc sym k (heng ▸ e))

theorem State.Inv.raise {s : State} (h : s.Inv) (k : FaultKind) (w : Word) : (raise k w s).Inv :=
  h.of_sameEng rfl rfl h.bitin h.bitout nofun rfl

/-- The host, the turns, the record of raised faults and the counter of free values are not the invariant's. -/
theorem State.Inv.withOthers {s : State} (h : s.Inv) (a : HostAgent) (ts : List Agent) (r : List (FaultKind × Word))
    (n : Nat) : ({ s with host := a, turns := ts, raised := r, freeCtr := n } : State).Inv :=
  h.of_sameEng rfl rfl h.bitin h.bitout h.noFault rfl

theorem State.Inv.blockReset {s : State} (hp : s.params.valid) : (blockReset s).Inv :=
  (resetMeetsTheInvariant s.params hp).withOthers s.host s.turns s.raised s.freeCtr

theorem State.Inv.issue {s : State} (h : s.Inv) (w : Word) : (issue w s).Inv := by
  rcases issue_cases w s with ⟨-, he⟩ | ⟨-, -, he⟩ | ⟨-, -, he⟩ <;> rw [he]
  · exact h.raise .busyOverrun w
  · exact h.of_sameEng rfl rfl h.bitin h.bitout h.noFault rfl
  · exact h.of_sameTables rfl rfl h.bitin h.bitout h.noFault nofun nofun

theorem State.Inv.bitinWrite {s : State} (h : s.Inv) (v : Word) : (bitinWrite v s).Inv := by
  rcases bitinWrite_cases v s with ⟨-, he⟩ | ⟨-, hroom, he⟩ | ⟨-, -, he⟩ <;> rw [he]
  · exact h.of_sameEng rfl rfl h.bitin h.bitout h.noFault rfl
  · exact h.of_sameEng rfl rfl (by simpa using hroom) h.bitout h.noFault rfl
  · exact h.raise .bitinOverflow v

theorem State.Inv.regWrite {s : State} (h : s.Inv) (r : Reg) (v : Word) : (regWrite r v s).Inv := by
  rcases regWrite_cases r v s with he | ⟨-, -, he⟩ | ⟨-, he⟩ | ⟨-, -, he⟩ | ⟨-, he⟩ | ⟨-, he⟩ | ⟨-, he⟩ <;> rw [he]
  case inl => exact h
  case inr.inl => exact State.Inv.blockReset h.params
  case inr.inr.inl => exact h.issue v
  case inr.inr.inr.inr.inr.inl => exact h.bitinWrite v
  all_goals exact h.of_sameEng rfl rfl h.bitin h.bitout h.noFault rfl

theorem hostTurn_inv {s t : State} (h : s.Inv) (he : hostTurn s = .next t) : t.Inv := by
  obtain ⟨u, haccess, a, c, rfl⟩ := hostTurn_effect he
  have hu : u.Inv := by
    rcases haccess with rfl | rfl | ⟨r, v, rfl⟩
    · exact h
    · exact h.of_sameEng rfl rfl h.bitin
        (List.length_tail ▸ (Nat.sub_le _ _).trans h.bitout) h.noFault rfl
    · exact h.regWrite r v
  exact hu.withOthers a u.turns u.raised c

/-- Settles O3: a step is an engine step or a host turn, from the state with the turn taken, and both keep the invariant. -/
theorem stepKeepsTheInvariant : Obligations.StepKeepsTheInvariant := by
  intro s t h hstep
  have hdrop : (dropTurn s).Inv := h.withOthers s.host s.turns.tail s.raised s.freeCtr
  rcases step_cases hstep with ⟨-, hengine⟩ | ⟨-, hhost⟩
  · exact engineStep_inv hdrop hengine
  · exact hostTurn_inv hdrop hhost

end Sys2Proof.Machine
end

section
/-! ENCODE and DECODE: the decode step of ENCODE, the bit step and the cursor step case by case, and HOLD as the lack of an
enabled step (44_stream_codec.md R106, R107, R111, 10_state.md R47). -/

namespace Sys2Proof.Machine

/-! ### ENCODE's decode step -/

/-- ENCODE of a symbol above the pseudo-EOF takes BAD_SYMBOL, whether or not there are codes (R106). -/
theorem exec_encode_of_pseudoEof_lt {sym : Nat} (h : Config.pseudoEof < sym) (s : State) :
    exec (.encode sym) s = .next (takeFault .badSymbol (encode (.encode sym)) s) :=
  if_pos h

/-- ENCODE with no valid code table takes NO_CODES (R106). -/
theorem exec_encode_of_noCodes {sym : Nat} (h : sym ≤ Config.pseudoEof) {s : State} (hv : s.codesValid = false) :
    exec (.encode sym) s = .next (takeFault .noCodes (encode (.encode sym)) s) :=
  (if_neg h.not_gt).trans (if_pos hv)

/-- ENCODE of an entry of the code table (R106). -/
theorem exec_encode_of_codeAt {sym : Nat} (h : sym ≤ Config.pseudoEof) {s : State} (hv : s.codesValid = true) {c : Code}
    (hc : codeAt s sym = some c) :
    exec (.encode sym) s =
      if c.valid = false then commandFault .keyNotFound (.encode sym) s
      else if c.len = 0 then .next (completeWith 0 0 s)
      else .next { s with eng := .enc sym 0 } := by
  simp [exec, execEncode, h.not_gt, hv, hc]

/-- Settles O33: the outcomes of ENCODE's decode step; with CODES_VALID = 1 every symbol has an entry. -/
theorem encodeFollowsItsRule : Obligations.EncodeFollowsItsRule := by
  refine ⟨fun sym _ => encode_eq_wordS (i := .encode sym) rfl, reservedAbove_opcode (.encode 0), fun s sym => ?_⟩
  refine ⟨fun hsym => exec_encode_of_pseudoEof_lt hsym s, fun hsym hv => exec_encode_of_noCodes hsym hv, fun hsym hv => ?_⟩
  have hc := codeAt_of_codesValid hv (Nat.lt_succ_of_le hsym)
  refine ⟨_, hc, fun hinvalid => ?_, fun hvalid hlen => ?_, fun hvalid hlen => ?_⟩ <;> rw [exec_encode_of_codeAt hsym hv hc]
  · exact if_pos hinvalid
  · exact (if_neg (ne_false_of_eq_true hvalid)).trans (if_pos hlen)
  · exact (if_neg (ne_false_of_eq_true hvalid)).trans (if_neg hlen)

/-! ### The ENCODE bit step -/

theorem engineStep_idle {s : State} (h : s.eng = .idle) : engineStep s = .next s := by
  simp only [engineStep, h]

theorem engineStep_enc {s : State} {sym k : Nat} (h : s.eng = .enc sym k) : engineStep s = encodeBit sym k s := by
  simp only [engineStep, h]

theorem engineStep_dec {s : State} {c : BitVec 10} {n : Nat} (h : s.eng = .dec c n) : engineStep s = decodeBit c n s := by
  simp only [engineStep, h]

/-- With room, and more bits of the code left after this one (R107). -/
theorem encodeBit_of_more {s : State} {sym k : Nat} {c : Code} (hc : codeAt s sym = some c)
    (hroom : s.bitoutQ.length < s.params.bitoutDepth) (hk : k + 1 ≠ c.len.toNat) :
    encodeBit sym k s = .next { s with bitoutQ := s.bitoutQ ++ [c.path.getLsbD k], eng := .enc sym (k + 1) } := by
  simp [encodeBit, hc, hroom, hk]

/-- With room, the last bit of the code completes (R107). -/
theorem encodeBit_of_last {s : State} {sym k : Nat} {c : Code} (hc : codeAt s sym = some c)
    (hroom : s.bitoutQ.length < s.params.bitoutDepth) (hk : k + 1 = c.len.toNat) :
    encodeBit sym k s =
      .next (completeWith (c.len.setWidth 32) 0 { s with bitoutQ := s.bitoutQ ++ [c.path.getLsbD k] }) := by
  simp [encodeBit, hc, hroom, hk]

/-- With BITOUT_Q full nothing changes (R107, log entry 6). -/
theorem encodeBit_of_full {s : State} {sym : Nat} {c : Code} (hc : codeAt s sym = some c)
    (hfull : ¬ s.bitoutQ.length < s.params.bitoutDepth) (k : Nat) : encodeBit sym k s = .next s := by
  simp [encodeBit, hc, hfull]

theorem hold_enc {s : State} {sym k : Nat} (h : s.eng = .enc sym k) :
    hold s = decide (s.bitoutQ.length = s.params.bitoutDepth) := by
  simp only [hold, h]

/-- Settles O34: the three cases of the bit step. -/
theorem encodeBitPushesOneBit : Obligations.EncodeBitPushesOneBit := by
  intro s sym k c heng hc
  rw [engineStep_enc heng]
  refine ⟨fun hroom hk => encodeBit_of_last hc hroom hk, fun hroom hk => encodeBit_of_more hc hroom hk, fun hfull => ?_⟩
  exact ⟨encodeBit_of_full hc hfull.not_lt k, (hold_enc heng).trans (decide_eq_true hfull)⟩

/-! ### The DECODE cursor step -/

/-- At a leaf the command completes (R111). -/
theorem decodeBit_of_leaf {s : State} {c : BitVec 10} {x : Node} (hx : nodeAt s c.toNat = some x) (hl : x.leaf = true)
    (n : Nat) : decodeBit c n s = .next (completeWith (decodeWord (kindOf x.sym) x.sym) (BitVec.ofNat 32 n) s) := by
  simp [decodeBit, hx, hl]

/-- At an internal node a bit moves the cursor along its edge (R111). -/
theorem decodeBit_of_cons {s : State} {c : BitVec 10} {x : Node} (hx : nodeAt s c.toNat = some x) (hl : x.leaf = false)
    {b : Bool} {rest : List Bool} (hq : s.bitinQ = b :: rest) (n : Nat) :
    decodeBit c n s = .next { s with bitinQ := rest, eng := .dec (if b then x.one else x.zero) (n + 1) } := by
  simp [decodeBit, hx, hl, hq]

/-- At an internal node with no bit left, EOS completes with TRUNC (R111). -/
theorem decodeBit_of_eos {s : State} {c : BitVec 10} {x : Node} (hx : nodeAt s c.toNat = some x) (hl : x.leaf = false)
    (hq : s.bitinQ = []) (heos : s.eos = true) (n : Nat) :
    decodeBit c n s = .next (completeWith (decodeWord .trunc 0) (BitVec.ofNat 32 n) s) := by
  simp [decodeBit, hx, hl, hq, heos]

/-- At an internal node with no bit left and no EOS nothing changes (R111, log entry 6). -/
theorem decodeBit_of_hold {s : State} {c : BitVec 10} {x : Node} (hx : nodeAt s c.toNat = some x) (hl : x.leaf = false)
    (hq : s.bitinQ = []) (heos : s.eos = false) (n : Nat) : decodeBit c n s = .next s := by
  simp [decodeBit, hx, hl, hq, heos]

theorem hold_dec {s : State} {c : BitVec 10} {n : Nat} {x : Node} (h : s.eng = .dec c n) (hx : nodeAt s c.toNat = some x) :
    hold s = (!x.leaf && s.bitinQ.isEmpty && !s.eos) := by
  simp only [hold, h, hx]

theorem kindOf_of_eq {sym : BitVec 9} (h : sym = 256#9) : kindOf sym = .eof := by
  rw [h]; rfl

theorem kindOf_of_ne {sym : BitVec 9} (h : sym ≠ 256#9) : kindOf sym = .byte :=
  if_neg fun he => h (BitVec.eq_of_toNat_eq he)

/-- Settles O37: the cases of the cursor step; KIND is EOF at the sentinel's leaf and BYTE at every other. -/
theorem decodeCursorStep : Obligations.DecodeCursorStep := by
  intro s c n x heng hx
  rw [engineStep_dec heng]
  refine ⟨fun hl hsym => ?_, fun hl hsym => ?_, fun b rest hl hq => decodeBit_of_cons hx hl hq n,
    fun hl hq heos => decodeBit_of_eos hx hl hq heos n, fun hl hq heos => ⟨decodeBit_of_hold hx hl hq heos n, ?_⟩⟩
  · rw [decodeBit_of_leaf hx hl, kindOf_of_eq hsym]; rfl
  · rw [decodeBit_of_leaf hx hl, kindOf_of_ne hsym]; rfl
  · simp [hold_dec heng hx, hl, hq, heos]

/-! ### Under the invariant every command answers -/

/-- Under the invariant a command neither stops the model nor is refused: where it reads an entry of NODE or CODE, the entry
is there (R48). -/
theorem exec_answers {s : State} (h : s.Inv) (i : Instr) : ∃ t, exec i s = .next t := by
  cases i with
  | nop | clearFreq | streamReset | clearFault => exact ⟨_, rfl⟩
  | count | writeFreq | readFreq | buildTree | decode =>
    simp only [exec, execCount, execWriteFreq, execReadFreq, execBuildTree, execDecode, commandFault]
    repeat' split
    all_goals exact ⟨_, rfl⟩
  | readNode idx =>
    cases hv : s.treeValid with
    | false => exact ⟨_, exec_readNode_of_noTree hv idx⟩
    | true =>
      rcases Nat.lt_or_ge idx s.nodes.toNat with hidx | hidx
      · obtain ⟨x, hx⟩ := (h.reads hv).exists_nodeAt hidx
        exact ⟨_, exec_readNode_of_nodeAt hv hidx hx⟩
      · exact ⟨_, exec_readNode_of_nodes_le hv hidx⟩
  | genCodes =>
    cases hv : s.treeValid with
    | false => exact ⟨_, if_pos hv⟩
    | true =>
      obtain ⟨c, hc, -⟩ := codeTable_entries h.freq (h.reads hv)
      simp [exec, execGenCodes, hv, hc]
  | readCode sym word =>
    rcases Nat.lt_or_ge Config.pseudoEof sym with hsym | hsym
    · exact ⟨_, exec_readCode_of_pseudoEof_lt hsym word s⟩
    · cases hv : s.codesValid with
      | false => exact ⟨_, exec_readCode_of_noCodes hsym hv word⟩
      | true => exact ⟨_, exec_readCode_of_codeAt hsym hv (codeAt_of_codesValid hv (Nat.lt_succ_of_le hsym)) word⟩
  | encode sym =>
    rcases Nat.lt_or_ge Config.pseudoEof sym with hsym | hsym
    · exact ⟨_, exec_encode_of_pseudoEof_lt hsym s⟩
    · cases hv : s.codesValid with
      | false => exact ⟨_, exec_encode_of_noCodes hsym hv⟩
      | true =>
        rw [exec_encode_of_codeAt hsym hv (codeAt_of_codesValid hv (Nat.lt_succ_of_le hsym))]
        repeat' split
        all_goals exact ⟨_, rfl⟩

/-- Under the invariant the decode step answers, and leaves no command pending. -/
theorem decodeStep_answers {s : State} (h : s.Inv) (w : Word) :
    ∃ t, decodeStep w s = .next t ∧ ∀ w' d', t.eng ≠ .pend w' d' := by
  cases hd : decode w with
  | error e => exact ⟨_, decodeStep_of_error hd s, nofun⟩
  | ok i =>
    obtain ⟨t, ht⟩ := exec_answers h i
    refine ⟨t, (decodeStep_of_ok hd s).trans ht, ?_⟩
    rcases exec_cases ht with ⟨k, rfl⟩ | he
    · nofun
    · cases i
      case encode => obtain ⟨-, -, _, -, -, ⟨-, rfl⟩ | ⟨-, rfl⟩⟩ := he <;> nofun
      case decode => obtain ⟨-, rfl⟩ := he; nofun
      all_goals simp [he.eng_idle nofun nofun]

/-! ### HOLD -/

theorem engineEnabled_idle {s : State} (h : s.eng = .idle) : engineEnabled s = false := by
  simp only [engineEnabled, h]

theorem engineEnabled_enc {s : State} {sym k : Nat} (h : s.eng = .enc sym k) :
    engineEnabled s = decide (s.bitoutQ.length < s.params.bitoutDepth) := by
  simp only [engineEnabled, h]

theorem engineEnabled_dec {s : State} {c : BitVec 10} {n : Nat} {x : Node} (h : s.eng = .dec c n)
    (hx : nodeAt s c.toNat = some x) : engineEnabled s = (x.leaf || !s.bitinQ.isEmpty || s.eos) := by
  simp only [engineEnabled, h, hx]

/-- The cursor of DEC names an entry of NODE (R48). -/
theorem State.Inv.exists_nodeAt_of_dec {s : State} (h : s.Inv) {c : BitVec 10} {n : Nat} (heng : s.eng = .dec c n) :
    ∃ x, nodeAt s c.toNat = some x := by
  obtain ⟨hv, hc⟩ := h.dec c n heng
  exact (h.reads hv).exists_nodeAt hc

/-- HOLD, form by form of ENG (R47). -/
theorem State.Inv.hold_iff {s : State} (h : s.Inv) : hold s = true ↔
    (∃ sym k, s.eng = .enc sym k ∧ s.bitoutQ.length = s.params.bitoutDepth) ∨
    (∃ c n x, s.eng = .dec c n ∧ nodeAt s c.toNat = some x ∧ x.leaf = false ∧ s.bitinQ = [] ∧ s.eos = false) := by
  cases heng : s.eng with
  | idle | pend => simp [hold, heng]
  | enc sym k => simp [hold_enc heng]
  | dec c n =>
    obtain ⟨x, hx⟩ := h.exists_nodeAt_of_dec heng
    simp [hold_dec heng hx, hx, and_assoc]

/-- HOLD = 1 exactly where a command executes and the engine has no enabled step (R47). -/
theorem State.Inv.hold_iff_not_enabled {s : State} (h : s.Inv) :
    hold s = true ↔ s.eng ≠ .idle ∧ engineEnabled s = false := by
  cases heng : s.eng with
  | idle | pend => simp [hold, heng, engineEnabled]
  | enc sym k =>
    have := h.bitout
    simp [hold_enc heng, engineEnabled_enc heng]
    omega
  | dec c n =>
    obtain ⟨x, hx⟩ := h.exists_nodeAt_of_dec heng
    simp [hold_dec heng hx, engineEnabled_dec heng hx]

/-- A held or idle engine changes nothing (log entry 6). -/
theorem State.Inv.engineStep_of_not_enabled {s : State} (h : s.Inv) (hen : engineEnabled s = false) :
    engineStep s = .next s := by
  cases heng : s.eng with
  | idle => exact engineStep_idle heng
  | pend w d => simp [engineEnabled_pend heng] at hen
  | enc sym k =>
    obtain ⟨-, c, hc, -⟩ := h.enc sym k heng
    rw [engineEnabled_enc heng, decide_eq_false_iff_not] at hen
    exact (engineStep_enc heng).trans (encodeBit_of_full hc hen k)
  | dec c n =>
    obtain ⟨x, hx⟩ := h.exists_nodeAt_of_dec heng
    obtain ⟨⟨hl, hq⟩, heos⟩ : (x.leaf = false ∧ s.bitinQ = []) ∧ s.eos = false := by
      simpa [engineEnabled_dec heng hx] using hen
    exact (engineStep_dec heng).trans (decodeBit_of_hold hx hl hq heos n)

/-- An enabled engine step answers and changes ENG (R45). -/
theorem State.Inv.engineStep_of_enabled {s : State} (h : s.Inv) (hen : engineEnabled s = true) :
    ∃ t, engineStep s = .next t ∧ t.eng ≠ s.eng := by
  cases heng : s.eng with
  | idle => simp [engineEnabled_idle heng] at hen
  | pend w d =>
    obtain ⟨t, ht, hne⟩ := decodeStep_answers h w
    exact ⟨t, (engineStep_pend heng).trans ht, hne w d⟩
  | enc sym k =>
    obtain ⟨-, c, hc, -⟩ := h.enc sym k heng
    rw [engineEnabled_enc heng, decide_eq_true_iff] at hen
    rw [engineStep_enc heng]
    by_cases hk : k + 1 = c.len.toNat
    · exact ⟨_, encodeBit_of_last hc hen hk, nofun⟩
    · exact ⟨_, encodeBit_of_more hc hen hk, by simp⟩
  | dec c n =>
    obtain ⟨x, hx⟩ := h.exists_nodeAt_of_dec heng
    rw [engineEnabled_dec heng hx] at hen
    rw [engineStep_dec heng]
    cases hl : x.leaf with
    | true => exact ⟨_, decodeBit_of_leaf hx hl n, nofun⟩
    | false =>
      cases hq : s.bitinQ with
      | cons b rest => exact ⟨_, decodeBit_of_cons hx hl hq n, by simp⟩
      | nil => exact ⟨_, decodeBit_of_eos hx hl hq (by simpa [hl, hq] using hen) n, nofun⟩

/-- Settles O4: the engine step answers whether or not it is enabled. -/
theorem engineNeverStops : Obligations.EngineNeverStops := by
  intro s h
  cases hen : engineEnabled s with
  | false => exact ⟨s, h.engineStep_of_not_enabled hen⟩
  | true =>
    obtain ⟨t, ht, -⟩ := h.engineStep_of_enabled hen
    exact ⟨t, ht⟩

/-- Settles O5: HOLD form by form of ENG, IRQ by its definition, and the engine's step where it is enabled and where not. -/
theorem holdIsNoEnabledStep : Obligations.HoldIsNoEnabledStep := fun _ h =>
  ⟨h.hold_iff, by simp [irq], h.hold_iff_not_enabled, h.engineStep_of_not_enabled, h.engineStep_of_enabled⟩

end Sys2Proof.Machine
end

section
/-! Commands run to completion: every command completes in bounded steps, ENCODE commands concatenate their codes, and DECODE
undoes ENCODE (70_reset_and_hazards.md R174, R175, 44_stream_codec.md R108, R116). -/

namespace Sys2Proof.Machine

/-! ### ENCODE, bit by bit -/

/-- `s` once ENCODE of `sym` with the code `c` has pushed `k` bits (44_stream_codec.md R107). -/
def State.pushed (s : State) (sym : Nat) (c : Code) (k : Nat) : State :=
  { s with bitoutQ := s.bitoutQ ++ (codeBits c).take k, eng := .enc sym k }

/-- `s` once ENCODE of the code `c` has completed (R107). -/
def State.encoded (s : State) (c : Code) : State :=
  completeWith (c.len.setWidth 32) 0 { s with bitoutQ := s.bitoutQ ++ codeBits c }

theorem codeBits_length (c : Code) : (codeBits c).length = c.len.toNat := by
  simp [codeBits]

theorem codeBits_take_succ {c : Code} {k : Nat} (hk : k < c.len.toNat) :
    (codeBits c).take (k + 1) = (codeBits c).take k ++ [c.path.getLsbD k] := by
  rw [List.take_add_one, codeBits, List.getElem?_map, List.getElem?_range hk]
  rfl

theorem State.pushed_zero {s : State} {sym : Nat} (heng : s.eng = .enc sym 0) (c : Code) : s.pushed sym c 0 = s := by
  cases s
  cases heng
  simp [State.pushed]

section
variable {s : State} {sym : Nat} {c : Code} (hroom : s.bitoutQ.length + c.len.toNat ≤ s.params.bitoutDepth)
include hroom

theorem pushed_room {k : Nat} (hk : k < c.len.toNat) :
    (s.pushed sym c k).bitoutQ.length < (s.pushed sym c k).params.bitoutDepth := by
  simp only [State.pushed, List.length_append, List.length_take, codeBits_length]
  omega

variable (hc : codeAt s sym = some c)
include hc

/-- A bit step before the last. -/
theorem engineStep_pushed {k : Nat} (hk : k + 1 < c.len.toNat) :
    engineStep (s.pushed sym c k) = .next (s.pushed sym c (k + 1)) := by
  have hroom' := pushed_room (sym := sym) hroom (show k < c.len.toNat by omega)
  have hstep : encodeBit sym k (s.pushed sym c k) = _ := encodeBit_of_more hc hroom' (by omega)
  rw [engineStep_enc rfl, hstep]
  simp only [State.pushed, codeBits_take_succ (show k < c.len.toNat by omega), List.append_assoc]

/-- The last bit step completes with the whole code pushed. -/
theorem engineStep_pushed_last {k : Nat} (hk : k + 1 = c.len.toNat) :
    engineStep (s.pushed sym c k) = .next (s.encoded c) := by
  have hroom' := pushed_room (sym := sym) hroom (show k < c.len.toNat by omega)
  have hstep : encodeBit sym k (s.pushed sym c k) = _ := encodeBit_of_last hc hroom' hk
  have hall : (codeBits c).take k ++ [c.path.getLsbD k] = codeBits c := by
    rw [← codeBits_take_succ (by omega), List.take_of_length_le (by rw [codeBits_length]; omega)]
  rw [engineStep_enc rfl, hstep]
  simp only [State.pushed, List.append_assoc, hall]
  rfl

theorem engineRun_pushed {k : Nat} (hk : k < c.len.toNat) :
    engineRun k (s.pushed sym c 0) = .next (s.pushed sym c k) := by
  induction k with
  | zero => rfl
  | succ k ih =>
    rw [engineRun, runFor_add 1 (ih (by omega)), runFor_succ 0 (engineStep_pushed hroom hc hk), runFor_zero]

/-- One bit step per bit of the code completes ENCODE (R107). -/
theorem engineRun_encoded (hpos : 0 < c.len.toNat) :
    engineRun c.len.toNat (s.pushed sym c 0) = .next (s.encoded c) := by
  obtain ⟨k, hk⟩ : ∃ k, c.len.toNat = k + 1 := ⟨_, (Nat.succ_pred_eq_of_pos hpos).symm⟩
  rw [hk, engineRun, runFor_add 1 (engineRun_pushed hroom hc (k := k) (by omega)),
    runFor_succ 0 (engineStep_pushed_last hroom hc hk.symm), runFor_zero]

end

/-! ### DECODE, bit by bit -/

/-- `follow` reads nothing but the tree. -/
theorem follow_congr {s t : State} (h : nodeAt t = nodeAt s) (m : Nat) (bs : List Bool) : follow t m bs = follow s m bs := by
  induction bs generalizing m with
  | nil => rfl
  | cons b bs ih => simp only [follow, h, ih]

/-- A step of the cursor leaves the tree. -/
theorem follow_withCursor (s : State) (q : List Bool) (e : Eng) (m : Nat) (bs : List Bool) :
    follow { s with bitinQ := q, eng := e } m bs = follow s m bs := by
  apply follow_congr
  rfl

/-- An edge is followed from an internal node only. -/
theorem follow_cons {s : State} {m j : Nat} {b : Bool} {bs : List Bool} (h : follow s m (b :: bs) = some j) :
    ∃ x, nodeAt s m = some x ∧ x.leaf = false ∧ follow s (if b then x.one else x.zero).toNat bs = some j := by
  rw [follow] at h
  split at h
  · split at h
    · cases h
    · refine ⟨_, ‹_›, eq_false_of_ne_true ‹_›, ?_⟩
      rwa [apply_ite BitVec.toNat]
  · cases h

/-- The bits that lead from the cursor to a leaf are consumed one by one, and the leaf completes (R111). -/
theorem engineRun_to_leaf {bs : List Bool} : ∀ {s : State} {c : BitVec 10} {n j : Nat} {x : Node} {rest : List Bool},
    s.eng = .dec c n → follow s c.toNat bs = some j → nodeAt s j = some x → x.leaf = true → s.bitinQ = bs ++ rest →
    engineRun (bs.length + 1) s =
      .next (completeWith (decodeWord (kindOf x.sym) x.sym) (BitVec.ofNat 32 (n + bs.length)) { s with bitinQ := rest }) := by
  induction bs with
  | nil =>
    intro s c n j x rest heng hj hx hl hq
    obtain rfl : c.toNat = j := Option.some.inj hj
    obtain rfl : s.bitinQ = rest := hq
    exact runFor_succ 0 ((engineStep_dec heng).trans (decodeBit_of_leaf hx hl n))
  | cons b bs ih =>
    intro s c n j x rest heng hj hx hl hq
    obtain ⟨y, hy, hyl, hfollow⟩ := follow_cons hj
    have hstep := (engineStep_dec heng).trans (decodeBit_of_cons hy hyl hq n)
    rw [List.length_cons, engineRun, runFor_succ _ hstep]
    refine (ih (s := { s with bitinQ := bs ++ rest, eng := .dec (if b then y.one else y.zero) (n + 1) }) rfl
      ((follow_withCursor ..).trans hfollow) hx hl rfl).trans ?_
    rw [Nat.add_right_comm]
    rfl

/-- With EOS set, a step of DECODE completes or consumes a bit, so it completes after at most one step per bit in BITIN_Q and
one more (70_reset_and_hazards.md R175). -/
theorem decode_completes {q : List Bool} : ∀ {s : State} {c : BitVec 10} {n : Nat}, s.Inv → s.eng = .dec c n → s.eos = true →
    s.bitinQ = q → ∃ k t, k ≤ q.length + 1 ∧ engineRun k s = .next t ∧ t.eng = .idle ∧ t.done = true := by
  induction q with
  | nil =>
    intro s c n h heng heos hq
    obtain ⟨x, hx⟩ := h.exists_nodeAt_of_dec heng
    cases hl : x.leaf with
    | true => exact ⟨1, _, Nat.le_refl _, runFor_succ 0 ((engineStep_dec heng).trans (decodeBit_of_leaf hx hl n)), rfl, rfl⟩
    | false =>
      exact ⟨1, _, Nat.le_refl _, runFor_succ 0 ((engineStep_dec heng).trans (decodeBit_of_eos hx hl hq heos n)), rfl, rfl⟩
  | cons b q ih =>
    intro s c n h heng heos hq
    obtain ⟨x, hx⟩ := h.exists_nodeAt_of_dec heng
    cases hl : x.leaf with
    | true =>
      exact ⟨1, _, by simp, runFor_succ 0 ((engineStep_dec heng).trans (decodeBit_of_leaf hx hl n)), rfl, rfl⟩
    | false =>
      have hstep := (engineStep_dec heng).trans (decodeBit_of_cons hx hl hq n)
      obtain ⟨k, t, hk, hrun, hdone⟩ := ih (engineStep_inv h hstep) rfl heos rfl
      exact ⟨k + 1, t, Nat.succ_le_succ hk, (runFor_succ k hstep).trans hrun, hdone⟩

/-! ### Completion -/

/-- The effect of every command but ENCODE and DECODE sets DONE. -/
theorem Effect.done {i : Instr} {s t : State} (h : Effect i s t) (henc : ∀ sym, i ≠ .encode sym) (hdec : i ≠ .decode) :
    t.done = true := by
  cases i with
  | nop | clearFreq | streamReset | clearFault => rw [show t = complete _ from h, complete_done]
  | count => obtain ⟨-, -, rfl⟩ := h; rfl
  | buildTree => obtain ⟨-, -, _, rfl⟩ := h; rfl
  | writeFreq | readFreq => obtain ⟨-, rfl⟩ := h; rfl
  | readNode | readCode => obtain ⟨-, -, _, -, rfl⟩ := h; rfl
  | genCodes => obtain ⟨-, _, -, rfl⟩ := h; rfl
  | encode sym => exact absurd rfl (henc sym)
  | decode => exact absurd rfl hdec

theorem exec_completes {i : Instr} {s t : State} (h : exec i s = .next t) (henc : ∀ sym, i ≠ .encode sym)
    (hdec : i ≠ .decode) : t.eng = .idle ∧ t.done = true := by
  refine ⟨exec_eng_idle h henc hdec, ?_⟩
  rcases exec_cases h with ⟨k, rfl⟩ | he
  · exact takeFault_done k _ s
  · exact he.done henc hdec

/-- Settles O42: a command answers and completes; ENCODE takes a step per bit of its code; DECODE consumes a bit in each step
but the one that completes it. -/
theorem commandsComplete : Obligations.CommandsComplete := by
  refine ⟨fun s i h henc hdec => ?_, fun i s t h => exec_completes h, fun s sym c h heng hc hroom => ?_,
    fun s c n h heng heos => decode_completes h heng heos rfl⟩
  · obtain ⟨t, ht⟩ := exec_answers h i
    exact ⟨t, ht, exec_completes ht henc hdec⟩
  · obtain ⟨-, c', hc', -, hpos⟩ := h.enc sym 0 heng
    obtain rfl : c = c' := Option.some.inj (hc.symm.trans hc')
    have hstart : s.pushed sym c 0 = s := State.pushed_zero heng c
    refine ⟨s.encoded c, ?_, rfl, rfl, rfl, fun k hk => ⟨s.pushed sym c k, ?_, rfl⟩⟩
    · exact (congrArg _ hstart).symm.trans (engineRun_encoded hroom hc hpos)
    · exact (congrArg _ hstart).symm.trans (engineRun_pushed hroom hc hk)

/-! ### Commands as a whole -/

/-- A run that ends in IDLE within the fuel is the command's completion: an idle engine stays as it is. -/
theorem untilIdle_of_engineRun {k fuel : Nat} {s t : State} (h : engineRun k s = .next t) (hidle : t.eng = .idle)
    (hk : k ≤ fuel) : Claims.untilIdle fuel s = some t := by
  induction k generalizing s fuel with
  | zero =>
    cases h
    cases fuel <;> simp [Claims.untilIdle, hidle]
  | succ k ih =>
    obtain ⟨fuel, rfl⟩ : ∃ f, fuel = f + 1 := ⟨_, (Nat.succ_pred_eq_of_pos (by omega)).symm⟩
    cases hs : engineStep s with
    | next u =>
      have hrun : engineRun k u = .next t := (runFor_succ k hs).symm.trans h
      by_cases he : s.eng = .idle
      · obtain rfl : s = u := Host.Outcome.next.inj ((engineStep_idle he).symm.trans hs)
        rw [← ih (fuel := fuel + 1) hrun (by omega)]
      · simp only [Claims.untilIdle, he, if_false, hs]
        exact ih hrun (by omega)
    | fault e => simp [engineRun, runFor, hs] at h
    | refused r => simp [engineRun, runFor, hs] at h

theorem command_eq {i : Instr} {k : Nat} {s u t : State} (hexec : exec i s = .next u) (hrun : engineRun k u = .next t)
    (hidle : t.eng = .idle) (hk : k ≤ 600) : Claims.command i s = some t := by
  simp only [Claims.command, hexec]
  exact untilIdle_of_engineRun hrun hidle hk

/-- ENCODE of a symbol with a code, given room, appends its code and completes (R106 to R108); the empty code completes in the
decode step. -/
theorem command_encode {s : State} {sym : Nat} {c : Code} (hv : s.codesValid = true) (hc : codeAt s sym = some c)
    (hvalid : c.valid = true) (hroom : s.bitoutQ.length + c.len.toNat ≤ s.params.bitoutDepth) :
    Claims.command (.encode sym) s = some (s.encoded c) := by
  have hsym : sym ≤ Config.pseudoEof := by
    by_contra hgt
    simp [codeAt, show ¬ sym < Config.nsym from fun h => hgt (Nat.le_of_lt_succ h)] at hc
  have hexec := (exec_encode_of_codeAt hsym hv hc).trans (if_neg (ne_false_of_eq_true hvalid))
  by_cases hlen : c.len = 0
  · refine command_eq (k := 0) (hexec.trans (if_pos hlen)) (congrArg _ ?_) rfl (Nat.zero_le _)
    have hbits : codeBits c = [] := List.eq_nil_of_length_eq_zero (by rw [codeBits_length, hlen]; rfl)
    rw [State.encoded, hbits, hlen, List.append_nil]
    rfl
  · have hpos : 0 < c.len.toNat := Nat.pos_of_ne_zero fun h0 => hlen (BitVec.eq_of_toNat_eq h0)
    have hpushed : ({ s with eng := .enc sym 0 } : State) = s.pushed sym c 0 := by simp [State.pushed]
    refine command_eq ((hexec.trans (if_neg hlen)).trans (congrArg _ hpushed)) (engineRun_encoded hroom hc hpos) rfl ?_
    exact Nat.le_of_lt (c.len.isLt.trans (by decide))

/-- The symbols with codes in `s`, each with its bits, encoded one after the other. -/
theorem encodeAll_eq {s : State} (hv : s.codesValid = true) : ∀ {xs : List Nat} {u : State}, SameTables s u →
    (∀ x ∈ xs, Claims.HasCode s x) → u.bitoutQ.length + (xs.flatMap (Claims.bitsOf s)).length ≤ u.params.bitoutDepth →
    u.eng = .idle → ∃ t, Claims.encodeAll xs u = some t ∧ t.bitoutQ = u.bitoutQ ++ xs.flatMap (Claims.bitsOf s) ∧
      t.eng = .idle ∧ t.fault = u.fault ∧ SameTables s t ∧ t.bitinQ = u.bitinQ := by
  intro xs
  induction xs with
  | nil => exact fun hu _ _ heng => ⟨_, rfl, by simp, heng, rfl, hu, rfl⟩
  | cons x xs ih =>
    intro u hu hcodes hroom heng
    obtain ⟨c, hc, hvalid⟩ := hcodes x (.head _)
    have hbits : Claims.bitsOf s x = codeBits c := by
      have hx : x < Config.nsym := by
        by_contra hge
        simp [codeAt, hge] at hc
      rw [Claims.bitsOf, Option.some.inj ((codeAt_of_codesValid hv hx).symm.trans hc)]
    simp only [List.flatMap_cons, List.length_append, hbits] at hroom ⊢
    have hcommand := command_encode (sym := x) (hu.codesValid.trans hv) (hu.codeAt ▸ hc) hvalid
      (by rw [← codeBits_length]; omega)
    have hnext : SameTables s (u.encoded c) := hu
    obtain ⟨t, ht, hq, hidle, hfault, htables, hin⟩ := ih hnext (fun y hy => hcodes y (.tail _ hy)) (by
      show (u.bitoutQ ++ codeBits c).length + _ ≤ u.params.bitoutDepth
      rw [List.length_append]; omega) rfl
    refine ⟨t, by simpa only [Claims.encodeAll, hcommand] using ht, ?_, hidle, hfault, htables, hin⟩
    rw [hq, ← List.append_assoc]
    rfl

/-- Settles O35: by induction over the symbols, each ENCODE appending its code. -/
theorem encodesConcatenateTheirCodes : Obligations.EncodesConcatenateTheirCodes := by
  intro s xs _ hv hcodes hroom heng
  obtain ⟨t, ht, hq, hidle, hfault, htables, hin⟩ := encodeAll_eq hv rfl hcodes hroom heng
  exact ⟨t, ht, hq, hidle, hfault, htables.freq, htables.node, htables.code, hin⟩

/-! ### The round trip -/

/-- In the tree of `u` the bits `bs` lead from the root to the leaf of `x`. -/
def LeadsTo (u : State) (bs : List Bool) (x : Nat) : Prop :=
  ∃ j y, follow u u.root.toNat bs = some j ∧ nodeAt u j = some y ∧ y.leaf = true ∧ y.sym = BitVec.ofNat 9 x

theorem LeadsTo.congr {u v : State} {bs : List Bool} {x : Nat} (h : LeadsTo u bs x) (hnode : nodeAt v = nodeAt u)
    (hroot : v.root = u.root) : LeadsTo v bs x := by
  obtain ⟨j, y, hj, hy, hleaf⟩ := h
  exact ⟨j, y, by rw [hroot, follow_congr hnode, hj], by rw [hnode, hy], hleaf⟩

/-- What DECODE returns for the symbol `x` after `n` bits (44_stream_codec.md R112). -/
def decoded (x n : Nat) : Word × Word :=
  (decodeWord (kindOf (BitVec.ofNat 9 x)) (BitVec.ofNat 9 x), BitVec.ofNat 32 n)

/-- DECODE of bits that lead to the leaf of `x` consumes them and returns `x`. -/
theorem command_decode {u : State} {bs rest : List Bool} {x : Nat} (hv : u.treeValid = true) (h : LeadsTo u bs x)
    (hbs : bs.length ≤ 256) (hq : u.bitinQ = bs ++ rest) :
    Claims.command .decode u =
      some (completeWith (decoded x bs.length).1 (decoded x bs.length).2 { u with bitinQ := rest }) := by
  obtain ⟨j, y, hj, hy, hl, hsym⟩ := h
  have hrun := engineRun_to_leaf (s := { u with eng := .dec u.root 0 }) rfl ((follow_withCursor u u.bitinQ _ _ _).trans hj) hy hl hq
  rw [hsym, Nat.zero_add] at hrun
  exact command_eq (exec_decode_of_treeValid hv) hrun rfl (by omega)

/-- DECODE, once per symbol, of the concatenation of bits that lead to each symbol's leaf. -/
theorem decodeAll_eq {bitsFor : Nat → List Bool} {rest : List Bool} : ∀ {xs : List Nat} {u : State}, u.treeValid = true →
    (∀ x ∈ xs, LeadsTo u (bitsFor x) x ∧ (bitsFor x).length ≤ 256) → u.bitinQ = xs.flatMap bitsFor ++ rest →
    ∃ v, Claims.decodeAll xs.length u = some (xs.map fun x => decoded x (bitsFor x).length, v) ∧ v.bitinQ = rest := by
  intro xs
  induction xs with
  | nil => exact fun _ _ hq => ⟨_, rfl, hq⟩
  | cons x xs ih =>
    intro u hv hleads hq
    rw [List.flatMap_cons, List.append_assoc] at hq
    obtain ⟨hx, hlen⟩ := hleads x (.head _)
    have hcommand := command_decode hv hx hlen hq
    obtain ⟨v, hdecode, hrest⟩ := ih (u := completeWith (decoded x (bitsFor x).length).1 (decoded x (bitsFor x).length).2
      { u with bitinQ := xs.flatMap bitsFor ++ rest }) hv
      (fun y hy => ⟨(hleads y (.tail _ hy)).1.congr rfl rfl, (hleads y (.tail _ hy)).2⟩) rfl
    refine ⟨v, ?_, hrest⟩
    simp only [List.length_cons, Claims.decodeAll, hcommand, hdecode, List.map_cons]
    rfl

/-- Two valid trees of equal FREQ read the same (42_tree_builder.md R94). -/
theorem State.Inv.nodeAt_eq {s u : State} (hs : s.Inv) (hu : u.Inv) (hsv : s.treeValid = true) (huv : u.treeValid = true)
    (hfreq : s.freq = u.freq) : nodeAt u = nodeAt s ∧ u.root = s.root := by
  have hst := hs.tree hsv
  have hut := hu.tree huv
  have hnodes : u.nodes = s.nodes := BitVec.eq_of_toNat_eq (by rw [hut.nodes, hst.nodes, hfreq])
  have hroot : u.root = s.root := BitVec.eq_of_toNat_eq (by
    have := hst.root
    have := hut.root
    rw [hnodes] at this
    omega)
  have hnode : u.node = s.node := by rw [hut.node, hst.node, hfreq]
  exact ⟨funext fun i => by rw [nodeAt, nodeAt, hsv, huv, hnodes, hnode], hroot⟩

/-- A present symbol has a code, and the code's bits lead to the symbol's leaf (43_code_table.md R99). -/
theorem State.Inv.bitsOf_leadsTo {s : State} (h : s.Inv) (hv : s.codesValid = true) {x : Nat} (hx : freqAt s.freq x ≠ 0) :
    Claims.HasCode s x ∧ LeadsTo s (Claims.bitsOf s x) x ∧ (Claims.bitsOf s x).length ≤ 256 := by
  have hreads := h.reads (h.codesNeedTree hv)
  have hxlt : x < Config.nsym := (Table.keys_sorted h.freq).2 x ((Table.mem_keys_iff h.freq).mpr hx)
  have hc := codeAt_of_codesValid hv hxlt
  obtain ⟨habsent, -⟩ | ⟨-, bs, hbs, hcode⟩ := h.code_cases hv hc
  · exact absurd habsent hx
  · obtain ⟨-, -, hlen, -⟩ := (leaves_bound h.freq hreads).2 _ hbs
    have hroot := hreads.root
    have hsmall := hreads.small
    obtain ⟨j, y, hj, -, hy, hl, hsym⟩ := leavesUnder_follow hreads.below Config.nodeMax s.root.toNat (Nat.le_refl _)
      (by omega) _ hbs
    have hbits : Claims.bitsOf s x = bs := by rw [Claims.bitsOf, hcode, (codeBelow_root hlen).2.1]
    refine ⟨⟨_, hc, by rw [hcode]; rfl⟩, ⟨j, y, hbits ▸ hj, hy, hl, ?_⟩, hbits ▸ hlen⟩
    rw [← show y.sym.toNat = x from hsym, BitVec.ofNat_toNat, BitVec.setWidth_eq]

/-- A byte's result word is the byte: KIND is 0 (44_stream_codec.md R112). -/
theorem decoded_byte {x : Nat} (hx : x < 256) (n : Nat) : (decoded x n).1 = BitVec.ofNat 32 x := by
  have hne : BitVec.ofNat 9 x ≠ 256#9 := fun he => by
    have := congrArg BitVec.toNat he
    simp at this
    omega
  rw [decoded, kindOf_of_ne hne]
  apply BitVec.eq_of_toNat_eq
  simp only [decodeWord, Kind.bits, BitVec.toNat_append, BitVec.toNat_ofNat]
  simp
  omega

/-- Settles O38: the code of a present symbol leads to its leaf in the tree of `s`, which is that of `u`; so DECODE of the
concatenated codes returns the symbols one by one. -/
theorem decodeUndoesEncode : Obligations.DecodeUndoesEncode := by
  intro s u xs hs hu hv huv hfreq hxs heof heng hempty hroom
  have hpresent : ∀ x ∈ xs ++ [256], freqAt s.freq x ≠ 0 := by
    intro x hx
    rcases List.mem_append.mp hx with hx | hx
    · exact (hxs x hx).2
    · rw [List.mem_singleton.mp hx]; exact heof
  have hleads := fun x hx => hs.bitsOf_leadsTo hv (hpresent x hx)
  obtain ⟨t, ht, hq, -⟩ := encodeAll_eq hv (u := s) rfl (fun x hx => (hleads x hx).1)
    (by rw [hempty, List.length_nil, Nat.zero_add]; exact hroom) heng
  rw [hempty, List.nil_append] at hq
  obtain ⟨hnode, hroot⟩ := hs.nodeAt_eq hu (hs.codesNeedTree hv) huv hfreq
  by_cases hin : u.bitinQ = t.bitoutQ
  case neg => exact ⟨t, [], u, ht, fun h => absurd h hin⟩
  obtain ⟨v, hdecode, hrest⟩ := decodeAll_eq (bitsFor := Claims.bitsOf s) (rest := []) huv
    (fun x hx => ⟨(hleads x hx).2.1.congr hnode hroot, (hleads x hx).2.2⟩) (by rw [hin, hq, List.append_nil])
  refine ⟨t, (xs ++ [256]).map fun x => decoded x (Claims.bitsOf s x).length, v, ht,
    fun _ _ => ⟨?_, ?words, ?consumed, hrest⟩⟩
  · rw [← hdecode, List.length_append, List.length_singleton]
  case words =>
    rw [List.map_map, List.map_append]
    congr 1
    exact List.map_congr_left fun x hx => decoded_byte (hxs x hx).1 _
  case consumed =>
    rw [hq, List.length_flatMap, List.map_map]
    congr 1
    refine List.map_congr_left fun x hx => ?_
    exact (BitVec.toNat_ofNat ..).trans (Nat.mod_eq_of_lt ((hleads x hx).2.2.trans_lt (by decide)))

end Sys2Proof.Machine
end

section
/-! The tree and the code table: the shape of a built tree, the order of the merges, and the codes as the root-to-leaf paths
(42_tree_builder.md R90 to R93, 43_code_table.md R99, R100). -/

namespace Sys2Proof.Machine

/-- Settles O24: an extraction takes the least key off the queue, and answers nothing on the empty queue only. -/
theorem extractMinTakesTheLeastKey : Obligations.ExtractMinTakesTheLeastKey := by
  refine ⟨fun pq k rest h => ⟨(extractMin_some h).symm, fun x hx => ?_⟩, fun pq => ?_⟩
  · have hnot := extractMin_least h x hx
    rw [← Bool.not_eq_true, keyLess_iff] at hnot
    omega
  · cases pq <;> simp [extractMin]

/-! ### The shape of the tree -/

/-- The forest with one tree left is of the shape of R93. -/
theorem Forest.treeShape {f : List (Nat × Count)} {ns : List Node} {k : Key} (h : Forest f ns [k])
    (hroot : k.2 + 1 = ns.length) : Claims.TreeShape f ns where
  size := h.size
  leaves := fun i s c hi => by
    rw [h.leaves i (List.getElem?_eq_some_iff.mp hi).1, List.getElem?_map, hi]
    rfl
  inner := fun m x hm hx =>
    have hi := h.inner m x hm hx
    ⟨hi.leaf, hi.sym, hi.zero, hi.one, hi.ne⟩
  parent := fun j hj => by
    obtain ⟨m, hm⟩ := h.merged j (by omega) (by simp; omega)
    exact ⟨m, ⟨hm.2.choose, hm.1, hm.2.choose_spec⟩, fun m' x' hm' hx' hj' => h.once j m' m ⟨hm', x', hx', hj'⟩ hm⟩

/-- BUILD_TREE of an empty table takes EMPTY_TABLE (R91). -/
theorem exec_buildTree_of_empty {s : State} (h : s.freq = []) :
    exec .buildTree s = .next (takeFault .emptyTable (encode .buildTree) s) :=
  if_pos (by simp [keys, h])

/-- No present symbol means that FREQ lists none (10_state.md R36). -/
theorem freq_eq_nil_iff {n : Nat} {f : List (Nat × Count)} (hw : Table.wf (0 : Count) n f = true) :
    f = [] ↔ ∀ sym, freqAt f sym = 0 := by
  refine ⟨fun h sym => by rw [h]; rfl, fun h => ?_⟩
  cases f with
  | nil => rfl
  | cons e rest =>
    exact absurd (h e.1) ((Table.mem_keys_iff hw).mp (List.mem_map_of_mem (.head _)))

/-- BUILD_TREE of a table that is not empty and whose total fits (R91, R93). -/
theorem buildTree_result {s : State} (hw : Table.wf (0 : Count) 257 s.freq = true) (hne : s.freq ≠ [])
    (hfits : totalCount s.freq ≤ Claims.maxCount) :
    ∃ t, exec .buildTree s = .next t ∧ Claims.TreeShape s.freq t.node ∧
      t = Claims.finishedWith (BitVec.ofNat 32 (totalCount s.freq)) (0#6 ++ t.nodes ++ 0#6 ++ t.root)
        { s with node := t.node, nodes := t.nodes, root := t.root, treeValid := true, codesValid := false } ∧
      t.nodes.toNat = 2 * s.freq.length - 1 ∧ t.root.toNat = 2 * s.freq.length - 2 := by
  obtain ⟨k, hforest, hroot, -⟩ := arena_covers hne hw hfits
  obtain ⟨hsize, hsyms⟩ := arena_length hne hw hfits
  have htotal : (match (arena s.freq).getLast? with | some x => x.count | none => 0) =
      BitVec.ofNat 32 (totalCount s.freq) := by
    obtain ⟨x, hx, hcount⟩ := hforest.queue k (by simp)
    have hsum : k.1 = totalCount s.freq := by simpa using hforest.sum
    have hlast : (arena s.freq).getLast? = some x := by
      rw [List.getLast?_eq_getElem?, ← hroot]
      exact hx
    rw [hlast]
    simp [← hsum, ← hcount]
  have hexec := (if_neg (by simpa [keys] using hne) : exec .buildTree s = _).trans (if_neg hfits.not_gt)
  refine ⟨_, hexec, hforest.treeShape hroot, ?_, ?_, ?_⟩
  · rw [← htotal]
    rfl
  · exact (BitVec.toNat_ofNat ..).trans ((Nat.mod_eq_of_lt (by omega)).trans (by omega))
  · exact (BitVec.toNat_ofNat ..).trans ((Nat.mod_eq_of_lt (by omega)).trans (by omega))

/-- Settles O20: the two faults, and the forest that the merges end in. -/
theorem buildTreeFollowsItsRule : Obligations.BuildTreeFollowsItsRule := by
  refine ⟨rfl, fun s hw => ?_⟩
  have hne : (∃ sym, freqAt s.freq sym ≠ 0) → s.freq ≠ [] := fun ⟨sym, hsym⟩ he =>
    hsym ((freq_eq_nil_iff hw).mp he sym)
  exact ⟨fun hempty => exec_buildTree_of_empty ((freq_eq_nil_iff hw).mpr hempty),
    fun hpresent hbig => exec_buildTree_of_overflow (hne hpresent) hbig,
    fun hpresent hfits => buildTree_result hw (hne hpresent) hfits⟩

/-- Settles O21: the tree that the invariant speaks of is the forest that the merges end in. -/
theorem validTreeHasTheShapeOfR93 : Obligations.ValidTreeHasTheShapeOfR93 := by
  intro s hinv hv
  have hreads := hinv.reads hv
  obtain ⟨k, hforest, hk⟩ := hreads.forest
  have hsize := hreads.size
  have hroot := hreads.root
  have hlen := hforest.size
  rw [List.length_singleton] at hlen
  exact ⟨hforest.treeShape (by omega), by omega, by omega, keys_eq_filter_range hinv.freq, hreads.root_count⟩

/-- An order on keys read off its negation. -/
theorem not_keyLess {a b : Key} (h : keyLess a b = false) : b.1 < a.1 ∨ (b.1 = a.1 ∧ b.2 ≤ a.2) := by
  rw [← Bool.not_eq_true, keyLess_iff] at h
  omega

/-- Settles O22: the merge that made an internal node took the two least keys of the queue, and the nodes that waited are
those with no parent before it. -/
theorem zeroChildIsDequeuedFirst : Obligations.ZeroChildIsDequeuedFirst := by
  intro s hinv hv m x a b hm hx hl ha hb
  have hreads := hinv.reads hv
  obtain ⟨k, hforest, -⟩ := hreads.forest
  have entry : ∀ {i y}, i < s.nodes.toNat → nodeAt s i = some y → s.node[i]? = some y := fun hi hy =>
    (hreads.entry _ hi).symm.trans hy
  have hinner := hforest.inner_of_not_leaf (entry hm hx) hl
  obtain ⟨a', b', ha', hb', -, hfirst, hleast⟩ := hinner.children
  have hzero := hinner.zero
  have hone := hinner.one
  obtain rfl : a = a' := Option.some.inj ((entry (by omega) ha).symm.trans ha')
  obtain rfl : b = b' := Option.some.inj ((entry (by omega) hb).symm.trans hb')
  have hne : x.zero.toNat ≠ x.one.toNat := fun he => hinner.ne (BitVec.eq_of_toNat_eq he)
  have hkeys := not_keyLess hfirst
  simp only at hkeys
  refine ⟨⟨by omega, fun he => ?_⟩, fun j y hj hy hjz hjo hfree => ?_⟩
  · rw [he] at hkeys
    omega
  · have hwaits := not_keyLess (hleast j y hj (entry (by omega) hy) hjz hjo fun m' x' hm' hlt hx' =>
      hfree m' x' hlt ((hreads.entry m' (by omega)).trans hx') (hforest.inner m' x' hm' hx').leaf)
    simp only at hwaits
    rcases hwaits with hlt | ⟨heq, hle⟩
    · exact .inl hlt
    · exact .inr ⟨BitVec.eq_of_toNat_eq heq, by omega⟩

/-! ### The codes -/

/-- Two distinct leaves' edge sequences do not begin one another (R100). -/
theorem State.TreeReads.leaves_not_isPrefix {s : State} (h : s.TreeReads) {p q : Nat × List Bool} (hp : p ∈ s.leaves)
    (hq : q ∈ s.leaves) (hne : p ≠ q) : ¬ p.2 <+: q.2 := by
  have hroot := h.root
  have hsmall := h.small
  have hpair := leavesUnder_pairwise h.below Config.nodeMax s.root.toNat (Nat.le_refl _) (by omega)
  have : Std.Symm fun p q : Nat × List Bool => ¬ p.2 <+: q.2 ∧ ¬ q.2 <+: p.2 := ⟨fun _ _ h => h.symm⟩
  exact (hpair.forall hp hq hne).1

/-- Settles O29: a valid entry is the path to a leaf, and the paths to distinct leaves do not begin one another. -/
theorem codesArePrefixFree : Obligations.CodesArePrefixFree := by
  intro s hinv hv
  have hreads := hinv.reads (hinv.codesNeedTree hv)
  refine ⟨fun sym c hc => ?_, fun x y c d hne hc hd hcv hdv => ?_⟩
  · obtain ⟨habsent, rfl⟩ | ⟨hpresent, bs, -, rfl⟩ := hinv.code_cases hv hc
    · simp [habsent, Code.cleared]
    · exact iff_of_true rfl hpresent
  · obtain ⟨-, rfl⟩ | ⟨-, bs, hbs, rfl⟩ := hinv.code_cases hv hc
    · cases hcv
    obtain ⟨-, rfl⟩ | ⟨-, cs, hcs, rfl⟩ := hinv.code_cases hv hd
    · cases hdv
    have hbound := (leaves_bound hinv.freq hreads).2
    rw [(codeBelow_root (hbound _ hbs).2.2.1).2.1, (codeBelow_root (hbound _ hcs).2.2.1).2.1]
    exact hreads.leaves_not_isPrefix hbs hcs fun he => hne (congrArg Prod.fst he)

/-- A sum over symbols of what is 0 where a test fails is the sum over the symbols that pass. -/
theorem sum_map_eq_sum_map_filter {g : Nat → Nat} {p : Nat → Bool} (xs : List Nat) (h : ∀ x ∈ xs, p x = false → g x = 0) :
    (xs.map g).sum = ((xs.filter p).map g).sum := by
  induction xs with
  | nil => rfl
  | cons x xs ih =>
    have hrest := ih fun y hy => h y (.tail _ hy)
    cases hp : p x with
    | true => simp [hp, hrest]
    | false => simp [hp, hrest, h x (.head _) hp]

/-- The weight of a table entry in the Kraft sum (R100). -/
def kraftWeight (c : Code) : Nat := if c.valid then 2 ^ (256 - c.len.toNat) else 0

/-- Settles O30: the entries of absent symbols weigh nothing, the others are the tree's leaves, each once, and the leaves of a
tree fill it. -/
theorem kraftSumIsOne : Obligations.KraftSumIsOne := by
  intro s hinv hv _
  have hreads := hinv.reads (hinv.codesNeedTree hv)
  have hroot := hreads.root
  have hsmall := hreads.small
  have hbound := (leaves_bound hinv.freq hreads).2
  obtain ⟨t, ht, -, hleaf, habsent⟩ := codeTable_entries hinv.freq hreads
  obtain rfl : s.code = t := Option.some.inj ((hinv.codes hv).symm.trans ht)
  have hentry : ∀ p ∈ s.leaves, kraftWeight (Table.get Code.cleared s.code p.1) = 2 ^ (256 - p.2.length) := fun p hp => by
    rw [hleaf p hp, kraftWeight, (codeBelow_root (hbound p hp).2.2.1).1]
    rfl
  rw [List.map_map]
  calc ((List.range 257).map fun u => kraftWeight (Table.get Code.cleared s.code u)).sum
      = (((List.range 257).filter fun u => decide (freqAt s.freq u ≠ 0)).map fun u =>
          kraftWeight (Table.get Code.cleared s.code u)).sum :=
        sum_map_eq_sum_map_filter _ fun u _ hu => by
          rw [habsent u (by simpa using hu)]
          rfl
    _ = ((s.leaves.map (·.1)).map fun u => kraftWeight (Table.get Code.cleared s.code u)).sum := by
        have hkeys : s.freq.map (·.1) = (List.range 257).filter _ := keys_eq_filter_range hinv.freq
        rw [← hkeys]
        exact (hreads.covers.symm.map _).sum_eq
    _ = (s.leaves.map fun p => 2 ^ (256 - p.2.length)).sum := by
        rw [List.map_map]
        exact congrArg _ (List.map_congr_left hentry)
    _ = 2 ^ 256 := leavesUnder_weight hreads.below _ _ (Nat.le_refl _) (by omega) 256 fun p hp => (hbound p hp).2.2.1

/-- The symbols that the code table lists are those of FREQ (R99): both lists rise strictly, and both hold exactly the present
symbols. -/
theorem codeTable_keys {s : State} {t : List (Nat × Code)} (hw : Table.wf (0 : Count) Config.nsym s.freq = true)
    (h : s.TreeReads) (ht : codeTable s = some t) : t.map (·.1) = s.freq.map (·.1) ∧ ∀ e ∈ t, e.2.valid = true := by
  obtain ⟨t', ht', hwt, hleaf, habsent⟩ := codeTable_entries hw h
  obtain rfl : t = t' := Option.some.inj (ht.symm.trans ht')
  have hvalid : ∀ {sym}, Table.get Code.cleared t sym ≠ Code.cleared → freqAt s.freq sym ≠ 0 ∧
      (Table.get Code.cleared t sym).valid = true := fun {sym} hsym => by
    have hpresent : freqAt s.freq sym ≠ 0 := fun h0 => hsym (habsent sym h0)
    obtain ⟨bs, hbs⟩ := leaf_of_present hw h hpresent
    exact ⟨hpresent, by rw [hleaf _ hbs]; rfl⟩
  refine ⟨(Table.keys_sorted hwt).1.eq_of_mem_iff (Table.keys_sorted hw).1 fun sym => ?_, fun e he => ?_⟩
  · rw [Table.mem_keys_iff hwt, Table.mem_keys_iff hw]
    refine ⟨fun hsym => (hvalid hsym).1, fun hsym hcleared => ?_⟩
    obtain ⟨bs, hbs⟩ := leaf_of_present hw h hsym
    exact absurd (congrArg Code.valid ((hleaf _ hbs).symm.trans hcleared)) nofun
  · rw [← Table.get_of_mem hwt he]
    exact (hvalid (by rw [Table.get_of_mem hwt he]; exact Table.ne_of_mem hwt he)).2

/-- The longest length bounds every listed valid length. -/
theorem len_le_longestCode {t : List (Nat × Code)} {e : Nat × Code} (he : e ∈ t) (hv : e.2.valid = true) :
    e.2.len.toNat ≤ longestCode t := by
  induction t with
  | nil => cases he
  | cons f t ih =>
    simp only [longestCode, List.map_cons, List.foldr_cons]
    rcases List.mem_cons.mp he with rfl | he
    · simp [hv]
    · exact (ih he).trans (Nat.le_max_right ..)

/-- The longest length is some entry's, where every entry is valid. -/
theorem exists_len_eq_longestCode {t : List (Nat × Code)} (hne : t ≠ []) (hv : ∀ e ∈ t, e.2.valid = true) :
    ∃ e ∈ t, e.2.len.toNat = longestCode t := by
  induction t with
  | nil => exact absurd rfl hne
  | cons f t ih =>
    have hf := hv f (.head _)
    simp only [longestCode, List.map_cons, List.foldr_cons, hf, if_true]
    cases t with
    | nil => exact ⟨f, .head _, by simp⟩
    | cons g t =>
      obtain ⟨e, he, hlen⟩ := ih (by simp) fun e he => hv e (.tail _ he)
      rcases Nat.le_total f.2.len.toNat (longestCode (g :: t)) with hle | hle
      · exact ⟨e, .tail _ he, hlen.trans (Nat.max_eq_right hle).symm⟩
      · exact ⟨f, .head _, (Nat.max_eq_left hle).symm⟩

/-- GEN_CODES with no valid tree takes NO_TREE (R99). -/
theorem exec_genCodes_of_noTree {s : State} (hv : s.treeValid = false) :
    exec .genCodes s = .next (takeFault .noTree (encode .genCodes) s) :=
  if_pos hv

/-- GEN_CODES of a valid tree writes the table of its walk, with the number of codes and the longest length (R99). -/
theorem exec_genCodes_of_codeTable {s : State} {t : List (Nat × Code)} (hv : s.treeValid = true) (ht : codeTable s = some t) :
    exec .genCodes s = .next (completeWith (BitVec.ofNat 32 (codeCount t)) (BitVec.ofNat 32 (longestCode t))
      { s with code := t, codesValid := true }) := by
  simp [exec, execGenCodes, hv, ht]

/-- Settles O28: the table of the walk, read entry by entry in the state that GEN_CODES leaves, which meets the invariant. -/
theorem genCodesFollowsItsRule : Obligations.GenCodesFollowsItsRule := by
  refine ⟨rfl, fun s hinv => ⟨exec_genCodes_of_noTree, fun hv => ?_⟩⟩
  have hreads := hinv.reads hv
  obtain ⟨c, hc, hwc, -⟩ := codeTable_entries hinv.freq hreads
  obtain ⟨hkeys, hvalid⟩ := codeTable_keys hinv.freq hreads hc
  have hexec := exec_genCodes_of_codeTable hv hc
  obtain ⟨t, ht⟩ : ∃ t, t = completeWith (BitVec.ofNat 32 (codeCount c)) (BitVec.ofNat 32 (longestCode c))
      { s with code := c, codesValid := true } := ⟨_, rfl⟩
  have htinv : t.Inv := exec_inv hinv (ht ▸ hexec)
  have htv : t.codesValid = true := by rw [ht]; rfl
  have htcode : t.code = c := by rw [ht]; rfl
  have htfreq : t.freq = s.freq := by rw [ht]; rfl
  have hlength : c.length = s.freq.length := by simpa using congrArg List.length hkeys
  have hne : c ≠ [] := fun he => (hinv.tree hv).nonempty (List.eq_nil_of_length_eq_zero (by rw [← hlength, he]; rfl))
  obtain ⟨e, he, hlongest⟩ := exists_len_eq_longestCode hne hvalid
  have hmax : t.result1.toNat = longestCode c := by
    rw [ht, completeWith_result1, BitVec.toNat_ofNat, ← hlongest]
    exact Nat.mod_eq_of_lt (e.2.len.isLt.trans (by decide))
  have hcount : t.result0.toNat = s.freq.length := by
    have hall : codeCount c = c.length := congrArg List.length (List.filter_eq_self.mpr hvalid)
    have := Table.length_le hinv.freq
    rw [ht, completeWith_result0, BitVec.toNat_ofNat, hall, hlength]
    exact Nat.mod_eq_of_lt (this.trans_lt (by decide))
  have hcodeAt : ∀ {sym}, sym < Config.nsym → codeAt t sym = some (Table.get Code.cleared c sym) := fun hsym =>
    htcode ▸ codeAt_of_codesValid htv hsym
  refine ⟨t, ht ▸ hexec, by rw [ht]; rfl, hcount, fun sym hsym => ?entries, e.1, e.2, ?attained, hvalid e he,
    hlongest.trans hmax.symm⟩
  case attained =>
    rw [hcodeAt ((Table.keys_sorted hwc).2 _ (List.mem_map_of_mem he)), Table.get_of_mem hwc he]
  case entries =>
    have hentry := hcodeAt (Nat.lt_succ_of_le hsym)
    refine ⟨_, hentry, ?_, fun habsent => ?_, fun hpresent => ?_⟩
    · rw [hmax]
      by_cases hget : Table.get Code.cleared c sym = Code.cleared
      · rw [hget]; exact Nat.zero_le _
      · have hmem := Table.mem_of_get hget
        exact len_le_longestCode hmem (hvalid _ hmem)
    · obtain ⟨-, hcleared⟩ | ⟨hpresent, -⟩ := htinv.code_cases htv hentry
      · exact hcleared
      · exact absurd (htfreq ▸ habsent) hpresent
    · rw [← htfreq] at hpresent
      obtain ⟨⟨c', hc', hcv⟩, ⟨j, y, hj, hy, hl, hsymEq⟩, -⟩ := htinv.bitsOf_leadsTo htv hpresent
      obtain rfl : Table.get Code.cleared c sym = c' := Option.some.inj (hentry.symm.trans hc')
      refine ⟨hcv, fun k hk => htinv.path_getLsbD_of_len_le htv hentry hk, j, y, ?_, hy, hl, ?_⟩
      · rw [Claims.bitsOf, htcode] at hj
        exact hj
      · rw [hsymEq, BitVec.toNat_ofNat]
        exact Nat.mod_eq_of_lt (by omega)

end Sys2Proof.Machine
end

section
/-! What one step can change: the frames of the commands, of the bit steps and of a host turn, and the rules over every step
that follow from them (10_state.md R28, R39, R41, 20_memory.md R62, 41_frequency.md R87, 60_exceptions.md R138, R145). -/

namespace Sys2Proof.Machine

/-! ### The host's side -/

/-- One register access leaves the tables, the results and the parameters, and ENG while a command executes, or it is the
reset action (20_memory.md R62, 60_exceptions.md R141). -/
structure LeavesCommand (s t : State) : Prop where
  tables : SameTables s t
  result0 : t.result0 = s.result0
  result1 : t.result1 = s.result1
  params : t.params = s.params
  eng : s.eng ≠ .idle → t.eng = s.eng

theorem leavesCommand_refl (s : State) : LeavesCommand s s :=
  ⟨rfl, rfl, rfl, rfl, fun _ => rfl⟩

theorem leavesCommand_raise (k : FaultKind) (w : Word) (s : State) : LeavesCommand s (raise k w s) :=
  ⟨rfl, rfl, rfl, rfl, fun _ => rfl⟩

theorem leavesCommand_issue (w : Word) (s : State) : LeavesCommand s (issue w s) := by
  rcases issue_cases w s with ⟨-, he⟩ | ⟨-, -, he⟩ | ⟨hidle, -, he⟩ <;> rw [he]
  · exact leavesCommand_raise .busyOverrun w s
  · exact ⟨rfl, rfl, rfl, rfl, fun _ => rfl⟩
  · exact ⟨rfl, rfl, rfl, rfl, fun hbusy => absurd hidle hbusy⟩

theorem leavesCommand_bitinWrite (v : Word) (s : State) : LeavesCommand s (bitinWrite v s) := by
  rcases bitinWrite_cases v s with ⟨-, he⟩ | ⟨-, -, he⟩ | ⟨-, -, he⟩ <;> rw [he]
  · exact ⟨rfl, rfl, rfl, rfl, fun _ => rfl⟩
  · exact ⟨rfl, rfl, rfl, rfl, fun _ => rfl⟩
  · exact leavesCommand_raise .bitinOverflow v s

theorem regWrite_leavesCommand (r : Reg) (v : Word) (s : State) :
    LeavesCommand s (regWrite r v s) ∨ regWrite r v s = blockReset s := by
  rcases regWrite_cases r v s with he | ⟨-, -, he⟩ | ⟨-, he⟩ | ⟨-, -, he⟩ | ⟨-, he⟩ | ⟨-, he⟩ | ⟨-, he⟩
  case inr.inl => exact .inr he
  all_goals rw [he]; left
  case inl => exact leavesCommand_refl s
  case inr.inr.inl => exact leavesCommand_issue v s
  case inr.inr.inr.inr.inr.inl => exact leavesCommand_bitinWrite v s
  all_goals exact ⟨rfl, rfl, rfl, rfl, fun _ => rfl⟩

/-- A host turn leaves an executing command alone, or it resets the block. -/
theorem hostTurn_leavesCommand {s t : State} (h : hostTurn s = .next t) :
    LeavesCommand s t ∨ (Claims.BlockIsReset t ∧ t.params = s.params) := by
  obtain ⟨u, haccess, a, c, rfl⟩ := hostTurn_effect h
  have hu : LeavesCommand s u ∨ u = blockReset s := by
    rcases haccess with rfl | rfl | ⟨r, v, rfl⟩
    · exact .inl (leavesCommand_refl u)
    · exact .inl ⟨rfl, rfl, rfl, rfl, fun _ => rfl⟩
    · exact regWrite_leavesCommand r v s
  rcases hu with hkeep | rfl
  · exact .inl ⟨hkeep.tables, hkeep.result0, hkeep.result1, hkeep.params, hkeep.eng⟩
  · exact .inr ⟨rfl, rfl⟩

/-- Settles O50: a host turn is at most one register access, and none but the reset action touches ENG or a table while a
command executes. -/
theorem hostLeavesTheCommandAlone : Obligations.HostLeavesTheCommandAlone := by
  intro s t h hbusy
  rcases hostTurn_leavesCommand h with ⟨ht, h0, h1, -, heng⟩ | ⟨hreset, -⟩
  · exact .inr ⟨heng hbusy, ht.freq, ht.node, ht.root, ht.nodes, ht.code, ht.treeValid, ht.codesValid, h0, h1⟩
  · exact .inl hreset

/-- Settles O56: by the one register access that a host turn makes; only a read of BITOUT changes the block. -/
theorem hostActsThroughRegisters : Obligations.HostActsThroughRegisters := by
  intro s t h
  obtain ⟨u, haccess, a, c, rfl⟩ := hostTurn_effect h
  rcases haccess with rfl | rfl | ⟨r, v, rfl⟩
  · exact .inl rfl
  · refine .inr (.inl ⟨.bitout, ?_⟩)
    rw [regRead_snd]
    rfl
  · exact .inr (.inr ⟨r, v, rfl⟩)

/-! ### The commands' side -/

/-- DATA, IRQ_EN, the parameters and what is the host's are those of `s`. -/
structure SameHostSide (s t : State) : Prop where
  data : t.data = s.data
  irqEn : t.irqEn = s.irqEn
  host : t.host = s.host
  turns : t.turns = s.turns
  freeCtr : t.freeCtr = s.freeCtr
  params : t.params = s.params

theorem Effect.sameHostSide {i : Instr} {s t : State} (h : Effect i s t) : SameHostSide s t := by
  cases i with
  | nop | clearFreq | streamReset | clearFault => cases h; exact ⟨rfl, rfl, rfl, rfl, rfl, rfl⟩
  | writeFreq | readFreq | decode => obtain ⟨-, rfl⟩ := h; exact ⟨rfl, rfl, rfl, rfl, rfl, rfl⟩
  | count => obtain ⟨-, -, rfl⟩ := h; exact ⟨rfl, rfl, rfl, rfl, rfl, rfl⟩
  | genCodes => obtain ⟨-, _, -, rfl⟩ := h; exact ⟨rfl, rfl, rfl, rfl, rfl, rfl⟩
  | buildTree => obtain ⟨-, -, _, rfl⟩ := h; exact ⟨rfl, rfl, rfl, rfl, rfl, rfl⟩
  | readNode | readCode => obtain ⟨-, -, _, -, rfl⟩ := h; exact ⟨rfl, rfl, rfl, rfl, rfl, rfl⟩
  | encode => obtain ⟨-, -, _, -, -, ⟨-, rfl⟩ | ⟨-, rfl⟩⟩ := h <;> exact ⟨rfl, rfl, rfl, rfl, rfl, rfl⟩

theorem exec_sameHostSide {i : Instr} {s t : State} (h : exec i s = .next t) : SameHostSide s t := by
  rcases exec_cases h with ⟨k, rfl⟩ | he
  · exact ⟨rfl, rfl, rfl, rfl, rfl, rfl⟩
  · exact he.sameHostSide

theorem engineStep_params {s t : State} (h : engineStep s = .next t) : t.params = s.params := by
  rcases engineStep_cases h with ⟨-, rfl⟩ | ⟨w, _, -, -, rfl⟩ | ⟨_, _, i, -, -, hexec⟩ | ⟨_, _, -, hbit⟩ | ⟨_, _, -, hbit⟩
  · rfl
  · rfl
  · exact (exec_sameHostSide hexec).params
  · rcases encodeBit_cases hbit with rfl | ⟨_, -, -, ⟨-, rfl⟩ | ⟨-, rfl⟩⟩ <;> rfl
  · obtain ⟨_, -, ⟨-, rfl⟩ | ⟨-, _, _, -, rfl⟩ | ⟨-, -, -, rfl⟩ | ⟨-, -, -, rfl⟩⟩ := decodeBit_cases hbit <;> rfl

/-- Settles O57: by the effects of the commands, and by the one register access of a host turn. -/
theorem commandsLeaveTheHostSideAlone : Obligations.CommandsLeaveTheHostSideAlone := by
  refine ⟨fun i s t h => ?_, fun s t h => ?_⟩
  · obtain ⟨hdata, hirq, hhost, hturns, hctr, hparams⟩ := exec_sameHostSide h
    exact ⟨hdata, hirq, hhost, hturns, hctr, hparams⟩
  · rcases step_cases h with ⟨-, hengine⟩ | ⟨-, hhost⟩
    · exact (engineStep_params hengine :)
    · rcases hostTurn_leavesCommand hhost with hkeep | ⟨-, hparams⟩
      · exact hkeep.params
      · exact hparams

/-! ### Tables and valid bits -/

/-- An engine step keeps the tables, but for the effect of the command it decodes. -/
theorem engineStep_tables {s t : State} (h : engineStep s = .next t) :
    SameTables s t ∨ ∃ i, Claims.Decoding s i ∧ Effect i s t := by
  rcases engineStep_cases h with ⟨-, rfl⟩ | ⟨w, _, -, -, rfl⟩ | ⟨w, d, i, hpend, hdecode, hexec⟩ | ⟨_, _, -, hbit⟩ | ⟨_, _, -, hbit⟩
  · exact .inl rfl
  · exact .inl rfl
  · rcases exec_cases hexec with ⟨k, rfl⟩ | he
    · exact .inl rfl
    · exact .inr ⟨i, ⟨w, d, hpend, hdecode⟩, he⟩
  · rcases encodeBit_cases hbit with rfl | ⟨_, -, -, ⟨-, rfl⟩ | ⟨-, rfl⟩⟩ <;> exact .inl rfl
  · obtain ⟨_, -, ⟨-, rfl⟩ | ⟨-, _, _, -, rfl⟩ | ⟨-, -, -, rfl⟩ | ⟨-, -, -, rfl⟩⟩ := decodeBit_cases hbit <;>
      exact .inl rfl

/-- A step keeps the tables, but for the effect of the command it decodes, and for reset. -/
theorem step_tables {s t : State} (h : step s = .next t) :
    SameTables s t ∨ (∃ i, Claims.Decoding s i ∧ Effect i (dropTurn s) t) ∨ Claims.BlockIsReset t := by
  rcases step_cases h with ⟨-, hengine⟩ | ⟨-, hhost⟩
  · exact (engineStep_tables hengine).imp id .inl
  · rcases hostTurn_leavesCommand hhost with hkeep | ⟨hreset, -⟩
    · exact .inl hkeep.tables
    · exact .inr (.inr hreset)

/-- What a command does to FREQ (41_frequency.md R82 to R84). -/
theorem Effect.freq_cases {i : Instr} {s t : State} (h : Effect i s t) :
    t.freq = s.freq ∨ (i = .clearFreq ∧ t.freq = []) ∨
    (∃ sym, i = .count sym ∧ (freqAt s.freq sym).toNat ≠ Config.countMax ∧
      t.freq = freqPut s.freq sym (freqAt s.freq sym + 1)) ∨
    (∃ sym v, i = .writeFreq sym ∧ t.freq = freqPut s.freq sym v) := by
  cases i with
  | nop | streamReset | clearFault => cases h; exact .inl rfl
  | clearFreq => cases h; exact .inr (.inl ⟨rfl, rfl⟩)
  | count sym => obtain ⟨-, hroom, rfl⟩ := h; exact .inr (.inr (.inl ⟨sym, rfl, hroom, rfl⟩))
  | writeFreq sym => obtain ⟨-, rfl⟩ := h; exact .inr (.inr (.inr ⟨sym, _, rfl, rfl⟩))
  | readFreq | decode => obtain ⟨-, rfl⟩ := h; exact .inl rfl
  | genCodes => obtain ⟨-, _, -, rfl⟩ := h; exact .inl rfl
  | buildTree => obtain ⟨-, -, _, rfl⟩ := h; exact .inl rfl
  | readNode | readCode => obtain ⟨-, -, _, -, rfl⟩ := h; exact .inl rfl
  | encode => obtain ⟨-, -, _, -, -, ⟨-, rfl⟩ | ⟨-, rfl⟩⟩ := h <;> exact .inl rfl

/-- A write to FREQ that shows at a symbol is a write of that symbol. -/
theorem eq_of_freqAt_freqPut_ne {f : List (Nat × Count)} {sym u : Nat} {v : Count}
    (h : freqAt (freqPut f sym v) u ≠ freqAt f u) : u = sym :=
  by_contra fun hne => h (freqAt_freqPut_of_ne hne f v)

/-- Settles O19: FREQ is written by the three commands' effects only, and by reset. -/
theorem countsChangeOnlyByTheirCommands : Obligations.CountsChangeOnlyByTheirCommands := by
  intro s t sym hstep hne
  rcases step_tables hstep with hsame | ⟨i, hdecoding, heffect⟩ | hreset
  · exact absurd (congrArg (freqAt · sym) hsame.freq) hne
  · rcases heffect.freq_cases with hsame | ⟨rfl, hempty⟩ | ⟨x, rfl, hroom, hput⟩ | ⟨x, v, rfl, hput⟩
    · exact absurd (congrArg (freqAt · sym) hsame) hne
    · exact .inr (.inr (.inl ⟨hdecoding, by rw [hempty]; rfl⟩))
    · rw [hput] at hne ⊢
      obtain rfl : sym = x := eq_of_freqAt_freqPut_ne hne
      refine .inl ⟨hdecoding, ?_⟩
      rw [freqAt_freqPut_same]
      exact toNat_add_one_of_ne_countMax hroom
    · rw [hput] at hne
      obtain rfl : sym = x := eq_of_freqAt_freqPut_ne hne
      exact .inr (.inl hdecoding)
  · exact .inr (.inr (.inr hreset))

/-- What a command does to the valid bits (10_state.md R39). -/
theorem Effect.validBits_cases {i : Instr} {s t : State} (h : Effect i s t) :
    (t.treeValid = s.treeValid ∧ t.codesValid = s.codesValid) ∨
    ((i = .clearFreq ∨ (∃ x, i = .count x) ∨ ∃ x, i = .writeFreq x) ∧ t.treeValid = false ∧ t.codesValid = false) ∨
    (i = .buildTree ∧ t.treeValid = true ∧ t.codesValid = false) ∨
    (i = .genCodes ∧ s.treeValid = true ∧ t.treeValid = true ∧ t.codesValid = true) := by
  cases i with
  | nop | streamReset | clearFault => cases h; exact .inl ⟨rfl, rfl⟩
  | clearFreq => cases h; exact .inr (.inl ⟨.inl rfl, rfl, rfl⟩)
  | count sym => obtain ⟨-, -, rfl⟩ := h; exact .inr (.inl ⟨.inr (.inl ⟨sym, rfl⟩), rfl, rfl⟩)
  | writeFreq sym => obtain ⟨-, rfl⟩ := h; exact .inr (.inl ⟨.inr (.inr ⟨sym, rfl⟩), rfl, rfl⟩)
  | readFreq | decode => obtain ⟨-, rfl⟩ := h; exact .inl ⟨rfl, rfl⟩
  | genCodes => obtain ⟨hv, _, -, rfl⟩ := h; exact .inr (.inr (.inr ⟨rfl, hv, hv, rfl⟩))
  | buildTree => obtain ⟨-, -, _, rfl⟩ := h; exact .inr (.inr (.inl ⟨rfl, rfl, rfl⟩))
  | readNode | readCode => obtain ⟨-, -, _, -, rfl⟩ := h; exact .inl ⟨rfl, rfl⟩
  | encode => obtain ⟨-, -, _, -, -, ⟨-, rfl⟩ | ⟨-, rfl⟩⟩ := h <;> exact .inl ⟨rfl, rfl⟩

/-- In the reset state nothing is valid (10_state.md R49). -/
theorem validBits_of_reset {t : State} (h : Claims.BlockIsReset t) : t.treeValid = false ∧ t.codesValid = false :=
  ⟨congrArg State.treeValid h, congrArg State.codesValid h⟩

/-- Everything a step can do to the valid bits (10_state.md R39). -/
theorem step_validBits {s t : State} (h : step s = .next t) :
    (t.treeValid = s.treeValid ∧ t.codesValid = s.codesValid) ∨
    ((Claims.Decoding s .clearFreq ∨ (∃ x, Claims.Decoding s (.count x)) ∨ (∃ x, Claims.Decoding s (.writeFreq x)) ∨
      Claims.BlockIsReset t) ∧ t.treeValid = false ∧ t.codesValid = false) ∨
    (Claims.Decoding s .buildTree ∧ t.treeValid = true ∧ t.codesValid = false) ∨
    (Claims.Decoding s .genCodes ∧ s.treeValid = true ∧ t.treeValid = true ∧ t.codesValid = true) := by
  rcases step_tables h with hsame | ⟨i, hdecoding, heffect⟩ | hreset
  · exact .inl ⟨hsame.treeValid, hsame.codesValid⟩
  · rcases heffect.validBits_cases with hsame | ⟨rfl | ⟨x, rfl⟩ | ⟨x, rfl⟩, hclear⟩ | ⟨rfl, hbits⟩ | ⟨rfl, hbits⟩
    · exact .inl hsame
    · exact .inr (.inl ⟨.inl hdecoding, hclear⟩)
    · exact .inr (.inl ⟨.inr (.inl ⟨x, hdecoding⟩), hclear⟩)
    · exact .inr (.inl ⟨.inr (.inr (.inl ⟨x, hdecoding⟩)), hclear⟩)
    · exact .inr (.inr (.inl ⟨hdecoding, hbits⟩))
    · exact .inr (.inr (.inr ⟨hdecoding, hbits⟩))
  · exact .inr (.inl ⟨.inr (.inr (.inr hreset)), validBits_of_reset hreset⟩)

/-- Settles O48: the valid bits change in the four ways of `step_validBits`. -/
theorem validBitsChangeOnlyAsR39Says : Obligations.ValidBitsChangeOnlyAsR39Says := by
  intro s t hstep
  rcases step_validBits hstep with ⟨htree, hcodes⟩ | ⟨hcause, htree, hcodes⟩ | ⟨hbuild, htree, hcodes⟩ | ⟨hgen, hs, htree, hcodes⟩
  · simp +contextual [htree, hcodes]
  · rcases hcause with hcause | hcause | hcause | hcause <;> simp [htree, hcodes, hcause]
  · simp [htree, hcodes, hbuild]
  · simp [hs, htree, hcodes, hgen]

/-! ### Results -/

/-- RESULT0 and RESULT1 are those of `s`, or a command has completed without a fault (10_state.md R28, R46). -/
def KeepsResultsOrCompletes (s t : State) : Prop :=
  (t.result0 = s.result0 ∧ t.result1 = s.result1) ∨ (t.eng = .idle ∧ t.done = true ∧ t.raised = s.raised)

theorem Effect.keepsResultsOrCompletes {i : Instr} {s t : State} (h : Effect i s t) : KeepsResultsOrCompletes s t := by
  by_cases hcodec : (∃ sym, i = .encode sym) ∨ i = .decode
  · rcases hcodec with ⟨sym, rfl⟩ | rfl
    · obtain ⟨-, -, _, -, -, ⟨-, rfl⟩ | ⟨-, rfl⟩⟩ := h
      · exact .inr ⟨rfl, rfl, rfl⟩
      · exact .inl ⟨rfl, rfl⟩
    · obtain ⟨-, rfl⟩ := h
      exact .inl ⟨rfl, rfl⟩
  · rw [not_or, not_exists] at hcodec
    exact .inr ⟨h.eng_idle hcodec.1 hcodec.2, h.done hcodec.1 hcodec.2, h.raised_fault.1⟩

theorem engineStep_keepsResultsOrCompletes {s t : State} (h : engineStep s = .next t) : KeepsResultsOrCompletes s t := by
  rcases engineStep_cases h with ⟨-, rfl⟩ | ⟨w, _, -, -, rfl⟩ | ⟨_, _, _, -, -, hexec⟩ | ⟨_, _, -, hbit⟩ | ⟨_, _, -, hbit⟩
  · exact .inl ⟨rfl, rfl⟩
  · exact .inl ⟨rfl, rfl⟩
  · rcases exec_cases hexec with ⟨k, rfl⟩ | he
    · exact .inl ⟨rfl, rfl⟩
    · exact he.keepsResultsOrCompletes
  · rcases encodeBit_cases hbit with rfl | ⟨_, -, -, ⟨-, rfl⟩ | ⟨-, rfl⟩⟩
    · exact .inl ⟨rfl, rfl⟩
    · exact .inr ⟨rfl, rfl, rfl⟩
    · exact .inl ⟨rfl, rfl⟩
  · obtain ⟨_, -, ⟨-, rfl⟩ | ⟨-, _, _, -, rfl⟩ | ⟨-, -, -, rfl⟩ | ⟨-, -, -, rfl⟩⟩ := decodeBit_cases hbit
    · exact .inr ⟨rfl, rfl, rfl⟩
    · exact .inl ⟨rfl, rfl⟩
    · exact .inr ⟨rfl, rfl, rfl⟩
    · exact .inl ⟨rfl, rfl⟩

/-- The commands that define no result leave both (R28). -/
theorem Effect.results_of_noResult {i : Instr} {s t : State} (h : Effect i s t)
    (hi : i = .nop ∨ i = .clearFreq ∨ (∃ sym, i = .writeFreq sym) ∨ i = .streamReset ∨ i = .clearFault) :
    t.result0 = s.result0 ∧ t.result1 = s.result1 := by
  rcases hi with rfl | rfl | ⟨sym, rfl⟩ | rfl | rfl
  case inr.inr.inl => obtain ⟨-, rfl⟩ := h; exact ⟨rfl, rfl⟩
  all_goals cases h; exact ⟨rfl, rfl⟩

/-- Settles O47: an engine step that changes a result completes a command without a fault, an idle engine changes nothing,
and a host turn changes a result by reset only. -/
theorem resultsChangeOnlyAtCompletion : Obligations.ResultsChangeOnlyAtCompletion := by
  refine ⟨fun s t hstep hne => ?_, fun i s t hi hexec => ?_⟩
  · rcases step_cases hstep with ⟨-, hengine⟩ | ⟨-, hhost⟩
    · rcases engineStep_keepsResultsOrCompletes hengine with ⟨h0, h1⟩ | hcompleted
      · exact absurd hne (not_or.mpr ⟨not_not.mpr h0, not_not.mpr h1⟩)
      · refine .inl ⟨fun hidle => ?_, hcompleted⟩
        have hsame := Host.Outcome.next.inj ((engineStep_idle (s := dropTurn s) hidle).symm.trans hengine)
        rw [← hsame] at hne
        exact absurd hne (not_or.mpr ⟨not_not.mpr rfl, not_not.mpr rfl⟩)
    · rcases hostTurn_leavesCommand hhost with hkeep | ⟨hreset, -⟩
      · exact absurd hne (not_or.mpr ⟨not_not.mpr hkeep.result0, not_not.mpr hkeep.result1⟩)
      · exact .inr hreset
  · rcases exec_cases hexec with ⟨k, rfl⟩ | he
    · exact ⟨rfl, rfl⟩
    · exact he.results_of_noResult hi

/-! ### Streams -/

/-- A queue as one step may leave it: unchanged, without its head, or with one bit at its tail (10_state.md R41). -/
def QueueMoves (q q' : List Bool) : Prop := q' = q ∨ q' = q.tail ∨ ∃ b, q' = q ++ [b]

/-- EOS and both queues as one step may leave them, but for STREAM_RESET and reset (R41). -/
structure StreamsMove (s t : State) : Prop where
  eos : s.eos = true → t.eos = true
  bitinQ : QueueMoves s.bitinQ t.bitinQ
  bitoutQ : QueueMoves s.bitoutQ t.bitoutQ

theorem streamsMove_of_eq {s t : State} (heos : t.eos = s.eos) (hin : t.bitinQ = s.bitinQ) (hout : t.bitoutQ = s.bitoutQ) :
    StreamsMove s t :=
  ⟨fun h => heos.trans h, .inl hin, .inl hout⟩

/-- The effect of every command but STREAM_RESET leaves the streams. -/
theorem Effect.streams {i : Instr} {s t : State} (h : Effect i s t) (hi : i ≠ .streamReset) :
    t.eos = s.eos ∧ t.bitinQ = s.bitinQ ∧ t.bitoutQ = s.bitoutQ := by
  cases i with
  | streamReset => exact absurd rfl hi
  | nop | clearFreq | clearFault => cases h; exact ⟨rfl, rfl, rfl⟩
  | writeFreq | readFreq | decode => obtain ⟨-, rfl⟩ := h; exact ⟨rfl, rfl, rfl⟩
  | count => obtain ⟨-, -, rfl⟩ := h; exact ⟨rfl, rfl, rfl⟩
  | genCodes => obtain ⟨-, _, -, rfl⟩ := h; exact ⟨rfl, rfl, rfl⟩
  | buildTree => obtain ⟨-, -, _, rfl⟩ := h; exact ⟨rfl, rfl, rfl⟩
  | readNode | readCode => obtain ⟨-, -, _, -, rfl⟩ := h; exact ⟨rfl, rfl, rfl⟩
  | encode => obtain ⟨-, -, _, -, -, ⟨-, rfl⟩ | ⟨-, rfl⟩⟩ := h <;> exact ⟨rfl, rfl, rfl⟩

/-- An engine step never sets EOS, and moves the queues unless it decodes STREAM_RESET. -/
theorem engineStep_streams {s t : State} (h : engineStep s = .next t) :
    (StreamsMove s t ∧ t.eos = s.eos) ∨ (Claims.Decoding s .streamReset ∧ t.eos = false) := by
  rcases engineStep_cases h with ⟨-, rfl⟩ | ⟨w, _, -, -, rfl⟩ | ⟨w, d, i, hpend, hdecode, hexec⟩ | ⟨_, _, -, hbit⟩ | ⟨_, _, -, hbit⟩
  · exact .inl ⟨streamsMove_of_eq rfl rfl rfl, rfl⟩
  · exact .inl ⟨streamsMove_of_eq rfl rfl rfl, rfl⟩
  · rcases exec_cases hexec with ⟨k, rfl⟩ | he
    · exact .inl ⟨streamsMove_of_eq rfl rfl rfl, rfl⟩
    · by_cases hi : i = .streamReset
      · subst hi
        cases he
        exact .inr ⟨⟨w, d, hpend, hdecode⟩, rfl⟩
      · obtain ⟨heos, hin, hout⟩ := he.streams hi
        exact .inl ⟨streamsMove_of_eq heos hin hout, heos⟩
  · rcases encodeBit_cases hbit with rfl | ⟨_, -, -, ⟨-, rfl⟩ | ⟨-, rfl⟩⟩
    · exact .inl ⟨streamsMove_of_eq rfl rfl rfl, rfl⟩
    · exact .inl ⟨⟨id, .inl rfl, .inr (.inr ⟨_, rfl⟩)⟩, rfl⟩
    · exact .inl ⟨⟨id, .inl rfl, .inr (.inr ⟨_, rfl⟩)⟩, rfl⟩
  · obtain ⟨_, -, ⟨-, rfl⟩ | ⟨-, _, _, hq, rfl⟩ | ⟨-, -, -, rfl⟩ | ⟨-, -, -, rfl⟩⟩ := decodeBit_cases hbit
    · exact .inl ⟨streamsMove_of_eq rfl rfl rfl, rfl⟩
    · exact .inl ⟨⟨id, .inr (.inl (congrArg List.tail hq).symm), .inl rfl⟩, rfl⟩
    · exact .inl ⟨streamsMove_of_eq rfl rfl rfl, rfl⟩
    · exact .inl ⟨streamsMove_of_eq rfl rfl rfl, rfl⟩

theorem regWrite_streams (r : Reg) (v : Word) (s : State) : StreamsMove s (regWrite r v s) ∨ regWrite r v s = blockReset s := by
  rcases regWrite_cases r v s with he | ⟨-, -, he⟩ | ⟨-, he⟩ | ⟨-, -, he⟩ | ⟨-, he⟩ | ⟨-, he⟩ | ⟨-, he⟩
  case inr.inl => exact .inr he
  all_goals rw [he]; left
  case inr.inr.inl =>
    rcases issue_cases v s with ⟨-, he⟩ | ⟨-, -, he⟩ | ⟨-, -, he⟩ <;> rw [he] <;> exact streamsMove_of_eq rfl rfl rfl
  case inr.inr.inr.inr.inr.inl =>
    rcases bitinWrite_cases v s with ⟨-, he⟩ | ⟨-, -, he⟩ | ⟨-, -, he⟩ <;> rw [he]
    · exact ⟨fun _ => rfl, .inl rfl, .inl rfl⟩
    · exact ⟨id, .inr (.inr ⟨_, rfl⟩), .inl rfl⟩
    · exact streamsMove_of_eq rfl rfl rfl
  all_goals exact streamsMove_of_eq rfl rfl rfl

theorem hostTurn_streams {s t : State} (h : hostTurn s = .next t) : StreamsMove s t ∨ Claims.BlockIsReset t := by
  obtain ⟨u, haccess, a, c, rfl⟩ := hostTurn_effect h
  have hu : StreamsMove s u ∨ u = blockReset s := by
    rcases haccess with rfl | rfl | ⟨r, v, rfl⟩
    · exact .inl (streamsMove_of_eq rfl rfl rfl)
    · exact .inl ⟨id, .inl rfl, .inr (.inl rfl)⟩
    · exact regWrite_streams r v s
  rcases hu with ⟨heos, hin, hout⟩ | rfl
  · exact .inl ⟨heos, hin, hout⟩
  · exact .inr rfl

/-- A step moves the streams, unless it decodes STREAM_RESET or resets the block (R41). -/
theorem step_streams {s t : State} (h : step s = .next t) :
    StreamsMove s t ∨ Claims.Decoding s .streamReset ∨ Claims.BlockIsReset t := by
  rcases step_cases h with ⟨-, hengine⟩ | ⟨-, hhost⟩
  · rcases engineStep_streams hengine with ⟨⟨heos, hin, hout⟩, -⟩ | ⟨hreset, -⟩
    · exact .inl ⟨heos, hin, hout⟩
    · exact .inr (.inl hreset)
  · rcases hostTurn_streams hhost with ⟨heos, hin, hout⟩ | hreset
    · exact .inl ⟨heos, hin, hout⟩
    · exact .inr (.inr hreset)

/-- Settles O49: a step moves the streams but for the two resets, and an engine step never sets EOS. -/
theorem streamsKeepTheirOrder : Obligations.StreamsKeepTheirOrder := by
  intro s t hstep
  have hmoves := step_streams hstep
  refine ⟨fun hclear hset => ?_, fun hset hclear => ?_, ?_, ?_⟩
  · rcases step_cases hstep with ⟨-, hengine⟩ | ⟨hhost, -⟩
    · rcases engineStep_streams hengine with ⟨-, heos⟩ | ⟨-, heos⟩
      · exact absurd (hset.symm.trans (heos.trans hclear)) nofun
      · exact absurd (hset.symm.trans heos) nofun
    · exact hhost
  · exact hmoves.resolve_left fun hmove => absurd ((hmove.eos hset).symm.trans hclear) nofun
  · rcases hmoves with ⟨-, hq | hq | hq, -⟩ | hreset | hreset <;> simp [*]
  · rcases hmoves with ⟨-, -, hq | hq | hq⟩ | hreset | hreset <;> simp [*]

/-! ### Faults -/

/-- A register write that raises a fault does nothing else (60_exceptions.md R145). -/
theorem regWrite_raised (r : Reg) (v : Word) (s : State) :
    (regWrite r v s).raised = s.raised ∨ ∃ k, regWrite r v s = raise k v s := by
  rcases regWrite_cases r v s with he | ⟨-, -, he⟩ | ⟨-, he⟩ | ⟨-, -, he⟩ | ⟨-, he⟩ | ⟨-, he⟩ | ⟨-, he⟩ <;> rw [he]
  case inr.inr.inl =>
    rcases issue_cases v s with ⟨-, he⟩ | ⟨-, -, he⟩ | ⟨-, -, he⟩ <;> rw [he]
    · exact .inr ⟨_, rfl⟩
    · exact .inl rfl
    · exact .inl rfl
  case inr.inr.inr.inr.inr.inl =>
    rcases bitinWrite_cases v s with ⟨-, he⟩ | ⟨-, -, he⟩ | ⟨-, -, he⟩ <;> rw [he]
    · exact .inl rfl
    · exact .inl rfl
    · exact .inr ⟨_, rfl⟩
  all_goals exact .inl rfl

/-- An engine step that raises a fault takes it for the pending word and does nothing else (R139, R145): the word is the
encoding of the command it decodes to. -/
theorem engineStep_raised {s t : State} (h : engineStep s = .next t) :
    t.raised = s.raised ∨ ∃ k w d, s.eng = .pend w d ∧ t = takeFault k w s := by
  rcases engineStep_cases h with ⟨-, rfl⟩ | ⟨w, d, hpend, -, rfl⟩ | ⟨w, d, i, hpend, hdecode, hexec⟩ | ⟨_, _, -, hbit⟩ | ⟨_, _, -, hbit⟩
  · exact .inl rfl
  · exact .inr ⟨_, w, d, hpend, rfl⟩
  · rcases exec_cases hexec with ⟨k, rfl⟩ | he
    · exact .inr ⟨k, w, d, hpend, by rw [(encodeOfDecodeIsTheWord w i hdecode).1]⟩
    · exact .inl he.raised_fault.1
  · exact .inl (encodeBit_fault_raised hbit).2
  · exact .inl (decodeBit_fault_raised hbit).2

/-- Settles O46: the codes are those of `FaultKind.code`, and what raises a fault does nothing else. -/
theorem faultsArePrecise : Obligations.FaultsArePrecise := by
  refine ⟨⟨rfl, rfl, rfl, rfl, rfl, rfl, rfl, rfl, rfl, rfl⟩, fun s t h hne => ?_, fun r v s hne => ?_⟩
  · exact (engineStep_raised h).resolve_left hne
  · exact (regWrite_raised r v s).resolve_left hne

/-! ### A counting pass -/

/-- Settles O18: by induction over the symbols; the bound on the counts leaves room for each COUNT. -/
theorem countingPassCountsOccurrences : Obligations.CountingPassCountsOccurrences := by
  intro xs
  induction xs with
  | nil => exact fun s _ _ => ⟨s, rfl, by simp, rfl, rfl⟩
  | cons x xs ih =>
    intro s hsyms hbound
    have hroom : (freqAt s.freq x).toNat ≠ Config.countMax := by
      have hx := hbound x
      rw [List.count_cons_self] at hx
      have hmax : Config.countMax = Claims.maxCount := rfl
      omega
    have hexec := exec_count_of_ne_countMax (hsyms x (.head _)) hroom
    have hcounted : ∀ b, (freqAt (freqPut s.freq x (freqAt s.freq x + 1)) b).toNat + xs.count b =
        (freqAt s.freq b).toNat + (x :: xs).count b := fun b => by
      by_cases hb : b = x
      · rw [hb, freqAt_freqPut_same, toNat_add_one_of_ne_countMax hroom, List.count_cons_self]
        omega
      · rw [freqAt_freqPut_of_ne hb, List.count_cons_of_ne fun he => hb he.symm]
    obtain ⟨t, ht, hcount, hfault, hraised⟩ := ih (completeWith _ _ (invalidate { s with freq := _ })) (fun y hy => hsyms y (.tail _ hy)) fun b =>
      (hcounted b).trans_le (hbound b)
    refine ⟨t, ?_, fun b => (hcount b).trans (hcounted b), hfault, hraised⟩
    simp only [Claims.countAll, hexec]
    exact ht

end Sys2Proof.Machine
end

section
/-! Reset, the step, the result words, the registers and the window (10_state.md R22 to R35, R45, R49, 20_memory.md R51 to
R56, 42_tree_builder.md R96, 44_stream_codec.md R112, 45_control.md R120). -/

namespace Sys2Proof.Machine

/-! ### Reset -/

/-- A CTRL write with SRST = 1 is the reset action (R120). -/
theorem regWrite_ctrl_of_srst {v : Word} (h : v.getLsbD 0 = true) (s : State) : regWrite .ctrl v s = blockReset s :=
  if_pos h

/-- A CTRL write with SRST = 0 does nothing (R120). -/
theorem regWrite_ctrl_of_noSrst {v : Word} (h : v.getLsbD 0 = false) (s : State) : regWrite .ctrl v s = s :=
  if_neg (ne_true_of_eq_false h)

/-- With TREE_VALID = 0 an entry of NODE is a free value (R37, log entry 3). -/
theorem nodeAt_of_noTree {s : State} (hv : s.treeValid = false) {i : Nat} (hi : i < Config.nodeMax) :
    nodeAt s i = some (Config.unspecifiedNode i) := by
  simp [nodeAt, hi, hv]

/-- With CODES_VALID = 0 an entry of CODE is a free value (R40, log entry 3). -/
theorem codeAt_of_noCodes {s : State} (hv : s.codesValid = false) {sym : Nat} (hsym : sym < Config.nsym) :
    codeAt s sym = some (Config.unspecifiedCode sym) := by
  simp [codeAt, hsym, hv]

/-- Settles O1: the fields of the reset state, and SRST leaves the same. -/
theorem resetLeavesTheSpecValues : Obligations.ResetLeavesTheSpecValues :=
  ⟨rfl,
    fun _ => ⟨fun _ => rfl, fun _ hi => nodeAt_of_noTree rfl hi, rfl, rfl, rfl, rfl, fun _ hsym => codeAt_of_noCodes rfl hsym,
      rfl, rfl, rfl, rfl, rfl, rfl, rfl, rfl, rfl, rfl, rfl, rfl, rfl, rfl, rfl⟩,
    fun s _ hsrst => by rw [regWrite_ctrl_of_srst hsrst s]; rfl⟩

/-- Settles O51: SRST is the reset action, which leaves a reset block and nothing else. -/
theorem srstResetsTheBlock : Obligations.SrstResetsTheBlock := by
  refine fun s v => ⟨fun hclear => regWrite_ctrl_of_noSrst hclear s, fun hsrst => ?_⟩
  rw [regWrite_ctrl_of_srst hsrst s]
  exact ⟨rfl, rfl, rfl, rfl, rfl, rfl, State.Inv.blockReset⟩

/-! ### The step -/

theorem step_engine {s : State} (h : nextAgent s = .engine) : step s = engineStep (dropTurn s) := by
  simp only [step, h]

theorem step_host {s : State} (h : nextAgent s = .host) : step s = hostTurn (dropTurn s) := by
  simp only [step, h]

/-- With a turn listed it is that agent's (log entry 1). -/
theorem nextAgent_of_cons {s : State} {a : Agent} {ts : List Agent} (h : s.turns = a :: ts) : nextAgent s = a := by
  simp only [nextAgent, h]

/-- With no turn listed the engine goes exactly when it can (log entry 1). -/
theorem nextAgent_of_nil {s : State} (h : s.turns = []) : nextAgent s = if engineEnabled s then .engine else .host := by
  simp only [nextAgent, h]

/-- With no turn listed there is none to take. -/
theorem dropTurn_of_nil {s : State} (h : s.turns = []) : dropTurn s = s := by
  rw [dropTurn, h, List.tail_nil, ← h]

/-- Settles O11: the engine step form by form of ENG, and the agent by the listed turns. -/
theorem stepRunsTheDecodedCommand : Obligations.StepRunsTheDecodedCommand := by
  intro s
  refine ⟨fun w d i hagent hpend hdecode => ?_, fun w d e hagent hpend hdecode => ?_, fun sym k hagent heng => ?_,
    fun c n hagent heng => ?_, fun hagent hidle => ?_, step_host,
    fun a ts hturns => ⟨nextAgent_of_cons hturns, congrArg List.tail hturns⟩, fun hturns => ?_, dropTurn_of_nil⟩
  · rw [step_engine hagent, engineStep_pend (s := dropTurn s) hpend, decodeStep_of_ok hdecode]
  · rw [step_engine hagent, engineStep_pend (s := dropTurn s) hpend, decodeStep_of_error hdecode]
    rfl
  · rw [step_engine hagent, engineStep_enc (s := dropTurn s) heng]
  · rw [step_engine hagent, engineStep_dec (s := dropTurn s) heng]
  · rw [step_engine hagent, engineStep_idle (s := dropTurn s) hidle]
  · rw [nextAgent_of_nil hturns]
    split <;> simp [*]

/-! ### The result words -/

theorem nodeWord_sym (x : Node) : (nodeWord x).extractLsb' 0 9 = x.sym :=
  BitVec.extractLsb'_append_eq_right

theorem nodeWord_zero (x : Node) : (nodeWord x).extractLsb' 9 10 = x.zero := by
  rw [nodeWord, BitVec.extractLsb'_append_eq_of_le (by decide)]
  exact BitVec.extractLsb'_append_eq_right

theorem nodeWord_one (x : Node) : (nodeWord x).extractLsb' 19 10 = x.one := by
  rw [nodeWord, BitVec.extractLsb'_append_eq_of_le (by decide), BitVec.extractLsb'_append_eq_of_le (by decide)]
  exact BitVec.extractLsb'_append_eq_right

theorem nodeWord_reserved (x : Node) : (nodeWord x).extractLsb' 29 2 = 0 := by
  rw [nodeWord, BitVec.extractLsb'_append_eq_of_le (by decide), BitVec.extractLsb'_append_eq_of_le (by decide),
    BitVec.extractLsb'_append_eq_of_le (by decide)]
  exact BitVec.extractLsb'_append_eq_right

theorem nodeWord_leaf (x : Node) : (nodeWord x).getLsbD 31 = x.leaf := by
  simp only [nodeWord, BitVec.getLsbD_append]
  simp

/-- The node word of a leaf (R96): the bits above SYM are fixed. -/
theorem nodeWord_of_leaf {x : Node} (hl : x.leaf = true) (hzero : x.zero = 0x3FF#10) (hone : x.one = 0x3FF#10) :
    nodeWord x = 0x9FFFFE00#32 ||| x.sym.setWidth 32 := by
  have happend : nodeWord x = 0x4FFFFF#23 ++ x.sym := by
    rw [nodeWord, hl, hzero, hone]
    rfl
  rw [happend, BitVec.append_def]
  rfl

theorem decodeWord_sym (k : Kind) (sym : BitVec 9) : (decodeWord k sym).extractLsb' 0 9 = sym :=
  BitVec.extractLsb'_append_eq_right

theorem decodeWord_reservedLow (k : Kind) (sym : BitVec 9) : (decodeWord k sym).extractLsb' 9 7 = 0 := by
  rw [decodeWord, BitVec.extractLsb'_append_eq_of_le (by decide)]
  exact BitVec.extractLsb'_append_eq_right

theorem decodeWord_kind (k : Kind) (sym : BitVec 9) : (decodeWord k sym).extractLsb' 16 2 = k.bits := by
  rw [decodeWord, BitVec.extractLsb'_append_eq_of_le (by decide), BitVec.extractLsb'_append_eq_of_le (by decide)]
  exact BitVec.extractLsb'_append_eq_right

theorem decodeWord_reservedHigh (k : Kind) (sym : BitVec 9) : (decodeWord k sym).extractLsb' 18 14 = 0 := by
  rw [decodeWord, BitVec.extractLsb'_append_eq_of_le (by decide), BitVec.extractLsb'_append_eq_of_le (by decide),
    BitVec.extractLsb'_append_eq_of_le (by decide)]
  exact BitVec.extractLsb'_eq_self

/-- Settles O27: the fields one by one; KIND tells the three kinds apart and is never 3. -/
theorem resultWordLayouts : Obligations.ResultWordLayouts := by
  refine ⟨fun x => ⟨nodeWord_sym x, nodeWord_zero x, nodeWord_one x, nodeWord_reserved x, nodeWord_leaf x, nodeWord_of_leaf⟩,
    fun k sym => ⟨decodeWord_sym k sym, decodeWord_reservedLow k sym, decodeWord_reservedHigh k sym, ?_⟩⟩
  rw [decodeWord_kind]
  cases k <;> decide

/-! ### The registers -/

theorem statusWord_done (s : State) : (statusWord s).getLsbD 1 = s.done := by
  simp only [statusWord, BitVec.getLsbD_append]
  simp

theorem statusWord_treeValid (s : State) : (statusWord s).getLsbD 3 = s.treeValid := by
  simp only [statusWord, BitVec.getLsbD_append]
  simp

theorem statusWord_codesValid (s : State) : (statusWord s).getLsbD 4 = s.codesValid := by
  simp only [statusWord, BitVec.getLsbD_append]
  simp

theorem statusWord_irq (s : State) : (statusWord s).getLsbD 6 = irq s := by
  simp only [statusWord, BitVec.getLsbD_append]
  simp

theorem statusWord_reservedBit (s : State) : (statusWord s).getLsbD 7 = false := by
  simp only [statusWord, BitVec.getLsbD_append]
  simp

theorem statusWord_reservedHigh (s : State) : (statusWord s).extractLsb' 12 20 = 0 := by
  apply BitVec.eq_of_getLsbD_eq
  intro i hi
  simp only [statusWord, BitVec.getLsbD_extractLsb', BitVec.getLsbD_append]
  simp

theorem busy_eq_true_iff (s : State) : busy s = true ↔ s.eng ≠ .idle := decide_eq_true_iff

theorem irqEnWord_fields (x : BitVec 2) : (x.setWidth 32).extractLsb' 0 2 = x ∧ (x.setWidth 32).extractLsb' 2 30 = 0 := by
  constructor <;> apply BitVec.eq_of_getLsbD_eq <;> intro i hi
  · simp [hi, show i < 32 by omega]
  · simp [hi]

/-- Settles O52: each register's word, and STATUS and IRQ_EN field by field. -/
theorem registerReads : Obligations.RegisterReads := by
  intro s
  refine ⟨fun r hr => (regRead_snd r s).trans (if_neg hr), rfl, rfl, rfl, rfl, rfl, rfl, rfl, irqEnWord_fields s.irqEn, rfl,
    fun hf => if_neg (ne_true_of_eq_false hf), fun hf => if_pos hf, rfl, rfl, rfl, ?_, statusWord_done s, statusWord_fault s,
    statusWord_treeValid s, statusWord_codesValid s, statusWord_hold s, statusWord_irq s, statusWord_reservedBit s,
    statusWord_code s, statusWord_reservedHigh s⟩
  exact (iff_of_eq (congrArg (· = true) (statusWord_busy s))).trans (busy_eq_true_iff s)

/-- Settles O54: each register's write. -/
theorem registerWrites : Obligations.RegisterWrites := by
  refine fun s v => ⟨rfl, ?_, fun hset => if_pos hset, fun hclear => if_neg (ne_true_of_eq_false hclear), fun r hr => ?_⟩
  · rw [← BitVec.setWidth_eq_extractLsb' (by decide)]
    rfl
  · simp only [List.mem_cons, List.not_mem_nil, or_false] at hr
    rcases hr with rfl | rfl | rfl | rfl | rfl | rfl | rfl | rfl | rfl | rfl <;> rfl

/-! ### The window -/

theorem inWindow_of_lt (p : Params) {off : Nat} (h : off < 0x40) : inWindow p (p.base + off) = true := by
  simp [inWindow, Config.window, h]

theorem inWindow_of_ge (p : Params) {off : Nat} (h : 0x40 ≤ off) : inWindow p (p.base + off) = false := by
  simp [inWindow, Config.window, h]

theorem inWindow_of_below {p : Params} {addr : Nat} (h : addr < p.base) : inWindow p addr = false := by
  simp [inWindow, h]

theorem regOf_offset (r : Reg) : regOf r.offset = r := by
  cases r <;> rfl

theorem offset_lt (r : Reg) : r.offset < 0x40 := by
  cases r <;> decide

theorem offset_aligned (r : Reg) : r.offset % 4 = 0 := by
  cases r <;> rfl

/-- An access outside the window does not reach the block (R35, R51, log entry 7). -/
theorem busAccess_outside {s : State} {addr : Nat} (h : inWindow s.params addr = false) (width : Nat) (v : Word) :
    busAccess (.write addr width v) s = .next s ∧
      ∃ t, busAccess (.read addr width) s = .next t ∧ t.blockPart = s.blockPart := by
  refine ⟨by simp [busAccess, h], _, if_neg (ne_true_of_eq_false h), rfl⟩

/-- An access inside the window that is no aligned 32-bit access is refused (R52). -/
theorem busAccess_refused {s : State} {off width : Nat} (hoff : off < 0x40) (hbad : width ≠ 32 ∨ off % 4 ≠ 0) (v : Word) :
    (∃ r, busAccess (.write (s.params.base + off) width v) s = .refused r) ∧
      ∃ r, busAccess (.read (s.params.base + off) width) s = .refused r := by
  have hin := inWindow_of_lt s.params hoff
  by_cases hwidth : width = 32
  · have halign := hbad.resolve_left (not_not.mpr hwidth)
    simp [busAccess, hin, hwidth, halign]
  · simp [busAccess, hin, hwidth]

/-- An aligned 32-bit access reaches the register at its offset (R51). -/
theorem busAccess_register (r : Reg) (s : State) (v : Word) :
    busAccess (.write (s.params.base + r.offset) 32 v) s = .next (regWrite r v s) ∧
      busAccess (.read (s.params.base + r.offset) 32) s = .next (hostRead r .x s) := by
  simp [busAccess, inWindow_of_lt s.params (offset_lt r), offset_aligned r, regOf_offset]

/-- Settles O55: an access is outside the window, refused, or one of a register. -/
theorem windowAccess : Obligations.WindowAccess := by
  intro s off width v
  refine ⟨fun hoff hw => (busAccess_refused hoff (.inl hw) v).1, fun hoff hw => (busAccess_refused hoff (.inl hw) v).2,
    fun hoff ha => (busAccess_refused hoff (.inr ha) v).1, fun hoff ha => (busAccess_refused hoff (.inr ha) v).2,
    fun addr h => (busAccess_outside (inWindow_of_below h) width v).1,
    fun addr h => (busAccess_outside (inWindow_of_below h) width v).2,
    fun h => (busAccess_outside (inWindow_of_ge _ h) width v).1, fun h => (busAccess_outside (inWindow_of_ge _ h) width v).2,
    fun r => (busAccess_register r s v).1, fun r => ⟨_, (busAccess_register r s v).2, rfl, rfl⟩⟩

end Sys2Proof.Machine
end

section
/-! The textual header: parsing what is rendered gives the pairs back, and only rendered headers parse (46_host_sequences.md
R131 to R134). -/

namespace Sys2Proof.Machine

/-! ### Digits and numbers -/

theorem digit_toNat {d : Nat} (h : d < 10) : (digit d).toNat = 0x30 + d :=
  Nat.mod_eq_of_lt (by omega)

theorem digitValue_digit {d : Nat} (h : d < 10) : digitValue (digit d) = some d := by
  rw [digitValue, digit_toNat h, if_pos (by omega), Nat.add_sub_cancel_left]

/-- A byte with a digit's value is that digit. -/
theorem digitValue_eq_some {b : Byte} {d : Nat} (h : digitValue b = some d) : d < 10 ∧ b = digit d := by
  unfold digitValue at h
  split at h
  · obtain rfl := Option.some.inj h
    have hd : b.toNat - 0x30 < 10 := by omega
    refine ⟨hd, BitVec.eq_of_toNat_eq ?_⟩
    rw [digit_toNat hd]
    omega
  · cases h

/-- The digits of a sequence are read from the left: the last one counts once. -/
theorem digitsValue_concat (acc : Nat) (bs : List Byte) (b : Byte) : digitsValue acc (bs ++ [b]) =
    (digitsValue acc bs).bind fun m => (digitValue b).map fun d => 10 * m + d := by
  induction bs generalizing acc with
  | nil => cases h : digitValue b <;> simp [digitsValue, h]
  | cons c bs ih => cases h : digitValue c <;> simp [digitsValue, h, ih]

/-- A number of one digit is its digit. -/
theorem decimal_of_lt {n : Nat} (h : n < 10) : decimal n = [digit n] := by
  rw [decimal, decimalDigits, if_pos h]

/-- Fuel above the number does not matter. -/
theorem decimalDigits_eq_decimal {n : Nat} : ∀ {fuel : Nat}, n < fuel → decimalDigits fuel n = decimal n := by
  induction n using Nat.strongRecOn with
  | ind n ih =>
    intro fuel hfuel
    obtain ⟨f, rfl⟩ : ∃ f, fuel = f + 1 := ⟨_, (Nat.succ_pred_eq_of_pos (by omega)).symm⟩
    rw [decimal, decimalDigits, decimalDigits]
    split
    · rfl
    · rw [ih (n / 10) (by omega) (by omega), ih (n / 10) (by omega) (by omega)]

/-- A number of more digits is its tenth with one digit more. -/
theorem decimal_of_ge {n : Nat} (h : 10 ≤ n) : decimal n = decimal (n / 10) ++ [digit (n % 10)] := by
  rw [decimal, decimalDigits, if_neg h.not_gt, decimalDigits_eq_decimal (by omega)]

/-- Induction over the decimal digits of a number. -/
theorem decimal_induction {P : Nat → Prop} (single : ∀ n, n < 10 → P n) (more : ∀ n, 10 ≤ n → P (n / 10) → P n) :
    ∀ n, P n := fun n => by
  induction n using Nat.strongRecOn with
  | ind n ih =>
    rcases Nat.lt_or_ge n 10 with h | h
    · exact single n h
    · exact more n h (ih (n / 10) (by omega))

theorem digitsValue_decimal (n : Nat) : digitsValue 0 (decimal n) = some n := by
  induction n using decimal_induction with
  | single n h => simp [decimal_of_lt h, digitsValue, digitValue_digit h]
  | more n h ih =>
    have hlast : n % 10 < 10 := Nat.mod_lt _ (by decide)
    simp only [decimal_of_ge h, digitsValue_concat, ih, digitValue_digit hlast, Option.bind_some, Option.map_some]
    congr 1
    omega

/-- A rendered number of more than one digit does not begin with 0. -/
theorem decimal_head {n : Nat} : ∃ b bs, decimal n = b :: bs ∧ (10 ≤ n → bs ≠ []) ∧ (0 < n → b ≠ digit 0) := by
  induction n using decimal_induction with
  | single n h =>
    refine ⟨_, _, decimal_of_lt h, by omega, fun hpos he => ?_⟩
    have := congrArg BitVec.toNat he
    rw [digit_toNat h, digit_toNat (by decide)] at this
    omega
  | more n h ih =>
    obtain ⟨b, bs, hb, -, hne⟩ := ih
    refine ⟨b, bs ++ [digit (n % 10)], by rw [decimal_of_ge h, hb]; rfl, fun _ => by simp, fun _ => hne (by omega)⟩

/-- A rendered number is read back (R131). -/
theorem numberValue_decimal (n : Nat) : numberValue (decimal n) = some n := by
  have hvalue := digitsValue_decimal n
  rcases Nat.lt_or_ge n 10 with h | h
  · rw [decimal_of_lt h, numberValue, digitValue_digit h]
  · obtain ⟨b, bs, hb, hmore, hne⟩ := decimal_head (n := n)
    rw [hb] at hvalue ⊢
    cases bs with
    | nil => exact absurd rfl (hmore h)
    | cons c bs => rw [numberValue, if_neg (hne (by omega)), hvalue]

/-- Digits whose value is read, the first of them not 0, are the decimal of their value. -/
theorem decimal_of_digitsValue {b : Byte} (hb : b ≠ digit 0) : ∀ {bs : List Byte} {n : Nat},
    digitsValue 0 (b :: bs) = some n → 0 < n ∧ decimal n = b :: bs := by
  intro bs
  induction bs using List.reverseRecOn with
  | nil =>
    intro n h
    cases hd : digitValue b with
    | none => simp [digitsValue, hd] at h
    | some d =>
      obtain ⟨hlt, rfl⟩ := digitValue_eq_some hd
      obtain rfl : d = n := by simpa [digitsValue, hd] using h
      exact ⟨Nat.pos_of_ne_zero fun h0 => hb (by rw [h0]), decimal_of_lt hlt⟩
  | append_singleton bs c ih =>
    intro n h
    rw [← List.cons_append, digitsValue_concat] at h
    obtain ⟨m, hm, hc⟩ := Option.bind_eq_some_iff.mp h
    obtain ⟨d, hd, rfl⟩ := Option.map_eq_some_iff.mp hc
    obtain ⟨hpos, hdec⟩ := ih hm
    obtain ⟨hlt, rfl⟩ := digitValue_eq_some hd
    refine ⟨by omega, ?_⟩
    rw [decimal_of_ge (by omega), show (10 * m + d) / 10 = m by omega, show (10 * m + d) % 10 = d by omega, hdec]
    rfl

/-- A number that is read is the rendering of its value (R131). -/
theorem decimal_of_numberValue {bs : List Byte} {n : Nat} (h : numberValue bs = some n) : decimal n = bs := by
  match bs, h with
  | [b], h =>
    obtain ⟨hlt, rfl⟩ := digitValue_eq_some h
    exact decimal_of_lt hlt
  | b :: c :: bs, h =>
    rw [numberValue] at h
    split at h
    · cases h
    · exact (decimal_of_digitsValue ‹_› h).2

/-- A rendered number is digits only. -/
theorem isDigit_of_mem_decimal {n : Nat} : ∀ b ∈ decimal n, ∃ d, d < 10 ∧ b = digit d := by
  induction n using decimal_induction with
  | single n h => simpa [decimal_of_lt h] using ⟨n, h, rfl⟩
  | more n h ih =>
    intro b hb
    rw [decimal_of_ge h] at hb
    rcases List.mem_append.mp hb with hb | hb
    · exact ih b hb
    · exact ⟨_, Nat.mod_lt _ (by decide), List.mem_singleton.mp hb⟩

/-! ### Pairs -/

theorem digit_ne_chColon {d : Nat} (h : d < 10) : digit d ≠ chColon := fun he => by
  have := congrArg BitVec.toNat he
  rw [digit_toNat h, show chColon.toNat = 0x3A from rfl] at this
  omega

theorem digit_ne_chComma {d : Nat} (h : d < 10) : digit d ≠ chComma := fun he => by
  have := congrArg BitVec.toNat he
  rw [digit_toNat h, show chComma.toNat = 0x2C from rfl] at this
  omega

/-- The first colon splits (R133). -/
theorem splitColon_append {k : List Byte} (h : ∀ b ∈ k, b ≠ chColon) (v : List Byte) :
    splitColon (k ++ chColon :: v) = some (k, v) := by
  induction k with
  | nil => simp [splitColon]
  | cons b k ih => simp [splitColon, h b (.head _), ih fun c hc => h c (.tail _ hc)]

/-- What splits is a colon between the two parts. -/
theorem eq_of_splitColon {p k v : List Byte} (h : splitColon p = some (k, v)) : p = k ++ chColon :: v := by
  induction p generalizing k with
  | nil => cases h
  | cons b p ih =>
    rw [splitColon] at h
    split at h
    · cases h
      subst_vars
      rfl
    · split at h
      · cases h
        rw [ih ‹_›]
        rfl
      · cases h

theorem parsePair_renderPair (p : Nat × Nat) : parsePair (renderPair p) = some p := by
  have hkey : ∀ b ∈ decimal p.1, b ≠ chColon := fun b hb => by
    obtain ⟨d, hd, rfl⟩ := isDigit_of_mem_decimal b hb
    exact digit_ne_chColon hd
  simp [parsePair, renderPair, splitColon_append hkey, numberValue_decimal]

theorem renderPair_of_parsePair {bs : List Byte} {p : Nat × Nat} (h : parsePair bs = some p) : renderPair p = bs := by
  unfold parsePair at h
  split at h
  · cases h
  · split at h
    · cases h
      rw [renderPair, decimal_of_numberValue ‹_›, decimal_of_numberValue ‹_›, ← eq_of_splitColon ‹splitColon bs = _›]
    · cases h

/-- A rendered pair holds no comma. -/
theorem ne_chComma_of_mem_renderPair {p : Nat × Nat} {b : Byte} (h : b ∈ renderPair p) : b ≠ chComma := by
  rcases List.mem_append.mp h with h | h
  · obtain ⟨d, hd, rfl⟩ := isDigit_of_mem_decimal b h
    exact digit_ne_chComma hd
  · rcases List.mem_cons.mp h with rfl | h
    · decide
    · obtain ⟨d, hd, rfl⟩ := isDigit_of_mem_decimal b h
      exact digit_ne_chComma hd

/-! ### Lists of pairs -/

/-- Parts joined by a comma and a space (R131). -/
def joinPairs : List (List Byte) → List Byte
  | [] => []
  | [p] => p
  | p :: q :: rest => p ++ chComma :: chSpace :: joinPairs (q :: rest)

theorem renderPairs_eq_joinPairs (ps : List (Nat × Nat)) : renderPairs ps = joinPairs (ps.map renderPair) := by
  match ps with
  | [] => rfl
  | [p] => rfl
  | p :: q :: rest => rw [renderPairs, renderPairs_eq_joinPairs (q :: rest)]; rfl

theorem splitPairs_ne_nil (bs : List Byte) : splitPairs bs ≠ [] := by
  unfold splitPairs
  repeat' split
  all_goals simp

/-- A byte that begins no separator goes to the first part. -/
theorem splitPairs_cons {b : Byte} (hb : b ≠ chComma) {bs p : List Byte} {ps : List (List Byte)}
    (h : splitPairs bs = p :: ps) : splitPairs (b :: bs) = (b :: p) :: ps := by
  cases bs with
  | nil =>
    cases h
    rfl
  | cons c bs => rw [splitPairs, if_neg fun he => hb he.1, h]

theorem splitPairs_append {p : List Byte} (hp : ∀ b ∈ p, b ≠ chComma) {bs q : List Byte} {qs : List (List Byte)}
    (h : splitPairs bs = q :: qs) : splitPairs (p ++ bs) = (p ++ q) :: qs := by
  induction p with
  | nil => exact h
  | cons b p ih => exact splitPairs_cons (hp b (.head _)) (ih fun c hc => hp c (.tail _ hc))

/-- Parts without commas are split where they were joined (R133). -/
theorem splitPairs_joinPairs {ps : List (List Byte)} (hne : ps ≠ []) (h : ∀ p ∈ ps, ∀ b ∈ p, b ≠ chComma) :
    splitPairs (joinPairs ps) = ps := by
  match ps, hne with
  | [p], _ => simpa [joinPairs] using splitPairs_append (h p (.head _)) (bs := []) rfl
  | p :: q :: rest, _ =>
    have hrest := splitPairs_joinPairs (ps := q :: rest) (by simp) fun p hp => h p (.tail _ hp)
    have hsep : splitPairs (chComma :: chSpace :: joinPairs (q :: rest)) = [] :: q :: rest := by
      rw [splitPairs, if_pos ⟨rfl, rfl⟩, hrest]
    rw [joinPairs, splitPairs_append (h p (.head _)) hsep, List.append_nil]

/-- Joining what was split gives it back. -/
theorem joinPairs_splitPairs (bs : List Byte) : joinPairs (splitPairs bs) = bs := by
  match bs with
  | [] => rfl
  | [b] => rfl
  | b :: c :: rest =>
    rw [splitPairs]
    split
    · obtain ⟨rfl, rfl⟩ := ‹b = chComma ∧ c = chSpace›
      obtain ⟨p, ps, hsplit⟩ := List.exists_cons_of_ne_nil (splitPairs_ne_nil rest)
      have hjoin := joinPairs_splitPairs rest
      rw [hsplit] at hjoin ⊢
      rw [joinPairs, hjoin, List.nil_append]
    · obtain ⟨p, ps, hsplit⟩ := List.exists_cons_of_ne_nil (splitPairs_ne_nil (c :: rest))
      have hjoin := joinPairs_splitPairs (c :: rest)
      rw [hsplit] at hjoin ⊢
      cases ps with
      | nil => exact congrArg (b :: ·) hjoin
      | cons q ps => exact congrArg (b :: ·) hjoin

theorem parsePairs_map_renderPair (ps : List (Nat × Nat)) : parsePairs (ps.map renderPair) = some ps := by
  induction ps with
  | nil => rfl
  | cons p ps ih => simp [parsePairs, parsePair_renderPair, ih]

theorem map_renderPair_of_parsePairs {bss : List (List Byte)} {ps : List (Nat × Nat)} (h : parsePairs bss = some ps) :
    ps.map renderPair = bss := by
  induction bss generalizing ps with
  | nil =>
    cases h
    rfl
  | cons bs bss ih =>
    rw [parsePairs] at h
    split at h
    · cases h
      rw [List.map_cons, renderPair_of_parsePair ‹_›, ih ‹_›]
    · cases h

/-! ### Headers -/

/-- A rendered list of pairs is empty for no pairs only: a pair has its colon. -/
theorem renderPairs_eq_nil_iff {ps : List (Nat × Nat)} : renderPairs ps = [] ↔ ps = [] := by
  match ps with
  | [] => exact iff_of_true rfl rfl
  | [p] => simp [renderPairs, renderPair]
  | p :: q :: rest => simp [renderPairs]

/-- A header is its body between braces. -/
theorem parseHeader_braces (body : List Byte) :
    parseHeader (chOpen :: (body ++ [chClose])) = if body = [] then some [] else parsePairs (splitPairs body) := by
  simp [parseHeader]

theorem parseHeader_renderHeader (ps : List (Nat × Nat)) : parseHeader (renderHeader ps) = some ps := by
  rw [renderHeader, parseHeader_braces]
  split
  · rw [renderPairs_eq_nil_iff.mp ‹renderPairs ps = []›]
  · have hne : ps ≠ [] := fun he => ‹¬ renderPairs ps = []› (renderPairs_eq_nil_iff.mpr he)
    rw [renderPairs_eq_joinPairs, splitPairs_joinPairs (by simpa using hne), parsePairs_map_renderPair]
    intro bs hbs b hb
    obtain ⟨p, -, rfl⟩ := List.mem_map.mp hbs
    exact ne_chComma_of_mem_renderPair hb

/-- What parses as a header stands between braces. -/
theorem braces_of_parseHeader {h : List Byte} {ps : List (Nat × Nat)} (hp : parseHeader h = some ps) :
    ∃ body, h = chOpen :: (body ++ [chClose]) := by
  cases h with
  | nil => cases hp
  | cons b rest =>
    rw [parseHeader] at hp
    split at hp
    · obtain ⟨rfl, hlast⟩ := ‹b = chOpen ∧ rest.getLast? = some chClose›
      exact ⟨rest.dropLast, by rw [List.dropLast_append_getLast? _ hlast]⟩
    · cases hp

/-- Settles O59: numbers, pairs, lists of pairs and headers are each read back from their rendering. -/
theorem headerRoundTrip : Obligations.HeaderRoundTrip :=
  ⟨parseHeader_renderHeader, fun h ins rest s hp => by simp only [hostLine, hp]⟩

/-- Settles O60: each level of the grammar renders what it parsed. -/
theorem parsedHeadersAreOfTheGrammar : Obligations.ParsedHeadersAreOfTheGrammar := by
  intro h ps hp
  obtain ⟨body, rfl⟩ := braces_of_parseHeader hp
  rw [parseHeader_braces] at hp
  suffices hbody : renderPairs ps = body by rw [renderHeader, hbody]
  split at hp
  · cases hp
    subst_vars
    rfl
  · rw [renderPairs_eq_joinPairs, map_renderPair_of_parsePairs hp, joinPairs_splitPairs]

end Sys2Proof.Machine
end

section
/-! The lines of a host program and how a run ends (46_host_sequences.md R123 to R132, 70_reset_and_hazards.md R176). -/

namespace Sys2Proof.Machine

/-! ### Lines that read a register -/

/-- A host read leaves everything of the host but the variable it sets and the record of reads. -/
theorem hostRead_host (r : Reg) (v : HostVar) (s : State) :
    (hostRead r v s).host = v.set (regRead r s).1 { s.host with reads := (regRead r s).1 :: s.host.reads } := by
  simp only [hostRead, received, regRead_snd]
  split <;> rfl

theorem valueOf_withProg (p : List HostOp) (u : HostVar) (a : HostAgent) :
    Claims.valueOf u { a with prog := p } = Claims.valueOf u a := by
  cases u <;> rfl

theorem valueOf_withReads (ws : List Word) (u : HostVar) (a : HostAgent) :
    Claims.valueOf u { a with reads := ws } = Claims.valueOf u a := by
  cases u <;> rfl

/-- A variable set leaves the others. -/
theorem valueOf_set_of_ne {u v : HostVar} (h : u ≠ v) (w : Word) (a : HostAgent) :
    Claims.valueOf u (v.set w a) = Claims.valueOf u a := by
  cases u <;> cases v <;> simp [Claims.valueOf, HostVar.set] at h ⊢

/-- A line that reads `r` into `v` and goes on with the program `p`, and does nothing else. -/
theorem readsInto_of_hostRead {op : HostOp} {rest : List HostOp} {s : State} {r : Reg} {v : HostVar} {p : List HostOp}
    (h : hostLine op rest s = .next (setProg p (hostRead r v s))) : Claims.ReadsInto op rest s r v p := by
  have hraised : (regRead r s).2.raised = s.raised := by rw [regRead_snd]; split <;> rfl
  have hturns : (regRead r s).2.turns = s.turns := by rw [regRead_snd]; split <;> rfl
  refine ⟨_, h, rfl, ?_, fun u hu => ?_, ?_, ?_, ?_, ?_, ?_, ?_, ?_, rfl, hraised, hturns⟩
  all_goals rw [setProg_host, hostRead_host]
  case refine_2 => exact (valueOf_withProg ..).trans ((valueOf_set_of_ne hu ..).trans (valueOf_withReads ..))
  all_goals cases v <;> rfl

/-- A read that stays at its line leaves the program. -/
theorem readsInto_of_stay {op : HostOp} {rest : List HostOp} {s : State} {r : Reg} {v : HostVar}
    (h : hostLine op rest s = .next (hostRead r v s)) : Claims.ReadsInto op rest s r v s.host.prog := by
  have hprog : (hostRead r v s).host.prog = s.host.prog := by rw [hostRead_host]; cases v <;> rfl
  refine readsInto_of_hostRead (h.trans (congrArg _ ?_))
  rw [← hprog]
  rfl

/-- POLL, by BUSY (R123). -/
theorem hostLine_poll (rest : List HostOp) (s : State) : hostLine .poll rest s =
    if busy s then .next (hostRead .status .st s) else .next (setProg rest (hostRead .status .st s)) := by
  rw [← statusWord_busy]
  rfl

/-- CHECK, by FAULT (R125). -/
theorem hostLine_check (rest : List HostOp) (s : State) : hostLine .check rest s =
    if s.fault then .next { hostRead .status .st s with
      host := { (hostRead .status .st s).host with prog := [], outcome := .failed (faultCodeShown s) } }
    else .next (setProg rest (hostRead .status .st s)) := by
  rw [← statusWord_fault, ← statusWord_code]
  rfl

/-- EMIT's drain of an empty BITOUT, by BUSY in the last STATUS read (R126). -/
theorem hostLine_emitDrain_of_nil {s : State} (h : s.bitoutQ = []) (rest : List HostOp) : hostLine .emitDrain rest s =
    if s.host.st.getLsbD 0 then .next (setProg (.emitStatus :: rest) (hostRead .bitout .x s))
    else .next (setProg rest (hostRead .bitout .x s)) := by
  have hread : regRead .bitout s = (0, s) := bitoutRead_nil h
  have hx : (hostRead .bitout .x s).host.x = 0 := by rw [hostRead_host, hread]; rfl
  have hst : (hostRead .bitout .x s).host.st = s.host.st := by rw [hostRead_host]; rfl
  simp [hostLine, hx, hst]

/-- DEC's loop, by BUSY and HOLD (R127). -/
theorem hostLine_decFeed (rest : List HostOp) (s : State) : hostLine .decFeed rest s =
    if busy s = false then .next (setProg rest (hostRead .status .st s))
    else if hold s then .next (setProg (.decSupply :: .decFeed :: rest) (hostRead .status .st s))
    else .next (hostRead .status .st s) := by
  rw [← statusWord_busy, ← statusWord_hold]
  rfl

theorem busy_of_ne {s : State} (h : s.eng ≠ .idle) : busy s = true := decide_eq_true h

theorem busy_of_idle {s : State} (h : s.eng = .idle) : busy s = false := decide_eq_false (not_not.mpr h)

/-- The assembler takes exactly the commands whose operands fit (R124). -/
theorem hostLine_cmd (i : Instr) (rest : List HostOp) (s : State) : hostLine (.cmd i) rest s =
    if i.wellFormed then .next (regWrite .cmd (encode i) (setProg rest s)) else .refused .operandDoesNotFit := by
  cases h : i.wellFormed <;> simp [hostLine, assemble, h]

/-- R123 to R125. -/
theorem primitiveLines (rest : List HostOp) (s : State) : Claims.PrimitiveLines rest s where
  wr _ _ := rfl
  rd r v := readsInto_of_hostRead (congrArg _ (hostRead_setProg r v rest s))
  cmd i h := (hostLine_cmd i rest s).trans (if_pos h)
  cmdRefused i h := (hostLine_cmd i rest s).trans (if_neg (ne_true_of_eq_false h))
  data _ h := if_pos h
  dataRefused _ h := if_neg h.not_gt
  pollBusy h := readsInto_of_stay ((hostLine_poll rest s).trans (if_pos (busy_of_ne h)))
  pollDone h := readsInto_of_hostRead ((hostLine_poll rest s).trans (if_neg (ne_true_of_eq_false (busy_of_idle h))))
  irqLow h := if_neg (ne_true_of_eq_false h)
  irqHigh h := if_pos h
  checkFails h := ⟨_, (hostLine_check rest s).trans (if_pos h), rfl, congrArg _ (if_pos h), rfl⟩
  checkPasses h := readsInto_of_hostRead ((hostLine_check rest s).trans (if_neg (ne_true_of_eq_false h)))

/-- The bit that a BITOUT read returns, in its place under VALID (44_stream_codec.md R115). -/
theorem bitoutWord_fields (b : Bool) : (1#1 ++ 0#30 ++ BitVec.ofBool b : Word).getLsbD 31 = true ∧
    (1#1 ++ 0#30 ++ BitVec.ofBool b : Word).getLsbD 0 = b := by
  cases b <;> decide

/-- EMIT's drain of a bit appends it to OUT and goes on (R126). -/
theorem hostLine_emitDrain_of_cons {s : State} {b : Bool} {q : List Bool} (h : s.bitoutQ = b :: q) (rest : List HostOp) :
    hostLine .emitDrain rest s = .next { hostRead .bitout .x s with
      host := { (hostRead .bitout .x s).host with outBits := s.host.outBits ++ [b] } } := by
  have hread : regRead .bitout s = (1#1 ++ 0#30 ++ BitVec.ofBool b, { s with bitoutQ := q }) := bitoutRead_cons h
  obtain ⟨hvalid, hbit⟩ := bitoutWord_fields b
  have hx : (hostRead .bitout .x s).host.x = 1#1 ++ 0#30 ++ BitVec.ofBool b := by rw [hostRead_host, hread]; rfl
  have hout : (hostRead .bitout .x s).host.outBits = s.host.outBits := by rw [hostRead_host]; rfl
  simp only [hostLine, hx, hvalid, hbit, hout, if_true]

/-- R126. -/
theorem emitLines (rest : List HostOp) (s : State) : Claims.EmitLines rest s where
  status := readsInto_of_hostRead (congrArg Host.Outcome.next (hostRead_setProg ..))
  bit b q h := by
    have hprog : (hostRead .bitout .x s).host.prog = s.host.prog := by rw [hostRead_host]; rfl
    have hst : (hostRead .bitout .x s).host.st = s.host.st := by rw [hostRead_host]; rfl
    have hblock : (hostRead .bitout .x s).blockPart = ({ s with bitoutQ := q } : State).blockPart := by
      have hread : regRead .bitout s = _ := bitoutRead_cons h
      rw [hostRead, hread]
      rfl
    exact ⟨_, hostLine_emitDrain_of_cons h rest, hprog, rfl, hst, hblock⟩
  again h hst := readsInto_of_hostRead ((hostLine_emitDrain_of_nil h rest).trans (if_pos hst))
  done h hst := readsInto_of_hostRead ((hostLine_emitDrain_of_nil h rest).trans (if_neg (ne_true_of_eq_false hst)))

/-- R127. -/
theorem decLines (rest : List HostOp) (s : State) : Claims.DecLines rest s where
  done h := readsInto_of_hostRead ((hostLine_decFeed rest s).trans (if_pos (busy_of_idle h)))
  wants h hhold := readsInto_of_hostRead
    ((hostLine_decFeed rest s).trans ((if_neg (ne_false_of_eq_true (busy_of_ne h))).trans (if_pos hhold)))
  runs h hhold := readsInto_of_stay ((hostLine_decFeed rest s).trans
    ((if_neg (ne_false_of_eq_true (busy_of_ne h))).trans (if_neg (ne_true_of_eq_false hhold))))
  bit b bs h := by
    simp only [hostLine, h]
    cases b <;> rfl
  endBits h := by simp only [hostLine, h]

/-! ### COMPRESS and DECOMPRESS -/

/-- R129, R132. -/
theorem compressLines (rest : List HostOp) (s : State) : Claims.CompressLines rest s where
  compress _ := rfl
  serialize := rfl
  absent sym h := readsInto_of_hostRead (by
    rw [← hostRead_setProg]
    exact if_pos h)
  pair sym h := ⟨_, if_neg h, rfl, rfl, rfl, rfl, rfl⟩
  header := rfl
  clearOut := rfl

/-- The lines of DECOMPRESS, with the first DEC (R130). -/
theorem seqDecompress_eq (ps : List (Nat × Nat)) : seqDecompress ps = Claims.decompressLines ps ++ Claims.decLines := by
  simp only [seqDecompress, Claims.decompressLines, List.append_assoc]
  rfl

/-- KIND of the word in r, as the host reads it and as a slice (R130). -/
theorem bits_kind (w : Word) : bits w 17 16 = (w.extractLsb' 16 2).toNat := bits_eq_toNat_extractLsb' w 17 16

theorem afterDec_byte {s : State} (h : s.host.r.extractLsb' 16 2 = 0) (rest : List HostOp) : afterDec rest s =
    { s.host with prog := Claims.decLines ++ rest, outBytes := s.host.outBytes ++ [s.host.r.extractLsb' 0 8] } := by
  rw [afterDec, bits_kind, h, BitVec.setWidth_eq_extractLsb' (by decide)]
  rfl

theorem afterDec_eof {s : State} (h : s.host.r.extractLsb' 16 2 = 1) (rest : List HostOp) : afterDec rest s =
    { s.host with prog := rest, outcome := endOutcome .complete s } := by
  rw [afterDec, bits_kind, h]
  rfl

theorem afterDec_trunc {s : State} (h : 2 ≤ (s.host.r.extractLsb' 16 2).toNat) (rest : List HostOp) : afterDec rest s =
    { s.host with prog := rest, outcome := endOutcome .truncated s } := by
  rw [afterDec, bits_kind]
  split
  · omega
  · omega
  · rfl

/-- R130. -/
theorem decompressLines (rest : List HostOp) (s : State) : Claims.DecompressLines rest s where
  decompress h bitsIn ps hp := by simp only [Claims.Computes, hostLine, hp, seqDecompress_eq]
  byte h := by rw [Claims.Computes, hostLine, afterDec_byte h]
  eof h hf := by rw [Claims.Computes, hostLine, afterDec_eof h, endOutcome_noFault hf]
  trunc h hf := by rw [Claims.Computes, hostLine, afterDec_trunc h, endOutcome_noFault hf]
  faulted h hf := by
    rw [Claims.Computes, hostLine]
    by_cases heof : s.host.r.extractLsb' 16 2 = 1
    · rw [afterDec_eof heof, endOutcome_fault hf]
    · have hkind : 2 ≤ (s.host.r.extractLsb' 16 2).toNat := by
        have hzero : (s.host.r.extractLsb' 16 2).toNat ≠ 0 := fun he => h (BitVec.eq_of_toNat_eq he)
        have hone : (s.host.r.extractLsb' 16 2).toNat ≠ 1 := fun he => heof (BitVec.eq_of_toNat_eq he)
        omega
      rw [afterDec_trunc hkind, endOutcome_fault hf]

/-! ### The end of a run -/

/-- An ended run with one host goes on, by turns that change nothing (log entry 12). -/
theorem step_answers_of_quiescent {s : State} (hq : s.Quiescent) (hhosts : s.params.hosts ≤ 1) : ∃ t, step s = .next t := by
  obtain ⟨hprog, heng⟩ := hq
  cases hagent : nextAgent s with
  | engine => exact ⟨_, (step_engine hagent).trans (engineStep_idle (s := dropTurn s) heng)⟩
  | host =>
    refine ⟨dropTurn s, (step_host hagent).trans ((if_neg hhosts.not_gt).trans ?_)⟩
    simp [hprog]

/-- R176. -/
theorem runEnds (rest : List HostOp) (s : State) : Claims.RunEnds rest s where
  finishFaulted hf := by rw [Claims.Computes, hostLine, endOutcome_fault hf]
  finish hf := by rw [Claims.Computes, hostLine, endOutcome_noFault hf]
  notYet := by
    have hnot : s.host.prog ≠ [] ∨ s.eng ≠ .idle ↔ ¬ s.Quiescent := not_and_or.symm
    rw [hnot]
    rcases observation_cases s with ⟨hq, ho⟩ | ⟨hq, -, ho⟩ | ⟨hq, -, c, -, ho⟩ | ⟨hq, -, -, ho⟩
    · exact iff_of_true ho hq
    all_goals exact iff_of_false (by simp [ho]) (not_not.mpr hq)
  faulted hprog heng hf := by
    rcases observation_cases s with ⟨hq, -⟩ | ⟨-, -, ho⟩ | ⟨-, hno, -⟩ | ⟨-, hno, -⟩
    · exact absurd ⟨hprog, heng⟩ hq
    · exact ho
    · simp [hf] at hno
    · simp [hf] at hno
  checked c hprog heng hf hc := by
    rcases observation_cases s with ⟨hq, -⟩ | ⟨-, hyes, -⟩ | ⟨-, -, c', hc', ho⟩ | ⟨-, -, hne, -⟩
    · exact absurd ⟨hprog, heng⟩ hq
    · simp [hf] at hyes
    · rw [ho, ← HostOutcome.failed.inj (hc.symm.trans hc')]
    · exact absurd hc (hne c)
  ended hprog heng hf hne := by
    rcases observation_cases s with ⟨hq, -⟩ | ⟨-, hyes, -⟩ | ⟨-, -, c, hc, -⟩ | ⟨-, -, -, ho⟩
    · exact absurd ⟨hprog, heng⟩ hq
    · simp [hf] at hyes
    · exact absurd hc (hne c)
    · exact ⟨s.observedBlock, ho, rfl, rfl, rfl⟩
  kept o t ho hstep := by
    rw [step_quiescent (quiescent_of_observation ho) hstep, dropTurn_observation, ho]
  goesOn o ho := step_answers_of_quiescent (quiescent_of_observation ho)

/-- Settles O58: the lines, family by family, the end of a run, and the host turn by the program's head. -/
theorem hostLinesFollowTheirRules : Obligations.HostLinesFollowTheirRules := by
  intro rest s
  refine ⟨primitiveLines rest s, emitLines rest s, decLines rest s, compressLines rest s, decompressLines rest s,
    runEnds rest s, fun op hhosts hprog => ?_, fun hhosts hprog => ?_, fun hhosts => if_pos hhosts⟩
  · simp [hostTurn, hhosts.not_gt, hprog]
  · simp [hostTurn, hhosts.not_gt, hprog]

end Sys2Proof.Machine
end
